-- ==== Sys2Proof/Word.lean ====
section
/-! DEFINITION. The widths of 00_scope.md rule R10, as bit vector types. -/

namespace Sys2Proof

/-- A data value, an 8-bit register, a status byte (R10). -/
abbrev Byte := BitVec 8

/-- A bus address, the program counter, a fetch base (R10). -/
abbrev Addr := BitVec 16

/-- A `VFetch` result and `cValue` (R10). -/
abbrev Word16 := BitVec 16

/-- The colour nibble, a palette index, a register index (R10, R94). -/
abbrev Nibble := BitVec 4

/-- An opaque 32-bit RGBA8 pixel (R63). -/
abbrev Rgba := BitVec 32

/-- The video matrix counter and its row base (R34). -/
abbrev VCount := BitVec 11

/-- The video chip's 16 byte-wide registers (R33). -/
abbrev RegFile := Vector Byte 16

end Sys2Proof
end

