-- ==== Sys2Proof/Syntax.lean ====
section
/-! DEFINITION. The pin vector, the operands of the operations, the micro-operations a handler is made of, and one
constructor of `Instr` for each row of spec/opcode_table.json. -/

namespace Sys2Proof

/-- The pin-bus vector (R29), carried as a record (R119). `rw = true` is a read, every control line is active high
(D3, D4). `other` holds the chip-specific status lines, bit `i` being line `28 + i`; there are `PIN_BITS - 28` of them
(R96), a parameter, so their number is no part of the type (log entry 11). -/
structure Pins where
  addr  : Addr
  data  : Byte
  rw    : Bool
  sync  : Bool
  irq   : Bool
  nmi   : Bool
  other : Nat
deriving DecidableEq, Repr, Inhabited

/-- A control line that `On` and `Off` may name (R114). -/
inductive Line where
  | rw
  | sync
  | irq
  | nmi
  | other (i : Nat)
deriving DecidableEq, Repr

/-- A frame buffer of the host (R39, R63): the pointer, as the place of its first pixel in the host's frame memory, and
its capacity in pixels. -/
structure FrameBuffer where
  base     : Nat
  capacity : Nat
deriving DecidableEq, Repr

/-- The configuration record of `video.init` (R106): the fetch callback with its context, as a number that names it among
the host's, if one is given; the frame buffer, if one is given; the visible window in pixels and lines; and the
debug-visualisation switch (R281). -/
structure VideoConfig where
  fetch   : Option Nat
  fb      : Option FrameBuffer
  originX : Nat
  originY : Nat
  width   : Nat
  height  : Nat
  debug   : Bool
deriving DecidableEq, Repr

/-! ### Handlers as data

A `Dispatch` entry given as a program of micro-operations: the operations of 40_pin_bus.md and moves between the CPU's
registers, so that the contract of R134 holds by construction (log entry 7). -/

/-- What a handler may read and write (R134 item 3), and its own temporaries. -/
inductive HReg where
  | pc
  | sp
  | a
  | x
  | y
  | p
  | tmp (i : Fin 4)
deriving DecidableEq, Repr

/-- The operators of a handler's expressions, on 16-bit values. -/
inductive HOp where
  | add
  | sub
  | and
  | or
  | xor
  | shl
  | shr
  | eq
  | ult
deriving DecidableEq, Repr

/-- A handler's expressions, 16 bits wide. `data` is `GetData` (R113). -/
inductive HExpr where
  | const (v : BitVec 16)
  | reg (r : HReg)
  | data
  | addr
  | line (l : Line)
  | bin (o : HOp) (l r : HExpr)
deriving DecidableEq, Repr

/-- One micro-operation: a register move, or an operation of 40_pin_bus.md (R111, R112, R114, R115). -/
inductive Micro where
  | set (r : HReg) (e : HExpr)
  | setAddr (e : HExpr)
  | setAddrData (a d : HExpr)
  | on (ls : List Line)
  | off (ls : List Line)
  | exchange
deriving DecidableEq, Repr

/-- A finite micro-operation sequence with forward branches: it terminates, as R134 item 2 asks. -/
inductive Handler where
  | done
  | step (m : Micro) (k : Handler)
  | branch (c : HExpr) (t e : Handler)
deriving DecidableEq, Repr

/-- The operations, one constructor per row of spec/opcode_table.json (R102). -/
inductive Instr where
  /-- `OP b`: the handler of opcode byte `b` (R133). -/
  | op (b : Byte)
  /-- Register reads of the video chip (R161, R162, R163). -/
  | vrd0
  | vrd1
  | vrd2
  | vrd3
  | vrd4
  | vrd5
  | vrd6
  | vrd7
  | vrd8
  | vrd9
  | vrd10
  | vrd11
  | vrd12
  | vrd13
  | vrd14
  | vrd15
  /-- Register writes of the video chip, `d` the byte on the data lines (R164). -/
  | vwr0 (d : Byte)
  | vwr1 (d : Byte)
  | vwr2 (d : Byte)
  | vwr3 (d : Byte)
  | vwr4 (d : Byte)
  | vwr5 (d : Byte)
  | vwr6 (d : Byte)
  | vwr7 (d : Byte)
  | vwr8 (d : Byte)
  | vwr9 (d : Byte)
  | vwr10 (d : Byte)
  | vwr11 (d : Byte)
  | vwr12 (d : Byte)
  | vwr13 (d : Byte)
  | vwr14 (d : Byte)
  | vwr15 (d : Byte)
  /-- The opcode-fetch exchange (R131). -/
  | opfetch
  /-- The interrupt check (R262). -/
  | intchk
  /-- The six-exchange interrupt entry (R265). -/
  | intseq
  /-- The burst `cpu.execute(state, n)` (R137). -/
  | exec (n : Nat)
  /-- One exchange with the host (R115). -/
  | xchg
  /-- A read exchange at `a` (R116). -/
  | rd (a : Addr)
  /-- A write exchange of `d` at `a` (R117). -/
  | wr (a : Addr) (d : Byte)
  /-- One video tick (R190). -/
  | vtick
  /-- `video.init` (R234). -/
  | vinit (c : VideoConfig)
  /-- `video.reset` (R236). -/
  | vreset
  /-- `cpu.init` (R300). -/
  | cinit
  /-- `cpu.reset` (R300). -/
  | creset
deriving DecidableEq, Repr

end Sys2Proof
end

