-- ==== Sys2Proof/WellFormed.lean ====
section
/-! DEFINITION. What an operand must meet. Every operand but the configuration of `VINIT` is legal by its type (R93,
R95, R65); that one has the checks of 44_host_interfaces.md rule R235 and of 60_exceptions.md rule R281. -/

namespace Sys2Proof

/-- R235 check 1: the fetch callback is present. -/
def VideoConfig.fetchPresent (c : VideoConfig) : Bool := c.fetch.isSome

/-- R235 check 2: a frame buffer, if given, holds `width * height` pixels. -/
def VideoConfig.bufferLargeEnough (c : VideoConfig) : Bool :=
  match c.fb with
  | none => true
  | some b => decide (c.width * c.height ≤ b.capacity)

/-- R235 check 3: the window's horizontal origin and width are multiples of 4 pixels. -/
def VideoConfig.windowAligned (c : VideoConfig) : Bool :=
  decide (c.originX % 4 = 0 ∧ c.width % 4 = 0)

/-- R281: the debug-visualisation switch is off. -/
def VideoConfig.debugOff (c : VideoConfig) : Bool := !c.debug

/-- A configuration that `video.init` accepts. -/
def VideoConfig.wf (c : VideoConfig) : Bool :=
  c.fetchPresent && c.bufferLargeEnough && c.windowAligned && c.debugOff

/-- A well-formed operation. -/
def Instr.wf : Instr → Bool
  | .vinit c => c.wf
  | _ => true

end Sys2Proof
end

