-- ==== Sys2Proof/Decode.lean ====
section
/-! DEFINITION. The block's two decoders: an opcode byte to its `OP` (R90, R92) and a bus cycle forwarded to the video
chip to its register operation (R94, R95); and the encoder back. Decoding is total: no byte and no register index is
rejected (R92, R93, R95); what is rejected is a byte string that is no encoding at all. -/

namespace Sys2Proof

/-- Where the bits stand: the data lines of an opcode fetch (`OPBYTE`), or the pin vector of a forwarded cycle
(`VREG`). -/
inductive Channel where
  | fetch
  | bus
deriving DecidableEq, Repr

/-- Why a byte string is no encoding. -/
inductive DecodeError where
  /-- No opcode byte is there. -/
  | noOpcodeByte
  /-- A register cycle needs its pattern byte and its data byte. -/
  | shortCycle
  /-- The pattern of a register cycle has five bits: this byte is 32 or more. -/
  | notFiveBits (b : Byte)
deriving DecidableEq, Repr

/-- Format `OPBYTE`: the whole byte is the key (R90, R92). -/
def decodeOp (b : Byte) : Instr := .op b

/-- The read of register `r` (R94, rows `VRD0` to `VRD15`). -/
def decodeRead (r : Nibble) : Instr :=
  match r.toNat with
  | 0 => .vrd0
  | 1 => .vrd1
  | 2 => .vrd2
  | 3 => .vrd3
  | 4 => .vrd4
  | 5 => .vrd5
  | 6 => .vrd6
  | 7 => .vrd7
  | 8 => .vrd8
  | 9 => .vrd9
  | 10 => .vrd10
  | 11 => .vrd11
  | 12 => .vrd12
  | 13 => .vrd13
  | 14 => .vrd14
  | _ => .vrd15

/-- The write of byte `d` to register `r` (R94, rows `VWR0` to `VWR15`). -/
def decodeWrite (r : Nibble) (d : Byte) : Instr :=
  match r.toNat with
  | 0 => .vwr0 d
  | 1 => .vwr1 d
  | 2 => .vwr2 d
  | 3 => .vwr3 d
  | 4 => .vwr4 d
  | 5 => .vwr5 d
  | 6 => .vwr6 d
  | 7 => .vwr7 d
  | 8 => .vwr8 d
  | 9 => .vwr9 d
  | 10 => .vwr10 d
  | 11 => .vwr11 d
  | 12 => .vwr12 d
  | 13 => .vwr13 d
  | 14 => .vwr14 d
  | _ => .vwr15 d

/-- Format `VREG`: the five-bit pattern `w rrrr`, `w = 1` a read (R94), with the byte on the data lines. -/
def decodeVreg (pat : BitVec 5) (d : Byte) : Instr :=
  if pat.getLsbD 4 then decodeRead (pat.setWidth 4) else decodeWrite (pat.setWidth 4) d

/-- The five-bit pattern of a pin vector: the direction line, then `addr[3:0]` (R94). `addr[15:4]` is ignored. -/
def vregPattern (p : Pins) : BitVec 5 := BitVec.ofBool p.rw ++ p.addr.setWidth 4

/-- The register operation a forwarded pin vector asks for (R94, R160). -/
def decodePins (p : Pins) : Instr := decodeVreg (vregPattern p) p.data

/-- The instruction at the head of a byte string, and the rest. A register cycle is written as two bytes, its pattern
`000wrrrr` and the byte on the data lines (log entry 14). -/
def decode : Channel → List Byte → Except DecodeError (Instr × List Byte)
  | .fetch, [] => .error .noOpcodeByte
  | .fetch, b :: rest => .ok (decodeOp b, rest)
  | .bus, b :: d :: rest =>
    if b.toNat < 32 then .ok (decodeVreg (b.setWidth 5) d, rest) else .error (.notFiveBits b)
  | .bus, _ => .error .shortCycle

/-- A read's two bytes: pattern `0001rrrr`; the data lines carry nothing (written 0). -/
def readBytes (r : Nibble) : Channel × List Byte := (.bus, [(0x1#4 ++ r), 0])

/-- A write's two bytes: pattern `0000rrrr` and the byte to store. -/
def writeBytes (r : Nibble) (d : Byte) : Channel × List Byte := (.bus, [(0x0#4 ++ r), d])

/-- The encoding of an operation; `none` for the twelve rows that have no bit encoding (format `NOENC`). -/
def encode : Instr → Option (Channel × List Byte)
  | .op b => some (.fetch, [b])
  | .vrd0 => some (readBytes 0)
  | .vrd1 => some (readBytes 1)
  | .vrd2 => some (readBytes 2)
  | .vrd3 => some (readBytes 3)
  | .vrd4 => some (readBytes 4)
  | .vrd5 => some (readBytes 5)
  | .vrd6 => some (readBytes 6)
  | .vrd7 => some (readBytes 7)
  | .vrd8 => some (readBytes 8)
  | .vrd9 => some (readBytes 9)
  | .vrd10 => some (readBytes 10)
  | .vrd11 => some (readBytes 11)
  | .vrd12 => some (readBytes 12)
  | .vrd13 => some (readBytes 13)
  | .vrd14 => some (readBytes 14)
  | .vrd15 => some (readBytes 15)
  | .vwr0 d => some (writeBytes 0 d)
  | .vwr1 d => some (writeBytes 1 d)
  | .vwr2 d => some (writeBytes 2 d)
  | .vwr3 d => some (writeBytes 3 d)
  | .vwr4 d => some (writeBytes 4 d)
  | .vwr5 d => some (writeBytes 5 d)
  | .vwr6 d => some (writeBytes 6 d)
  | .vwr7 d => some (writeBytes 7 d)
  | .vwr8 d => some (writeBytes 8 d)
  | .vwr9 d => some (writeBytes 9 d)
  | .vwr10 d => some (writeBytes 10 d)
  | .vwr11 d => some (writeBytes 11 d)
  | .vwr12 d => some (writeBytes 12 d)
  | .vwr13 d => some (writeBytes 13 d)
  | .vwr14 d => some (writeBytes 14 d)
  | .vwr15 d => some (writeBytes 15 d)
  | .opfetch => none
  | .intchk => none
  | .intseq => none
  | .exec _ => none
  | .xchg => none
  | .rd _ => none
  | .wr _ _ => none
  | .vtick => none
  | .vinit _ => none
  | .vreset => none
  | .cinit => none
  | .creset => none

/-- Which format a word of the opcode table is read in. The table numbers two formats from bit 0, and both fill one
byte: a word below 32 is read as the five-bit pattern `VREG`, any other as an `OPBYTE` (log entry 14). -/
def tableChannel (nbits w : Nat) : Channel :=
  if nbits ≤ 5 ∨ w % 256 < 32 then .bus else .fetch

/-- The bytes of a table word: the first is bits 7..0, the operand byte above it bits 15..8 (0 where the table gives
it no bits). -/
def tableBytes (w : Nat) : List Byte := [BitVec.ofNat 8 w, BitVec.ofNat 8 (w / 256)]

/-- The instruction the decoder reads from a word numbered as spec/opcode_table.json numbers it; `none` for no bits
and where the decoder refuses. -/
def decodeTableWord (nbits w : Nat) : Option Instr :=
  if nbits = 0 then none
  else
    match decode (tableChannel nbits w) (tableBytes w) with
    | .ok (i, _) => some i
    | .error _ => none

/-! ### Every row's word, written out from the table's encoding -/

/-- Row `OP`, encoding `oooooooo`: a byte with the top bits set and one with none. -/
theorem decode_op_words :
    decode .fetch [0b11101010] = .ok (.op 0xEA, []) ∧ decode .fetch [0b00000000] = .ok (.op 0x00, []) := by decide

/-- Rows `VRD0` to `VRD7`, encodings `10000` to `10111`. -/
theorem decode_vrd_low_words :
    decode .bus [0b00010000, 0] = .ok (.vrd0, []) ∧ decode .bus [0b00010001, 0] = .ok (.vrd1, []) ∧
    decode .bus [0b00010010, 0] = .ok (.vrd2, []) ∧ decode .bus [0b00010011, 0] = .ok (.vrd3, []) ∧
    decode .bus [0b00010100, 0] = .ok (.vrd4, []) ∧ decode .bus [0b00010101, 0] = .ok (.vrd5, []) ∧
    decode .bus [0b00010110, 0] = .ok (.vrd6, []) ∧ decode .bus [0b00010111, 0] = .ok (.vrd7, []) := by decide

/-- Rows `VRD8` to `VRD15`, encodings `11000` to `11111`. -/
theorem decode_vrd_high_words :
    decode .bus [0b00011000, 0] = .ok (.vrd8, []) ∧ decode .bus [0b00011001, 0] = .ok (.vrd9, []) ∧
    decode .bus [0b00011010, 0] = .ok (.vrd10, []) ∧ decode .bus [0b00011011, 0] = .ok (.vrd11, []) ∧
    decode .bus [0b00011100, 0] = .ok (.vrd12, []) ∧ decode .bus [0b00011101, 0] = .ok (.vrd13, []) ∧
    decode .bus [0b00011110, 0] = .ok (.vrd14, []) ∧ decode .bus [0b00011111, 0] = .ok (.vrd15, []) := by decide

/-- Rows `VWR0` to `VWR7`, encodings `00000` to `00111`, each with the data byte 0x5A. -/
theorem decode_vwr_low_words :
    decode .bus [0b00000000, 0x5A] = .ok (.vwr0 0x5A, []) ∧ decode .bus [0b00000001, 0x5A] = .ok (.vwr1 0x5A, []) ∧
    decode .bus [0b00000010, 0x5A] = .ok (.vwr2 0x5A, []) ∧ decode .bus [0b00000011, 0x5A] = .ok (.vwr3 0x5A, []) ∧
    decode .bus [0b00000100, 0x5A] = .ok (.vwr4 0x5A, []) ∧ decode .bus [0b00000101, 0x5A] = .ok (.vwr5 0x5A, []) ∧
    decode .bus [0b00000110, 0x5A] = .ok (.vwr6 0x5A, []) ∧ decode .bus [0b00000111, 0x5A] = .ok (.vwr7 0x5A, []) := by
  decide

/-- Rows `VWR8` to `VWR15`, encodings `01000` to `01111`, each with the data byte 0xA5. -/
theorem decode_vwr_high_words :
    decode .bus [0b00001000, 0xA5] = .ok (.vwr8 0xA5, []) ∧ decode .bus [0b00001001, 0xA5] = .ok (.vwr9 0xA5, []) ∧
    decode .bus [0b00001010, 0xA5] = .ok (.vwr10 0xA5, []) ∧ decode .bus [0b00001011, 0xA5] = .ok (.vwr11 0xA5, []) ∧
    decode .bus [0b00001100, 0xA5] = .ok (.vwr12 0xA5, []) ∧ decode .bus [0b00001101, 0xA5] = .ok (.vwr13 0xA5, []) ∧
    decode .bus [0b00001110, 0xA5] = .ok (.vwr14 0xA5, []) ∧ decode .bus [0b00001111, 0xA5] = .ok (.vwr15 0xA5, []) := by
  decide

end Sys2Proof
end

