-- ==== Sys2Proof/Config.lean ====
section
/-! DEFINITION. The parameters of 00_scope.md rule R5 as plain data, and the free values: what the spec leaves open
without a value, as opaque constants nothing can evaluate. -/

namespace Sys2Proof

/-- The order of the video tick and the CPU's cycle within one clock (R232). -/
inductive ArbOrder where
  | tickFirst
  | accessFirst
deriving DecidableEq, Repr

/-- The height of a character row, 8 or 16 lines (R34, R41). -/
inductive RowHeight where
  | h8
  | h16
deriving DecidableEq, Repr

/-- A pair of bits, one of the horizontal and one of the vertical logic (`.H` and `.V`, R10). -/
structure HV where
  h : Bool
  v : Bool
deriving DecidableEq, Repr

/-- The derived fields (R35). -/
structure Derived where
  rowHeight    : RowHeight
  left         : Nat
  right        : Nat
  top          : Nat
  bottom       : Nat
  borderColor  : Rgba
  bgColor      : Rgba
  charBase     : Addr
  graphicsBase : Addr
deriving DecidableEq, Repr

/-- The derived fields that R170 to R175 leave to the registers and the new row height: thresholds (R172, R175) and fetch
bases (R174). -/
structure FreeGeometry where
  left         : Nat
  right        : Nat
  top          : Nat
  bottom       : Nat
  charBase     : Addr
  graphicsBase : Addr
deriving DecidableEq, Repr, Inhabited

/-- A colour's index field: `width` bits of register `reg`, from bit `lo` up (R173, log entry 10). -/
structure ColorField where
  reg   : Nibble
  lo    : Fin 8
  width : Fin 5
deriving DecidableEq, Repr

/-- The parameter `Derive` (R170): the reference instantiation of R178 to R181, or any other one, number `k`, whose
row-height bit is bit `rowBit` of register 3 (R171) and whose colour indexes are the field `border` of its border-colour
register and the field `bg` of its background register (R173). -/
inductive DeriveChoice where
  | reference
  | other (k : Nat) (rowBit : Fin 8) (border bg : ColorField)
deriving DecidableEq, Repr

/-- The CPU's registers that a handler may read and write (R134 item 3). -/
structure CpuRegs where
  pc : Addr
  sp : Byte
  a  : Byte
  x  : Byte
  y  : Byte
  p  : Byte
deriving DecidableEq, Repr, Inhabited

/-- One move of a handler the model does not know: the registers and the snapshot it leaves, with any level on any line
(log entry 30), and whether it then returns (`last`) or makes an exchange. -/
structure HandlerMove where
  regs : CpuRegs
  pins : Pins
  last : Bool
deriving DecidableEq, Repr, Inhabited

/-- An entry of `Dispatch` (R133): no handler (R93), a handler of which only the contract R134 is known, or a handler
given as a program of micro-operations. -/
inductive Entry where
  | absent
  | external
  | program (h : Handler)
deriving DecidableEq, Repr

/-- The parameter `Dispatch`, a total lookup keyed by the opcode byte (R92): the listed rows, and the entry of every
other byte. -/
structure DispatchTable where
  rows : List (Byte × Entry)
  rest : Entry
deriving DecidableEq, Repr

/-- The parameter `CPU_RESET` (R50, R52), less `PC`, which comes from the reset vector. -/
structure CpuReset where
  sp   : Byte
  a    : Byte
  x    : Byte
  y    : Byte
  p    : Byte
  pins : Pins
deriving DecidableEq, Repr

/-- The video chip's registers, counters and latches (R33, R34, R36, R37, R38, R40): all of its state but the derived
fields and the configuration of `video.init`. -/
structure Video where
  regs     : RegFile
  h        : Nat
  v        : Nat
  vc       : VCount
  vcBase   : VCount
  disable  : HV
  rc       : Nibble
  rowCount : Nat
  cValue   : Word16
  border   : HV
  shift    : Byte
  color    : Nibble
  crtX     : Nat
  crtY     : Nat
deriving DecidableEq, Repr

/-- The parameters of R5 that have no width or type of their own. `pinBits` is `PIN_BITS` (R96). `BusSelect(a)` is `a & busMask = busPattern`, a fixed
pattern over fixed address lines (R231). -/
structure Config where
  pinBits         : Nat
  nmiVector       : Addr
  irqVector       : Addr
  resetVector     : Addr
  iMask           : Byte
  bMask           : Byte
  dispatch        : DispatchTable
  totalColumns    : Nat
  totalLines      : Nat
  retraceLine     : Nat
  derive          : DeriveChoice
  palette         : Vector Rgba 16
  colorShift      : Nat
  busMask         : Addr
  busPattern      : Addr
  ticksPerCpuTick : Nat
  arbOrder        : ArbOrder
  cpuReset        : CpuReset
  videoReset      : Video
deriving DecidableEq, Repr

/-! ### Free values -/

/-- `Palette`, of which the spec gives no value (R182, R238): the entries at reset. Log entry 9. -/
opaque Config.freePalette : Nibble → Rgba

/-- A `Derive` other than the reference, number `k`: the thresholds and bases it gives for the new row height and the
registers (R170). Log entry 10. -/
opaque Config.freeDerive : Nat → RowHeight → RegFile → FreeGeometry

/-- A bound on the exchanges of the external handler of a byte, entered with these registers and this snapshot (R134
item 2: finitely many). Log entry 8. -/
opaque Config.freeHandlerBound : Byte → CpuRegs → Pins → Nat

/-- The next move of the external handler of a byte, entered with these registers and this snapshot, after the host
returned these vectors, newest first (R134 item 5: it depends on nothing else). Log entry 8. -/
opaque Config.freeHandlerMove : Byte → CpuRegs → Pins → List Pins → HandlerMove

end Sys2Proof
end

