-- ==== Sys2Proof/Machine/Derive.lean ====
section
/-! DEFINITION. `Derive`: the derived fields from the 16 registers (42_video_access.md section 3), with the reference
instantiation of its section 4. -/

namespace Sys2Proof.Machine

/-- A row's height in lines (R34). -/
def rowLines : RowHeight → Nat
  | .h8 => 8
  | .h16 => 16

/-- `paletteColor(index)`, the parameter `Palette` (R42, R238). -/
def paletteColor (c : Config) (i : Nibble) : Rgba := c.palette.get i.toFin

/-- `regs[r]` (R33). -/
def regAt (regs : RegFile) (r : Nibble) : Byte := regs.get r.toFin

/-- The register file after `regs[r] <- d` (R164). -/
def regSet (regs : RegFile) (r : Nibble) (d : Byte) : RegFile := regs.set r.toNat d r.isLt

/-- Bits `hi..lo` of a byte as a number. -/
def bits (b : Byte) (hi lo : Nat) : Nat := (b.toNat >>> lo) % 2 ^ (hi + 1 - lo)

/-- The row height a row-height bit gives: 16 if it is 1, 8 if it is 0 (R171). -/
def rowHeightOf (b : Bool) : RowHeight := if b then .h16 else .h8

/-- `border.top` of the reference instantiation (R178). -/
def refTop (regs : RegFile) : Nat := (regAt regs 1).toNat

/-- `border.bottom` of the reference instantiation, from the new row height (R172, R178). -/
def refBottom (rh : RowHeight) (regs : RegFile) : Nat := refTop regs + bits (regAt regs 3) 6 1 * rowLines rh

/-- `border.left` of the reference instantiation (R179). -/
def refLeft (regs : RegFile) : Nat := bits (regAt regs 0) 6 0

/-- `border.right` of the reference instantiation: two ticks a character column (R179). -/
def refRight (regs : RegFile) : Nat := refLeft regs + 2 * bits (regAt regs 2) 6 0

/-- `charBase` of the reference instantiation (R181). -/
def refCharBase (regs : RegFile) : Addr :=
  BitVec.ofNat 16 (bits (regAt regs 5) 7 4 <<< 10 ||| bits (regAt regs 2) 7 7 <<< 9)

/-- `graphicsBase` of the reference instantiation (R181). -/
def refGraphicsBase (regs : RegFile) : Addr := BitVec.ofNat 16 (bits (regAt regs 5) 3 0 <<< 10)

/-- Which bit of register 3 is the row-height bit: bit 0 in the reference instantiation (R171, R178). -/
def rowHeightBit : DeriveChoice → Nat
  | .reference => 0
  | .other _ b _ _ => b.val

/-- The index field of the border-colour register (R173): `regs[15][2:0]` in the reference instantiation (R180). -/
def borderField : DeriveChoice → ColorField
  | .reference => { reg := 15, lo := 0, width := 3 }
  | .other _ _ f _ => f

/-- The index field of the background register (R173): `regs[15][7:4]` in the reference instantiation (R180). -/
def bgField : DeriveChoice → ColorField
  | .reference => { reg := 15, lo := 4, width := 4 }
  | .other _ _ _ f => f

/-- The palette index a colour's field holds: a function of that one register (R173). -/
def fieldIndex (f : ColorField) (regs : RegFile) : Nibble :=
  BitVec.ofNat 4 ((regAt regs f.reg).toNat >>> f.lo.val % 2 ^ f.width.val)

/-- The row height: a function of the row-height bit of register 3 alone (R171). -/
def deriveRowHeight (c : Config) (regs : RegFile) : RowHeight :=
  rowHeightOf ((regAt regs 3).getLsbD (rowHeightBit c.derive))

/-- The thresholds and bases under the chosen `Derive`, from the registers and the new row height (R172). -/
def deriveGeometry (d : DeriveChoice) (rh : RowHeight) (regs : RegFile) : FreeGeometry :=
  match d with
  | .reference =>
    { left := refLeft regs, right := refRight regs, top := refTop regs, bottom := refBottom rh regs,
      charBase := refCharBase regs, graphicsBase := refGraphicsBase regs }
  | .other k _ _ _ => Config.freeDerive k rh regs

/-- `Derive(regs)` (R170): a pure function of the registers and the palette. -/
def derive (c : Config) (regs : RegFile) : Derived :=
  let rh := deriveRowHeight c regs
  let g := deriveGeometry c.derive rh regs
  { rowHeight := rh, left := g.left, right := g.right, top := g.top, bottom := g.bottom,
    borderColor := paletteColor c (fieldIndex (borderField c.derive) regs)
    bgColor := paletteColor c (fieldIndex (bgField c.derive) regs)
    charBase := g.charBase, graphicsBase := g.graphicsBase }

end Sys2Proof.Machine
end

