-- ==== Sys2Proof/Machine/Mem.lean ====
section
/-! DEFINITION. Memories as lists of address and value, sorted by address, that list no value equal to what an unlisted
address reads as, which is zero (log entry 5). Used for the CPU bus space (R60), the video fetch space (R61) and the
frame buffer (R63). -/

namespace Sys2Proof.Machine

/-- A memory of `w`-bit locations. `Memory 8` is a list of `Host.Cell`. -/
abbrev Memory (w : Nat) := List (Nat × BitVec w)

/-- The value at address `a`; zero where nothing is listed. -/
def Memory.read {w : Nat} : Memory w → Nat → BitVec w
  | [], _ => 0
  | (b, x) :: m, a => if a = b then x else Memory.read m a

/-- Put `v` in front of a memory that lists only addresses above `a`; a zero is not listed. -/
def Memory.cons {w : Nat} (a : Nat) (v : BitVec w) (m : Memory w) : Memory w :=
  if v = 0 then m else (a, v) :: m

/-- Write `v` at address `a`, keeping the canonical form. -/
def Memory.write {w : Nat} : Memory w → Nat → BitVec w → Memory w
  | [], a, v => Memory.cons a v []
  | (b, x) :: m, a, v =>
    if a < b then Memory.cons a v ((b, x) :: m)
    else if a = b then Memory.cons a v m
    else (b, x) :: Memory.write m a v

/-- Write the values at consecutive addresses from `a`. -/
def Memory.writeList {w : Nat} : Memory w → Nat → List (BitVec w) → Memory w
  | m, _, [] => m
  | m, a, v :: vs => Memory.writeList (Memory.write m a v) (a + 1) vs

/-- Write each value at its address, one after another. -/
def Memory.writeEach {w : Nat} : Memory w → List (Nat × BitVec w) → Memory w
  | m, [] => m
  | m, (a, v) :: cs => Memory.writeEach (Memory.write m a v) cs

/-- Every listed address is at least `lo`, the addresses rise strictly, and no zero is listed. -/
def Memory.wfFrom {w : Nat} : Nat → Memory w → Bool
  | _, [] => true
  | lo, (a, v) :: m => decide (lo ≤ a) && decide (v ≠ 0) && Memory.wfFrom (a + 1) m

/-- The canonical form. -/
def Memory.wf {w : Nat} (m : Memory w) : Bool := Memory.wfFrom 0 m

/-- Every listed address is below `n`. -/
def Memory.below {w : Nat} (n : Nat) (m : Memory w) : Bool := m.all fun c => decide (c.1 < n)

end Sys2Proof.Machine
end

