-- ==== Sys2Proof/Machine/Pins.lean ====
section
/-! DEFINITION. The operations of 40_pin_bus.md on one vector (R111 to R114), and its canonical layout (R96). -/

namespace Sys2Proof.Machine

/-- `SetAddr(a)`: every other line keeps its value (R111). -/
def setAddr (a : Addr) (p : Pins) : Pins := { p with addr := a }

/-- `SetAddrData(a, d)` (R112). -/
def setAddrData (a : Addr) (d : Byte) (p : Pins) : Pins := { p with addr := a, data := d }

/-- `GetData()` (R113). -/
def getData (p : Pins) : Byte := p.data

/-! ### The width of a vector (R96) -/

/-- The number of chip-specific status lines, `PIN_BITS - 28` (R96). -/
def otherLines (c : Config) : Nat := c.pinBits - 28

/-- The status lines of a number, those above `PIN_BITS` dropped. -/
def fitOther (c : Config) (n : Nat) : Nat := n % 2 ^ otherLines c

/-- A vector that comes from outside the chips, at the width `PIN_BITS`. -/
def fitPins (c : Config) (p : Pins) : Pins := { p with other := fitOther c p.other }

/-- The line is one of the vector's `PIN_BITS` lines. -/
def lineExists (c : Config) (l : Line) : Bool :=
  match l with
  | .other i => decide (i < otherLines c)
  | _ => true

/-! ### Control lines -/

/-- The level of one control line. -/
def lineLevel (l : Line) (p : Pins) : Bool :=
  match l with
  | .rw => p.rw
  | .sync => p.sync
  | .irq => p.irq
  | .nmi => p.nmi
  | .other i => p.other.testBit i

/-- Set one control line to a level. -/
def setLine (b : Bool) (l : Line) (p : Pins) : Pins :=
  match l with
  | .rw => { p with rw := b }
  | .sync => { p with sync := b }
  | .irq => { p with irq := b }
  | .nmi => { p with nmi := b }
  | .other i => if p.other.testBit i = b then p else { p with other := p.other ^^^ 2 ^ i }

/-- `On(lines)`: each named line to 1 (R114). -/
def linesOn : List Line → Pins → Pins
  | [], p => p
  | l :: ls, p => linesOn ls (setLine true l p)

/-- `Off(lines)`: each named line to 0 (R114). -/
def linesOff : List Line → Pins → Pins
  | [], p => p
  | l :: ls, p => linesOff ls (setLine false l p)

/-- The lines that every vector has: `addr` bits 15..0, `data` 23..16, `rw` 24, `sync` 25, `irq` 26, `nmi` 27 (R96). -/
def packLow (p : Pins) : BitVec 28 :=
  BitVec.ofBool p.nmi ++ BitVec.ofBool p.irq ++ BitVec.ofBool p.sync ++ BitVec.ofBool p.rw ++ p.data ++ p.addr

/-- The canonical layout, as a number of `PIN_BITS` bits: `other` from bit 28 on (R96). -/
def pack (c : Config) (p : Pins) : Nat := 2 ^ 28 * fitOther c p.other + (packLow p).toNat

/-- The break test: some configured bit is high (R97). -/
def breakMatches (c : Config) (p : Pins) (mask : Nat) : Bool := decide (pack c p &&& mask ≠ 0)

end Sys2Proof.Machine
end

