-- ==== Sys2Proof/Machine/Params.lean ====
section
/-! DEFINITION. The defaults of the parameters (00_scope.md rule R5, 10_state.md rules R50 to R52), what the spec
requires of them, and the two chips' reset values. -/

namespace Sys2Proof.Machine

/-- The snapshot after `cpu.reset` (R52): a read, every line clear. -/
def resetPins : Pins :=
  { addr := 0, data := 0, rw := true, sync := false, irq := false, nmi := false, other := 0 }

/-- The default of `CPU_RESET` (R50). PRESUMED, the 6502's `SP` and `P` (log entry 2). -/
def defaultCpuReset : CpuReset :=
  { sp := 0xFD, a := 0, x := 0, y := 0, p := 0x24, pins := resetPins }

/-- The default of `VIDEO_RESET` (R51): all zero, fetching off, border drawn (log entry 3). -/
def defaultVideoReset : Video :=
  { regs := Vector.replicate 16 0, h := 0, v := 0, vc := 0, vcBase := 0, disable := ⟨true, true⟩, rc := 0,
    rowCount := 0, cValue := 0, border := ⟨true, true⟩, shift := 0, color := 0, crtX := 0, crtY := 0 }

/-- The defaults of R5. `Dispatch` has none: every byte has an external handler (log entry 7); `Palette` has none: free
values (log entry 9). -/
def defaultConfig : Config :=
  { pinBits := 40
    nmiVector := 0xFFFA
    irqVector := 0xFFFE
    resetVector := 0xFFFC
    iMask := 0x04
    bMask := 0x10
    dispatch := { rows := [], rest := .external }
    totalColumns := 71
    totalLines := 312
    retraceLine := 303
    derive := .reference
    palette := Vector.ofFn fun i => Config.freePalette (BitVec.ofFin i)
    colorShift := 8
    busMask := 0x3F00
    busPattern := 0x1000
    ticksPerCpuTick := 1
    arbOrder := .tickFirst
    cpuReset := defaultCpuReset
    videoReset := defaultVideoReset }

/-- Exactly one bit of a mask is set (R5: `I_MASK`, `B_MASK`). -/
def oneBit (m : Byte) : Bool := (List.range 8).countP (fun i => m.getLsbD i) == 1

/-- A fixed 6-bit pattern over specific address lines (R231): six lines tested, the pattern on those lines. -/
def sixBitPattern (mask pattern : Addr) : Bool :=
  (List.range 16).countP (fun i => mask.getLsbD i) == 6 && pattern &&& mask == pattern

/-- What R5, R96, R51 and R34 require of the parameters. -/
def configWf (c : Config) : Bool :=
  oneBit c.iMask && oneBit c.bMask && c.iMask != c.bMask && decide (1 ≤ c.totalColumns) && decide (300 < c.totalLines) &&
  sixBitPattern c.busMask c.busPattern && decide (1 ≤ c.ticksPerCpuTick) &&
  decide (c.videoReset.h < c.totalColumns) && decide (c.videoReset.v < c.totalLines) &&
  !c.videoReset.vcBase.getLsbD 0 && decide (28 ≤ c.pinBits) &&
  decide (c.cpuReset.pins.other < 2 ^ otherLines c)

/-- `BusSelect(a)` (R231). -/
def busSelect (c : Config) (a : Addr) : Bool := a &&& c.busMask == c.busPattern

/-- The 16-bit word a memory holds at `a`, low byte at `a`, high byte at `(a + 1) mod 2^16` (R64, R99). -/
def wordAt (m : Memory 8) (a : Addr) : BitVec 16 := m.read (a + 1).toNat ++ m.read a.toNat

/-- The lookup `Dispatch(b)` (R92): the first listed row, else the entry of every other byte. -/
def lookup (t : DispatchTable) (b : Byte) : Entry :=
  match t.rows.lookup b with
  | some e => e
  | none => t.rest

end Sys2Proof.Machine
end

