-- ==== Sys2Proof/Machine/State.lean ====
section
/-! DEFINITION. The machine's state as plain data (10_state.md), the reasons a step can stop, and the state after
reset. -/

namespace Sys2Proof.Machine

/-- The CPU state (R22). `breakMask` is a number of `PIN_BITS` bits (R28, R97). -/
structure Cpu where
  pc        : Addr
  sp        : Byte
  a         : Byte
  x         : Byte
  y         : Byte
  p         : Byte
  breakMask : Nat
  pins      : Pins
deriving DecidableEq, Repr

/-- The visible window in beam units: x in ticks of 4 pixels, y in lines (R39). -/
structure Window where
  x0 : Nat
  x1 : Nat
  y0 : Nat
  y1 : Nat
deriving DecidableEq, Repr

/-- The configuration fixed by `video.init` (R39, R234): the frame buffer, if one is attached, the visible window, and
`VFetch`, as the number that names the host's callback (log entries 17 and 18). -/
structure Display where
  fb    : Option FrameBuffer
  vis   : Window
  fetch : Nat
deriving DecidableEq, Repr

/-- How the host answers one exchange: the lines it drives itself in the vector it returns (R118), and the changes it
makes in its memories (R66, R230): bytes of the CPU bus space, and words of its video memory by their place there. -/
structure Reply where
  addr  : Option Addr
  data  : Option Byte
  rw    : Option Bool
  sync  : Option Bool
  irq   : Option Bool
  nmi   : Option Bool
  other : Option Nat
  mem   : List (Addr × Byte)
  vmem  : List (Nat × Word16)
deriving DecidableEq, Repr

/-- A move of the host between exchanges (R230): forward a vector to the video chip, run an operation, or set what the
host may set: the CPU's snapshot (R239), `breakMask` (R28), `PC` (R303) and its own memories (R230), the video memory by
the place of the word in it. -/
inductive Call where
  | access (p : Pins)
  | run (i : Instr)
  | setPins (p : Pins)
  | setBreakMask (m : Nat)
  | setPc (a : Addr)
  | pokeMem (a : Addr) (b : Byte)
  | pokeVideo (a : Nat) (w : Word16)
deriving DecidableEq, Repr

/-- The host's side: its memories, the vector in its hand, and what it has queued (log entries 5, 6, 13, 16, 17). -/
structure HostSide where
  mem     : Memory 8
  vmem    : Memory 16
  frame   : Memory 32
  bus     : Pins
  replies : List Reply
  fetches : List (Option Word16)
  calls   : List Call
deriving DecidableEq, Repr

/-- What the outside observes (R11): the vector handed to `HostTick` and the one it returned, a `VFetch` and its
result, a register read and its result, and the results of `execute` and of a video tick. -/
inductive Event where
  | sent (p : Pins)
  | returned (p : Pins)
  | fetched (a : Addr) (w : Word16)
  | regRead (r : Nibble) (d : Byte)
  | executed (ticks : Nat)
  | ticked (soundSampleReady : Bool)
deriving DecidableEq, Repr

/-- The whole machine. `cfg` is never written (R21); `trace` is newest first. -/
structure State where
  cfg     : Config
  cpu     : Cpu
  ticks   : Nat
  video   : Video
  derived : Derived
  display : Display
  host    : HostSide
  trace   : List Event
deriving DecidableEq, Repr

/-- No fault exists: the block signals no error and raises no exception (R260, R140). -/
inductive Fault
deriving DecidableEq, Repr

/-- Where the spec itself says a model must refuse. Each is safe: the model stops where the spec gives no state. -/
inductive Refusal where
  /-- An operation that has no meaning yet; raised by `exec`'s arms alone. Safe. -/
  | notModelled (mnemonic : String)
  /-- `OP b` with no handler in `Dispatch`; raised by `OP`, `EXEC` and the instruction step (R93). Safe. -/
  | noHandler (op : Byte)
  /-- `VINIT` without a fetch callback (R235 check 1). Safe. -/
  | noFetchCallback
  /-- `VINIT` with a frame buffer smaller than the window (R235 check 2). Safe. -/
  | frameBufferTooSmall
  /-- `VINIT` with a window not aligned to the 4-pixel unit (R235 check 3). Safe. -/
  | windowNotAligned
  /-- `VINIT` with the debug-visualisation switch on (R281). Safe. -/
  | debugVisualisation
deriving DecidableEq, Repr

/-- An outcome of this machine. -/
abbrev Result := Host.Outcome State Fault Refusal

/-- The machine right after `cpu.reset` and `video.reset` with the default parameters (R50 to R52), the host holding
nothing and having queued nothing. -/
def State.reset : State :=
  { cfg := defaultConfig
    cpu :=
      { pc := wordAt [] defaultConfig.resetVector
        sp := defaultConfig.cpuReset.sp
        a := defaultConfig.cpuReset.a
        x := defaultConfig.cpuReset.x
        y := defaultConfig.cpuReset.y
        p := defaultConfig.cpuReset.p
        breakMask := 0
        pins := defaultConfig.cpuReset.pins }
    ticks := 0
    video := defaultConfig.videoReset
    derived := derive defaultConfig defaultConfig.videoReset.regs
    display := { fb := none, vis := { x0 := 0, x1 := 0, y0 := 0, y1 := 0 }, fetch := 0 }
    host :=
      { mem := [], vmem := [], frame := [], bus := resetPins, replies := [], fetches := [], calls := [] }
    trace := [] }

end Sys2Proof.Machine
end

