-- ==== Sys2Proof/Machine/Flags.lean ====
section
/-! DEFINITION. What the engine does with the status register (R27) and the interrupt lines: the only flag the block
writes is `I`, at interrupt entry (R8). -/

namespace Sys2Proof.Machine

/-- `I` is 1: the IRQ line is masked (R27). -/
def irqMasked (c : Config) (p : Byte) : Bool := decide (p &&& c.iMask ≠ 0)

/-- `P | I_MASK` (R271). -/
def setI (c : Config) (p : Byte) : Byte := p ||| c.iMask

/-- The byte interrupt entry pushes: `P & ~B_MASK` (R98, R269). -/
def pushedStatus (c : Config) (p : Byte) : Byte := p &&& ~~~c.bMask

/-- An interrupt is taken: `nmi`, or `irq` with `I` clear (R262). -/
def takeInterrupt (s : State) : Bool :=
  s.cpu.pins.nmi || (s.cpu.pins.irq && !irqMasked s.cfg s.cpu.p)

/-- The vector location, by the `nmi` line as it stands (R270). -/
def vectorLocation (s : State) : Addr := if s.cpu.pins.nmi then s.cfg.nmiVector else s.cfg.irqVector

end Sys2Proof.Machine
end

