-- ==== Sys2Proof/Machine/Operands.lean ====
section
/-! DEFINITION. The operand forms: stack and program-counter bytes (R267, R268), the register index of a cycle (R94),
fetch addresses of the video chip (R105), and the values a handler's micro-operations work on (R134). -/

namespace Sys2Proof.Machine

/-- The stack address, page 1 (R24, R267). -/
def stackAddr (sp : Byte) : Addr := 0x01#8 ++ sp

/-- `PC[15:8]` (R267). -/
def pcHigh (pc : Addr) : Byte := pc.extractLsb' 8 8

/-- `PC[7:0]` (R268). -/
def pcLow (pc : Addr) : Byte := pc.extractLsb' 0 8

/-- The register index of a cycle, `addr & 0xF` (R95). -/
def regIndex (a : Addr) : Nibble := a.setWidth 4

/-- `charBase | (vc >> 1)` (R105, R204). -/
def charAddr (charBase : Addr) (vc : VCount) : Addr := charBase ||| (vc >>> 1).setWidth 16

/-- `graphicsBase | (cValue[7:0] * rowHeight) | rc` (R105, R205); the product, at most 4080, fits. -/
def graphicsAddr (graphicsBase : Addr) (cValue : Word16) (rh : RowHeight) (rc : Nibble) : Addr :=
  graphicsBase ||| BitVec.ofNat 16 ((cValue.toNat % 256) * rowLines rh) ||| rc.setWidth 16

/-- The colour nibble of a fetched word, bits `COLOR_SHIFT+3..COLOR_SHIFT` (R100). -/
def colorNibble (colorShift : Nat) (w : Word16) : Nibble := (w >>> colorShift).setWidth 4

/-! ### A handler's operands -/

/-- What a handler's program holds itself: its temporaries, and whether it has asserted `sync` (R132). -/
structure Locals where
  tmp    : Vector (BitVec 16) 4
  syncUp : Bool
deriving DecidableEq, Repr

/-- The value of a register or temporary, widened with zeros. -/
def hregGet (l : Locals) (c : Cpu) : HReg → BitVec 16
  | .pc => c.pc
  | .sp => c.sp.setWidth 16
  | .a => c.a.setWidth 16
  | .x => c.x.setWidth 16
  | .y => c.y.setWidth 16
  | .p => c.p.setWidth 16
  | .tmp i => l.tmp.get i

/-- The value of an operator; a comparison gives 1 or 0. -/
def hopValue (o : HOp) (x y : BitVec 16) : BitVec 16 :=
  match o with
  | .add => x + y
  | .sub => x - y
  | .and => x &&& y
  | .or => x ||| y
  | .xor => x ^^^ y
  | .shl => x <<< y.toNat
  | .shr => x >>> y.toNat
  | .eq => (BitVec.ofBool (x == y)).setWidth 16
  | .ult => (BitVec.ofBool (x.ult y)).setWidth 16

/-- The value of an expression. -/
def hexprValue (l : Locals) (c : Cpu) : HExpr → BitVec 16
  | .const v => v
  | .reg r => hregGet l c r
  | .data => (getData c.pins).setWidth 16
  | .addr => c.pins.addr
  | .line n => (BitVec.ofBool (lineLevel n c.pins)).setWidth 16
  | .bin o x y => hopValue o (hexprValue l c x) (hexprValue l c y)

/-- The CPU after a register is set; an 8-bit register takes the low 8 bits. A temporary is none of the CPU's. -/
def hregSetCpu (c : Cpu) (v : BitVec 16) : HReg → Cpu
  | .pc => { c with pc := v }
  | .sp => { c with sp := v.setWidth 8 }
  | .a => { c with a := v.setWidth 8 }
  | .x => { c with x := v.setWidth 8 }
  | .y => { c with y := v.setWidth 8 }
  | .p => { c with p := v.setWidth 8 }
  | .tmp _ => c

/-- The temporaries after a register or temporary is set. -/
def hregSetLocals (l : Locals) (v : BitVec 16) : HReg → Locals
  | .tmp i => { l with tmp := l.tmp.set i.val v i.isLt }
  | _ => l

/-- The registers a handler may read and write (R134). -/
def cpuRegs (c : Cpu) : CpuRegs := { pc := c.pc, sp := c.sp, a := c.a, x := c.x, y := c.y, p := c.p }

/-- The CPU with those registers and that snapshot; `breakMask` is not a handler's to write (R134). -/
def withRegs (c : Cpu) (r : CpuRegs) (p : Pins) : Cpu :=
  { pc := r.pc, sp := r.sp, a := r.a, x := r.x, y := r.y, p := r.p, breakMask := c.breakMask, pins := p }

end Sys2Proof.Machine
end

