-- ==== Sys2Proof/Machine/VideoAccess.lean ====
section
/-! DEFINITION. The video chip's register access (42_video_access.md section 1), on the vector in the host's hand. -/

namespace Sys2Proof.Machine

/-- Put an event at the head of the trace (R11). -/
def record (e : Event) (s : State) : State := { s with trace := e :: s.trace }

/-- Put a vector in the host's hand. -/
def setBus (p : Pins) (s : State) : State := { s with host := { s.host with bus := p } }

/-- `ReadValue(3) = ((v & 1) << 7) | (regs[3] & 0x7F)` (R101, R162). -/
def readValue3 (v : Video) : Byte := (BitVec.ofNat 8 (v.v % 2) <<< 7) ||| (regAt v.regs 3 &&& 0x7F)

/-- `ReadValue(4) = (v >> 1) & 0xFF` (R104, R163). -/
def readValue4 (v : Video) : Byte := BitVec.ofNat 8 (v.v / 2)

/-- `ReadValue(r)` (R161, R162, R163). -/
def readValue (v : Video) (r : Nibble) : Byte :=
  if r = 3 then readValue3 v else if r = 4 then readValue4 v else regAt v.regs r

/-- A register read: the chip drives the data lines and changes nothing of its own (R160, R166, R168). -/
def accessRead (r : Nibble) (s : State) : State :=
  let d := readValue s.video r
  record (.regRead r d) (setBus { s.host.bus with data := d } s)

/-- A register write: the byte is stored and every derived field recomputed at once (R164, R170, R176). -/
def accessWrite (r : Nibble) (d : Byte) (s : State) : State :=
  let regs := regSet s.video.regs r d
  { s with video := { s.video with regs := regs }, derived := derive s.cfg regs }

/-- `access(state, pv)` on the vector in the host's hand (R160). -/
def videoAccess (s : State) : State :=
  if s.host.bus.rw then accessRead (regIndex s.host.bus.addr) s
  else accessWrite (regIndex s.host.bus.addr) s.host.bus.data s

end Sys2Proof.Machine
end

