-- ==== Sys2Proof/Machine/VideoTick.lean ====
section
/-! DEFINITION. One tick of the raster engine (43_video_tick.md): pixel production, the horizontal transitions, the
fetch step, and the counters with the end-of-line cascade. -/

namespace Sys2Proof.Machine

/-! ### Pixel production -/

/-- A frame buffer is attached and the beam is in the visible window (R192). -/
def produces (s : State) : Bool :=
  s.display.fb.isSome && decide (s.display.vis.x0 ≤ s.video.crtX) && decide (s.video.crtX < s.display.vis.x1) &&
  decide (s.display.vis.y0 ≤ s.video.crtY) && decide (s.video.crtY < s.display.vis.y1)

/-- The index of the burst's first pixel in the frame buffer (R193). -/
def pixelIndex (vis : Window) (crtX crtY : Nat) : Nat :=
  ((crtY - vis.y0) * (vis.x1 - vis.x0) + (crtX - vis.x0)) * 4

/-- The foreground colour (R196). -/
def foreground (s : State) : Rgba := paletteColor s.cfg (s.video.color &&& 7)

/-- Pixel `i` of a burst outside the border, from bit `7 - i` of the shifter (R195). -/
def videoPixel (s : State) (i : Nat) : Rgba :=
  if s.video.shift.getLsbD (7 - i) then foreground s else s.derived.bgColor

/-- The burst's 4 pixels, leftmost first (R194, R195). -/
def burst (s : State) : List Rgba :=
  if s.video.border.h || s.video.border.v then List.replicate 4 s.derived.borderColor
  else [videoPixel s 0, videoPixel s 1, videoPixel s 2, videoPixel s 3]

/-- Replace the video chip's registers, counters and latches. -/
def setVideo (v : Video) (s : State) : State := { s with video := v }

/-- The place in the host's frame memory of the pixel with this index of the attached buffer (R39, R63). -/
def pixelPlace (fb : Option FrameBuffer) (index : Nat) : Nat :=
  match fb with
  | none => index
  | some b => b.base + index

/-- The place of the burst's first pixel (R193). -/
def burstPlace (s : State) : Nat :=
  pixelPlace s.display.fb (pixelIndex s.display.vis s.video.crtX s.video.crtY)

/-- Write the burst to the attached frame buffer, its index as R193 gives it. -/
def writeBurst (s : State) : State :=
  { s with host := { s.host with frame := Memory.writeList s.host.frame (burstPlace s) (burst s) } }

/-- Pixel production (R192 to R197): write the burst, then shift; or nothing at all. -/
def pixelProduction (s : State) : State :=
  if produces s then setVideo { s.video with shift := s.video.shift <<< 4 } (writeBurst s) else s

/-! ### Horizontal transitions -/

/-- At `h = border.left`: fetching is re-enabled and the counter reloads (R200). -/
def atLeft (d : Derived) (v : Video) : Video :=
  if v.h = d.left then { v with disable := { v.disable with h := false }, vc := v.vcBase } else v

/-- At `h = border.left + 1`: the horizontal border flag clears (R201). -/
def afterLeft (d : Derived) (v : Video) : Video :=
  if v.h = d.left + 1 then { v with border := { v.border with h := false } } else v

/-- At `h = border.right + 1`: the border flag sets and fetching is disabled (R202). -/
def afterRight (d : Derived) (v : Video) : Video :=
  if v.h = d.right + 1 then
    { v with border := { v.border with h := true }, disable := { v.disable with h := true } }
  else v

/-- The three tests, independent and in this order (R199). -/
def transitions (d : Derived) (v : Video) : Video := afterRight d (afterLeft d (atLeft d v))

/-- The horizontal transitions of this tick (R199 to R202). -/
def borderTransitions (s : State) : State := setVideo (transitions s.derived s.video) s

/-! ### Fetch sequencing -/

/-- Both disable bits are clear (R203). -/
def fetching (v : Video) : Bool := !v.disable.h && !v.disable.v

/-- The place of word `a` of fetch callback `k` in the host's video memory: 2^16 words for each callback (R61, log entry
17). -/
def wordPlace (k : Nat) (a : Addr) : Nat := 65536 * k + a.toNat

/-- What the stored `VFetch` returns now for `a`: what the host has queued for this fetch, else the word of that
callback's video memory (R61, R234). -/
def fetchValue (s : State) (a : Addr) : Word16 :=
  match s.host.fetches with
  | some w :: _ => w
  | _ => s.host.vmem.read (wordPlace s.display.fetch a)

/-- The state after a call of `VFetch(a)`: the host's queue advances and the fetch is observed (R11). -/
def afterFetch (a : Addr) (s : State) : State :=
  record (.fetched a (fetchValue s a)) { s with host := { s.host with fetches := s.host.fetches.tail } }

/-- The address of this fetch: a c-access at an even counter, a g-access at an odd one (R204, R205). -/
def fetchAddr (d : Derived) (v : Video) : Addr :=
  if v.vc.getLsbD 0 then graphicsAddr d.graphicsBase v.cValue d.rowHeight v.rc else charAddr d.charBase v.vc

/-- The c-access keeps all 16 bits (R204). -/
def charLoad (w : Word16) (v : Video) : Video := { v with cValue := w }

/-- The g-access loads the shifter and takes the colour nibble from the cached word (R205). -/
def graphicsLoad (colorShift : Nat) (w : Word16) (v : Video) : Video :=
  { v with shift := w.setWidth 8, color := colorNibble colorShift v.cValue }

/-- `vc <- (vc + 1) & 0x7FF` (R206). -/
def stepVc (v : Video) : Video := { v with vc := v.vc + 1 }

/-- What a fetch that returns `w` does to the chip (R204 to R206). -/
def fetchLoad (colorShift : Nat) (w : Word16) (v : Video) : Video :=
  stepVc (if v.vc.getLsbD 0 then graphicsLoad colorShift w v else charLoad w v)

/-- The fetch step (R203 to R206). -/
def fetchStep (s : State) : State :=
  if fetching s.video then
    let a := fetchAddr s.derived s.video
    setVideo (fetchLoad s.cfg.colorShift (fetchValue s a) s.video) (afterFetch a s)
  else s

/-! ### Counters and the end of a line -/

/-- `v <- v + 1; rc <- rc + 1`, and the row end when `rc`, before it is reduced to 4 bits, reaches `rowHeight` (R210,
R211, R215). -/
def rowStep (rh : RowHeight) (v : Video) : Video :=
  if v.rc.toNat + 1 = rowLines rh then
    { v with v := v.v + 1, rc := 0, rowCount := v.rowCount + 1, vcBase := v.vc &&& 0x7FE }
  else { v with v := v.v + 1, rc := v.rc + 1 }

/-- The beam: `crt.x <- 0`; `crt.y` is 0 at the retrace line, else one more (R212). -/
def beamStep (retraceLine : Nat) (v : Video) : Video :=
  { v with crtX := 0, crtY := if v.v = retraceLine then 0 else v.crtY + 1 }

/-- The top threshold opens the display and restarts the frame's counters (R213). -/
def topStep (top : Nat) (v : Video) : Video :=
  if v.v = top then
    { v with border := { v.border with v := false }, disable := { v.disable with v := false },
             vc := 0, vcBase := 0, rowCount := 0, rc := 0 }
  else v

/-- The bottom threshold closes the display (R214). -/
def bottomStep (bottom : Nat) (v : Video) : Video :=
  if v.v = bottom then
    { v with border := { v.border with v := true }, disable := { v.disable with v := true } }
  else v

/-- The vertical wrap (R221). -/
def wrapStep (totalLines : Nat) (v : Video) : Video := if v.v = totalLines then { v with v := 0 } else v

/-- The end-of-line cascade, in the order the source lists its steps (R209). -/
def endOfLine (c : Config) (d : Derived) (v : Video) : Video :=
  wrapStep c.totalLines (bottomStep d.bottom (topStep d.top (beamStep c.retraceLine (rowStep d.rowHeight v))))

/-- `h <- h + 1; crt.x <- crt.x + 1`, then the wrap of `h` with the cascade (R208). -/
def advance (c : Config) (d : Derived) (v : Video) : Video :=
  if v.h + 1 = c.totalColumns then endOfLine c d { v with h := 0, crtX := v.crtX + 1 }
  else { v with h := v.h + 1, crtX := v.crtX + 1 }

/-- The counters of this tick (R208 to R221). -/
def advanceCounters (s : State) : State := setVideo (advance s.cfg s.derived s.video) s

/-- `VTICK` (R190): the four parts in order; it returns false (R222). -/
def vtick (s : State) : State :=
  record (.ticked false) (advanceCounters (fetchStep (borderTransitions (pixelProduction s))))

end Sys2Proof.Machine
end

