-- ==== Sys2Proof/Machine/Ops.lean ====
section
/-! DEFINITION. The shared operations: the host's tick function with its arbiter (R231 to R233), the exchange (R115 to
R117), the stack push (R267), the interrupt entry and check (R262, R265 to R272), the opcode fetch (R131), and the resets
(R300, R301). -/

namespace Sys2Proof.Machine

/-- Replace the CPU's snapshot. -/
def setPins (p : Pins) (s : State) : State := { s with cpu := { s.cpu with pins := p } }

/-! ### The host's tick function -/

/-- `n` video ticks. -/
def videoTicks : Nat → State → State
  | 0, s => s
  | n + 1, s => videoTicks n (vtick s)

/-- The video ticks owed for one CPU tick (R233). -/
def owedTicks (s : State) : State := videoTicks s.cfg.ticksPerCpuTick s

/-- The host's memory serves the cycle: it drives the data lines on a read and takes them on a write (R60). -/
def memoryCycle (s : State) : State :=
  if s.host.bus.rw then setBus { s.host.bus with data := s.host.mem.read s.host.bus.addr.toNat } s
  else { s with host := { s.host with mem := s.host.mem.write s.host.bus.addr.toNat s.host.bus.data } }

/-- The arbiter: the video chip serves the cycle where `BusSelect` holds, and then memory does not (R231). -/
def serveCycle (s : State) : State :=
  if busSelect s.cfg s.host.bus.addr then videoAccess s else memoryCycle s

/-- The vector with the lines the host drives itself, at the vector's width (R118, R96). -/
def driveLines (c : Config) (r : Reply) (p : Pins) : Pins :=
  { addr := r.addr.getD p.addr, data := r.data.getD p.data, rw := r.rw.getD p.rw, sync := r.sync.getD p.sync,
    irq := r.irq.getD p.irq, nmi := r.nmi.getD p.nmi, other := (r.other.map (fitOther c)).getD p.other }

/-- The vector with the host's own drive for this exchange, if it has queued one (R118, log entry 6). -/
def replyPins (c : Config) (rs : List Reply) (p : Pins) : Pins :=
  match rs with
  | [] => p
  | r :: _ => driveLines c r p

/-- The host's memory after the changes it has queued for this exchange (R66, R230, log entry 6). -/
def replyMem (rs : List Reply) (m : Memory 8) : Memory 8 :=
  match rs with
  | [] => m
  | r :: _ => m.writeEach (r.mem.map fun x => (x.1.toNat, x.2))

/-- The host's video memory after the changes it has queued for this exchange (R230, log entry 6). -/
def replyVmem (rs : List Reply) (m : Memory 16) : Memory 16 :=
  match rs with
  | [] => m
  | r :: _ => m.writeEach r.vmem

/-- The host's own part of the exchange: its drive goes onto the vector in its hand, its changes into its memories, and
its queue advances. -/
def applyReply (s : State) : State :=
  { s with host := { s.host with
      bus := replyPins s.cfg s.host.replies s.host.bus
      mem := replyMem s.host.replies s.host.mem
      vmem := replyVmem s.host.replies s.host.vmem
      replies := s.host.replies.tail } }

/-- `HostTick` on the vector in the host's hand: the owed video ticks and the served cycle in the order `ARB_ORDER`
(R232), then what the host drives and changes itself. -/
def hostTick (s : State) : State :=
  match s.cfg.arbOrder with
  | .tickFirst => applyReply (serveCycle (owedTicks s))
  | .accessFirst => applyReply (owedTicks (serveCycle s))

/-! ### The exchange -/

/-- `Off(sync)` (R114). The engine makes it after the opcode fetch (R131), before each vector of an interrupt entry, before
each exchange of a handler that has not asserted `sync`, and at the loop test (R132, R266, log entry 31). -/
def syncDown (s : State) : State := setPins (linesOff [.sync] s.cpu.pins) s

/-- The chip's vector is handed to the host (R115). -/
def sendPins (s : State) : State := record (.sent s.cpu.pins) (setBus s.cpu.pins s)

/-- The whole returned vector becomes the snapshot, and a tick is counted (R115). -/
def takePins (s : State) : State :=
  record (.returned s.host.bus) { s with cpu := { s.cpu with pins := s.host.bus }, ticks := s.ticks + 1 }

/-- `Exchange()`: one tick (R115). -/
def exchange (s : State) : State := takePins (hostTick (sendPins s))

/-- `ReadExchange(a)`; the byte read is `GetData` of the result (R116). -/
def readExchange (a : Addr) (s : State) : State :=
  exchange (setPins (linesOn [.rw] (setAddr a s.cpu.pins)) s)

/-- `ReadExchangeHere()`: no address is set (R116, R266). -/
def readExchangeHere (s : State) : State := exchange (setPins (linesOn [.rw] s.cpu.pins) s)

/-- `WriteExchange(a, d)` (R117). -/
def writeExchange (a : Addr) (d : Byte) (s : State) : State :=
  exchange (setPins (linesOff [.rw] (setAddrData a d s.cpu.pins)) s)

/-- `SP <- (SP - 1) mod 2^8` (R267). -/
def decSp (s : State) : State := { s with cpu := { s.cpu with sp := s.cpu.sp - 1 } }

/-- `Push(b)`: the write uses `SP` before the decrement (R267). -/
def push (b : Byte) (s : State) : State := decSp (writeExchange (stackAddr s.cpu.sp) b s)

/-! ### Interrupt entry -/

/-- Entry exchanges 1 to 4: the throwaway read, then `PC` high, `PC` low and the status with `B` clear (R266 to
R269), each with `sync` 0 (R132). -/
def entrySave (s : State) : State :=
  let s1 := readExchangeHere (syncDown s)
  let s2 := push (pcHigh s1.cpu.pc) (syncDown s1)
  let s3 := push (pcLow s2.cpu.pc) (syncDown s2)
  push (pushedStatus s3.cfg s3.cpu.p) (syncDown s3)

/-- Load and mask, then clear both lines (R271, R272). -/
def entryFinish (lo hi : Byte) (s : State) : State :=
  { s with cpu := { s.cpu with pc := hi ++ lo, p := setI s.cfg s.cpu.p,
                               pins := linesOff [.irq, .nmi] s.cpu.pins } }

/-- Entry exchanges 5 and 6, and the load: the vector is chosen once, by `nmi` after the third push (R270); both reads have `sync` 0
(R132). -/
def entryVector (s : State) : State :=
  let v := vectorLocation s
  let s5 := readExchange v (syncDown s)
  let s6 := readExchange (v + 1) (syncDown s5)
  entryFinish (getData s5.cpu.pins) (getData s6.cpu.pins) s6

/-- `INTSEQ`, taking an interrupt (R265). -/
def interruptEntry (s : State) : State := entryVector (entrySave s)

/-- `INTCHK` (R262). -/
def interruptCheck (s : State) : State := if takeInterrupt s then interruptEntry s else s

/-! ### The opcode fetch -/

/-- `OPFETCH` (R131); the opcode byte is `GetData` of the result. -/
def opcodeFetch (s : State) : State :=
  let s1 := setPins (setAddr s.cpu.pc s.cpu.pins) s
  let s2 := { s1 with cpu := { s1.cpu with pc := s1.cpu.pc + 1 } }
  let s3 := setPins (linesOn [.rw] (linesOn [.sync] s2.cpu.pins)) s2
  syncDown (exchange s3)

/-! ### Resets -/

/-- `CRESET`: `CPU_RESET`, with `PC` the word the host holds at `RESET_VECTOR`; no exchange, `breakMask` kept (R300,
R50). -/
def cpuReset (s : State) : State :=
  let r := s.cfg.cpuReset
  { s with
    cpu := { pc := wordAt s.host.mem s.cfg.resetVector, sp := r.sp, a := r.a, x := r.x, y := r.y, p := r.p,
             breakMask := s.cpu.breakMask, pins := r.pins }
    ticks := 0 }

/-- `VRESET`: `VIDEO_RESET`, the derived fields those of its registers; the configuration is kept (R301, R51). -/
def videoReset (s : State) : State :=
  { s with video := s.cfg.videoReset, derived := derive s.cfg s.cfg.videoReset.regs }

end Sys2Proof.Machine
end

