-- ==== Sys2Proof/Machine/Boundary.lean ====
section
/-! DEFINITION. The boundary operations of the two chips (44_host_interfaces.md, 70_reset_and_hazards.md) and the two
queries. -/

namespace Sys2Proof.Machine

/-- `VTICK` (R190). -/
def execVtick (s : State) : Result := .next (vtick s)

/-- The window in beam units (R106). -/
def windowOf (c : VideoConfig) : Window :=
  { x0 := c.originX / 4, x1 := (c.originX + c.width) / 4, y0 := c.originY, y1 := c.originY + c.height }

/-- `VFetch` as a configuration gives it; `VINIT` stores it for an accepted one alone, which gives it (R235 check 1). -/
def fetchOf (c : VideoConfig) : Nat := c.fetch.getD 0

/-- Store the configuration, then what `VRESET` does (R234, R301). -/
def videoInit (c : VideoConfig) (s : State) : State :=
  videoReset { s with display := { fb := c.fb, vis := windowOf c, fetch := fetchOf c } }

/-- `VINIT cfg`: the checks in the order R235 lists them, then R281's; a bad configuration is refused. -/
def execVinit (c : VideoConfig) (s : State) : Result :=
  if !c.fetchPresent then .refused .noFetchCallback
  else if !c.bufferLargeEnough then .refused .frameBufferTooSmall
  else if !c.windowAligned then .refused .windowNotAligned
  else if !c.debugOff then .refused .debugVisualisation
  else .next (videoInit c s)

/-- `VRESET` (R236, R301). -/
def execVreset (s : State) : Result := .next (videoReset s)

/-- `CINIT`: `breakMask` is 0, then what `CRESET` does (R300). -/
def execCinit (s : State) : Result := .next (cpuReset { s with cpu := { s.cpu with breakMask := 0 } })

/-- `CRESET` (R300). -/
def execCreset (s : State) : Result := .next (cpuReset s)

/-- `video.displayWidth`, in pixels (R237). -/
def displayWidth (s : State) : Nat := 4 * (s.display.vis.x1 - s.display.vis.x0)

/-- `video.displayHeight`, in lines (R237). -/
def displayHeight (s : State) : Nat := s.display.vis.y1 - s.display.vis.y0

end Sys2Proof.Machine
end

