-- ==== Sys2Proof/Machine/Bus.lean ====
section
/-! DEFINITION. The pin-bus operations that have a row: `XCHG`, `RD`, `WR` (40_pin_bus.md). -/

namespace Sys2Proof.Machine

/-- `XCHG` (R115). -/
def execXchg (s : State) : Result := .next (exchange s)

/-- `RD a` (R116). -/
def execRd (a : Addr) (s : State) : Result := .next (readExchange a s)

/-- `WR a, d` (R117). -/
def execWr (a : Addr) (d : Byte) (s : State) : Result := .next (writeExchange a d s)

end Sys2Proof.Machine
end

