-- ==== Sys2Proof/Machine/Handlers.lean ====
section
/-! DEFINITION. Running a handler (R133, R134): one given as a program of micro-operations, and one of which only the
contract is known. Both talk to the host through exchanges alone and leave `breakMask` as it is. -/

namespace Sys2Proof.Machine

/-- Replace the CPU's registers and snapshot. -/
def setCpu (c : Cpu) (s : State) : State := { s with cpu := c }

/-- The temporaries after a micro-operation, and whether the program has asserted `sync`. -/
def microLocals (m : Micro) (l : Locals) (c : Cpu) : Locals :=
  match m with
  | .set r e => hregSetLocals l (hexprValue l c e) r
  | .on ls => { l with syncUp := l.syncUp || decide (.sync ∈ ls) }
  | .off ls => { l with syncUp := l.syncUp && !decide (.sync ∈ ls) }
  | .setAddr _ | .setAddrData _ _ | .exchange => l

/-- One micro-operation (R111, R112, R114, R115, R134 item 3). `On` and `Off` reach the lines that the vector has (R96).
An exchange sends `sync` 0 unless the program has asserted it (R132, log entry 31).
DESIGN CHOICE, log entry 30: a handler may name `irq` and `nmi` too, as R114 and R134 item 3 allow; R261 leaves it open. -/
def runMicro (m : Micro) (l : Locals) (s : State) : State :=
  match m with
  | .set r e => setCpu (hregSetCpu s.cpu (hexprValue l s.cpu e) r) s
  | .setAddr e => setPins (setAddr (hexprValue l s.cpu e) s.cpu.pins) s
  | .setAddrData a d =>
    setPins (setAddrData (hexprValue l s.cpu a) ((hexprValue l s.cpu d).setWidth 8) s.cpu.pins) s
  | .on ls => setPins (linesOn (ls.filter (lineExists s.cfg)) s.cpu.pins) s
  | .off ls => setPins (linesOff (ls.filter (lineExists s.cfg)) s.cpu.pins) s
  | .exchange => exchange (if l.syncUp then s else syncDown s)

/-- Run a program from these temporaries. A branch is taken where its condition is not 0. -/
def runProgram : Handler → Locals → State → State
  | .done, _, s => s
  | .step m k, l, s => runProgram k (microLocals m l s.cpu) (runMicro m l s)
  | .branch c t e, l, s => if hexprValue l s.cpu c ≠ 0 then runProgram t l s else runProgram e l s

/-- A handler's temporaries at its start. -/
def freshLocals : Locals := { tmp := Vector.replicate 4 0, syncUp := false }

/-- Run the external handler of byte `b`, entered with registers `r` and snapshot `p`: at most `fuel` moves, `seen` the
vectors the host has returned to it, newest first. Each move sets registers and snapshot, any line of it (log entry 30; a
`sync` of 1 is the handler's own assertion, R132), and then makes an exchange or ends the handler. -/
def runExternal (b : Byte) (r : CpuRegs) (p : Pins) : Nat → List Pins → State → State
  | 0, _, s => s
  | fuel + 1, seen, s =>
    let m := Config.freeHandlerMove b r p seen
    let t := setCpu (withRegs s.cpu m.regs (fitPins s.cfg m.pins)) s
    if m.last then t
    else
      let u := exchange t
      runExternal b r p fuel (u.cpu.pins :: seen) u

/-- The external handler of byte `b`, from its own bound on its moves. -/
def runExternalHandler (b : Byte) (s : State) : State :=
  let r := cpuRegs s.cpu
  let p := s.cpu.pins
  runExternal b r p (Config.freeHandlerBound b r p) [] s

/-- `Dispatch(op)()` (R133): the handler's effect, or the refusal that names a byte without one (R93). -/
def dispatch (b : Byte) (s : State) : Result :=
  match lookup s.cfg.dispatch b with
  | .absent => .refused (.noHandler b)
  | .external => .next (runExternalHandler b s)
  | .program h => .next (runProgram h freshLocals s)

end Sys2Proof.Machine
end

