-- ==== Sys2Proof/Machine/Engine.lean ====
section
/-! DEFINITION. The CPU engine's operations (41_cpu_engine.md, 60_exceptions.md): `OP`, `OPFETCH`, `INTCHK`, `INTSEQ` and
the burst `EXEC`. -/

namespace Sys2Proof.Machine

/-- `OP b`: the handler of byte `b` (R133). -/
def execOp (b : Byte) (s : State) : Result := dispatch b s

/-- `OPFETCH` (R131). -/
def execOpfetch (s : State) : Result := .next (opcodeFetch s)

/-- `INTCHK` (R262). -/
def execIntchk (s : State) : Result := .next (interruptCheck s)

/-- `INTSEQ` (R265). -/
def execIntseq (s : State) : Result := .next (interruptEntry s)

/-- One instruction step: opcode fetch, handler, interrupt check (R130 steps 1 to 3). -/
def instructionStep (s : State) : Result :=
  let t := opcodeFetch s
  match execOp (getData t.cpu.pins) t with
  | .next u => .next (interruptCheck u)
  | .fault f => .fault f
  | .refused r => .refused r

/-- The loop test: go on while the budget is not reached and no configured bit is high (R136). -/
def continues (n : Nat) (s : State) : Bool :=
  decide (s.ticks < n) && !breakMatches s.cfg s.cpu.pins s.cpu.breakMask

/-- The loop of `execute` with budget `n`, tested after each instruction step, `sync` being 0 in the snapshot (R132). Every step takes a tick, so `n + 1` of
fuel is never used up (R130, R137). -/
def runBurst (n : Nat) : Nat → State → Result
  | 0, s => .next s
  | fuel + 1, s =>
    match instructionStep s with
    | .next t =>
      let u := syncDown t
      if continues n u then runBurst n fuel u else .next u
    | .fault f => .fault f
    | .refused r => .refused r

/-- `EXEC n`: `ticks` starts at 0 and is the result (R137). -/
def execExec (n : Nat) (s : State) : Result :=
  match runBurst n (n + 1) { s with ticks := 0 } with
  | .next t => .next (record (.executed t.ticks) t)
  | .fault f => .fault f
  | .refused r => .refused r

end Sys2Proof.Machine
end

