-- ==== Sys2Proof/Machine/VideoRegs.lean ====
section
/-! DEFINITION. The register operations of the video chip, one per row (42_video_access.md), on the vector in the host's
hand. -/

namespace Sys2Proof.Machine

/-- `VRD0` (R161). -/
def execVrd0 (s : State) : Result := .next (accessRead 0 s)

/-- `VRD1` (R161). -/
def execVrd1 (s : State) : Result := .next (accessRead 1 s)

/-- `VRD2` (R161). -/
def execVrd2 (s : State) : Result := .next (accessRead 2 s)

/-- `VRD3` (R162). -/
def execVrd3 (s : State) : Result := .next (accessRead 3 s)

/-- `VRD4` (R163). -/
def execVrd4 (s : State) : Result := .next (accessRead 4 s)

/-- `VRD5` (R161). -/
def execVrd5 (s : State) : Result := .next (accessRead 5 s)

/-- `VRD6` (R161). -/
def execVrd6 (s : State) : Result := .next (accessRead 6 s)

/-- `VRD7` (R161). -/
def execVrd7 (s : State) : Result := .next (accessRead 7 s)

/-- `VRD8` (R161). -/
def execVrd8 (s : State) : Result := .next (accessRead 8 s)

/-- `VRD9` (R161). -/
def execVrd9 (s : State) : Result := .next (accessRead 9 s)

/-- `VRD10` (R161). -/
def execVrd10 (s : State) : Result := .next (accessRead 10 s)

/-- `VRD11` (R161). -/
def execVrd11 (s : State) : Result := .next (accessRead 11 s)

/-- `VRD12` (R161). -/
def execVrd12 (s : State) : Result := .next (accessRead 12 s)

/-- `VRD13` (R161). -/
def execVrd13 (s : State) : Result := .next (accessRead 13 s)

/-- `VRD14` (R161). -/
def execVrd14 (s : State) : Result := .next (accessRead 14 s)

/-- `VRD15` (R161). -/
def execVrd15 (s : State) : Result := .next (accessRead 15 s)

/-- `VWR0 d` (R164). -/
def execVwr0 (d : Byte) (s : State) : Result := .next (accessWrite 0 d s)

/-- `VWR1 d` (R164). -/
def execVwr1 (d : Byte) (s : State) : Result := .next (accessWrite 1 d s)

/-- `VWR2 d` (R164). -/
def execVwr2 (d : Byte) (s : State) : Result := .next (accessWrite 2 d s)

/-- `VWR3 d` (R164). -/
def execVwr3 (d : Byte) (s : State) : Result := .next (accessWrite 3 d s)

/-- `VWR4 d` (R164). -/
def execVwr4 (d : Byte) (s : State) : Result := .next (accessWrite 4 d s)

/-- `VWR5 d` (R164). -/
def execVwr5 (d : Byte) (s : State) : Result := .next (accessWrite 5 d s)

/-- `VWR6 d` (R164). -/
def execVwr6 (d : Byte) (s : State) : Result := .next (accessWrite 6 d s)

/-- `VWR7 d` (R164). -/
def execVwr7 (d : Byte) (s : State) : Result := .next (accessWrite 7 d s)

/-- `VWR8 d` (R164). -/
def execVwr8 (d : Byte) (s : State) : Result := .next (accessWrite 8 d s)

/-- `VWR9 d` (R164). -/
def execVwr9 (d : Byte) (s : State) : Result := .next (accessWrite 9 d s)

/-- `VWR10 d` (R164). -/
def execVwr10 (d : Byte) (s : State) : Result := .next (accessWrite 10 d s)

/-- `VWR11 d` (R164). -/
def execVwr11 (d : Byte) (s : State) : Result := .next (accessWrite 11 d s)

/-- `VWR12 d` (R164). -/
def execVwr12 (d : Byte) (s : State) : Result := .next (accessWrite 12 d s)

/-- `VWR13 d` (R164). -/
def execVwr13 (d : Byte) (s : State) : Result := .next (accessWrite 13 d s)

/-- `VWR14 d` (R164). -/
def execVwr14 (d : Byte) (s : State) : Result := .next (accessWrite 14 d s)

/-- `VWR15 d` (R164). -/
def execVwr15 (d : Byte) (s : State) : Result := .next (accessWrite 15 d s)

end Sys2Proof.Machine
end

