-- ==== Sys2Proof/Machine/Dispatch.lean ====
section
/-! DEFINITION. One arm per constructor of `Instr`, each one call of its meaning. -/

namespace Sys2Proof.Machine

def exec (i : Instr) (s : State) : Host.Outcome State Fault Refusal :=
  match i with
  | .op b => Sys2Proof.Machine.execOp b s
  | .vrd0 => Sys2Proof.Machine.execVrd0 s
  | .vrd1 => Sys2Proof.Machine.execVrd1 s
  | .vrd2 => Sys2Proof.Machine.execVrd2 s
  | .vrd3 => Sys2Proof.Machine.execVrd3 s
  | .vrd4 => Sys2Proof.Machine.execVrd4 s
  | .vrd5 => Sys2Proof.Machine.execVrd5 s
  | .vrd6 => Sys2Proof.Machine.execVrd6 s
  | .vrd7 => Sys2Proof.Machine.execVrd7 s
  | .vrd8 => Sys2Proof.Machine.execVrd8 s
  | .vrd9 => Sys2Proof.Machine.execVrd9 s
  | .vrd10 => Sys2Proof.Machine.execVrd10 s
  | .vrd11 => Sys2Proof.Machine.execVrd11 s
  | .vrd12 => Sys2Proof.Machine.execVrd12 s
  | .vrd13 => Sys2Proof.Machine.execVrd13 s
  | .vrd14 => Sys2Proof.Machine.execVrd14 s
  | .vrd15 => Sys2Proof.Machine.execVrd15 s
  | .vwr0 d => Sys2Proof.Machine.execVwr0 d s
  | .vwr1 d => Sys2Proof.Machine.execVwr1 d s
  | .vwr2 d => Sys2Proof.Machine.execVwr2 d s
  | .vwr3 d => Sys2Proof.Machine.execVwr3 d s
  | .vwr4 d => Sys2Proof.Machine.execVwr4 d s
  | .vwr5 d => Sys2Proof.Machine.execVwr5 d s
  | .vwr6 d => Sys2Proof.Machine.execVwr6 d s
  | .vwr7 d => Sys2Proof.Machine.execVwr7 d s
  | .vwr8 d => Sys2Proof.Machine.execVwr8 d s
  | .vwr9 d => Sys2Proof.Machine.execVwr9 d s
  | .vwr10 d => Sys2Proof.Machine.execVwr10 d s
  | .vwr11 d => Sys2Proof.Machine.execVwr11 d s
  | .vwr12 d => Sys2Proof.Machine.execVwr12 d s
  | .vwr13 d => Sys2Proof.Machine.execVwr13 d s
  | .vwr14 d => Sys2Proof.Machine.execVwr14 d s
  | .vwr15 d => Sys2Proof.Machine.execVwr15 d s
  | .opfetch => Sys2Proof.Machine.execOpfetch s
  | .intchk => Sys2Proof.Machine.execIntchk s
  | .intseq => Sys2Proof.Machine.execIntseq s
  | .exec n => Sys2Proof.Machine.execExec n s
  | .xchg => Sys2Proof.Machine.execXchg s
  | .rd a => Sys2Proof.Machine.execRd a s
  | .wr a d => Sys2Proof.Machine.execWr a d s
  | .vtick => Sys2Proof.Machine.execVtick s
  | .vinit c => Sys2Proof.Machine.execVinit c s
  | .vreset => Sys2Proof.Machine.execVreset s
  | .cinit => Sys2Proof.Machine.execCinit s
  | .creset => Sys2Proof.Machine.execCreset s

end Sys2Proof.Machine
end

