-- ==== Sys2Proof/Machine/Fetch.lean ====
section
/-! DEFINITION. Where the next step comes from: a call the host has queued, else the opcode at `PC` (log entry 13); and
how an instruction is placed there. -/

namespace Sys2Proof.Machine

/-- The next step: a move of the host alone, an operation to run, or an opcode's operation, which the interrupt check
follows (R135). -/
inductive Fetched where
  | moved (s : State)
  | called (i : Instr) (s : State)
  | opcode (i : Instr) (s : State)

/-- A move of the host (R230). A vector and a mask have `PIN_BITS` bits (R96, R97). -/
def runCall (c : Call) (s : State) : Fetched :=
  match c with
  | .access p => .called (decodePins p) (setBus (fitPins s.cfg p) s)
  | .run i => .called i s
  | .setPins p => .moved (setPins (fitPins s.cfg p) s)
  | .setBreakMask m => .moved { s with cpu := { s.cpu with breakMask := m % 2 ^ s.cfg.pinBits } }
  | .setPc a => .moved { s with cpu := { s.cpu with pc := a } }
  | .pokeMem a b => .moved { s with host := { s.host with mem := s.host.mem.write a.toNat b } }
  | .pokeVideo a w => .moved { s with host := { s.host with vmem := s.host.vmem.write a w } }

/-- Fetch: the oldest queued call, else the opcode fetch and the decoding of the byte it returned (R131, R133). -/
def fetchNext (s : State) : Fetched :=
  match s.host.calls with
  | c :: cs => runCall c { s with host := { s.host with calls := cs } }
  | [] =>
    let t := opcodeFetch s
    .opcode (decodeOp (getData t.cpu.pins)) t

/-- What follows an opcode's operation (R135). -/
def afterOpcode (s : State) : State := interruptCheck s

/-- A register cycle with pattern `pat` and data lines `d`, at an address that `BusSelect` accepts where it does not
test the four index lines (R231). -/
def cyclePins (c : Config) (p : Pins) (pat : BitVec 5) (d : Byte) : Pins :=
  { p with addr := (c.busPattern &&& 0xFFF0) ||| (pat.setWidth 4).setWidth 16, data := d, rw := pat.getLsbD 4 }

/-- A reply that drives no line and changes no memory. -/
def quietReply : Reply :=
  { addr := none, data := none, rw := none, sync := none, irq := none, nmi := none, other := none, mem := [], vmem := [] }

/-- The host's next reply drives byte `b` on the data lines, whatever else it does. -/
def replyData (b : Byte) : List Reply → List Reply
  | [] => [{ quietReply with data := some b }]
  | r :: rs => { r with data := some b } :: rs

/-- The next fetch is answered by memory alone: `PC` is no register of the video chip and the host drives no data. -/
def memoryAnswers (s : State) : Bool :=
  !busSelect s.cfg s.cpu.pc && (match s.host.replies with | [] => true | r :: _ => r.data.isNone)

/-- Place opcode byte `b` where the next opcode fetch finds it. -/
def placeOpcode (b : Byte) (s : State) : State :=
  let t := { s with host := { s.host with calls := [], mem := s.host.mem.write s.cpu.pc.toNat b } }
  if memoryAnswers s then t else { t with host := { t.host with replies := replyData b t.host.replies } }

/-- Place a register cycle as the host's next call. -/
def placeCycle (pat : BitVec 5) (d : Byte) (s : State) : State :=
  { s with host := { s.host with calls := .access (cyclePins s.cfg s.host.bus pat d) :: s.host.calls } }

/-- Place a word of the opcode table (log entry 14). -/
def placeWord (nbits w : Nat) (s : State) : State :=
  match tableChannel nbits w with
  | .fetch => placeOpcode (BitVec.ofNat 8 w) s
  | .bus => placeCycle (BitVec.ofNat 5 w) (BitVec.ofNat 8 (w / 256)) s

end Sys2Proof.Machine
end

