-- ==== Sys2Proof/Machine/Step.lean ====
section
/-! DEFINITION. One step of the machine, and the placing of an instruction for the next one. -/

namespace Sys2Proof.Machine

/-- One step: a move of the host, an operation the host calls, or one CPU instruction step (R11, R130, log entry 13). -/
def step (s : State) : Host.Outcome State Fault Refusal :=
  match fetchNext s with
  | .moved t => .next t
  | .called i t => exec i t
  | .opcode i t =>
    match exec i t with
    | .next u => .next (afterOpcode u)
    | .fault f => .fault f
    | .refused r => .refused r

/-- `s` with a word of the opcode table placed where `step` takes its next instruction from (log entry 14). -/
def State.withFetchWord (s : State) (nbits w : Nat) : State := placeWord nbits w s

end Sys2Proof.Machine
end

