-- ==== Sys2Proof/Safety.lean ====
section
/-! DEFINITION. What claims are stated in: what the host observes of the exchanges (R11), the invariants of the state,
and what a frame keeps. -/

namespace Sys2Proof.Safety

open Sys2Proof.Machine

/-! ### Observations -/

/-- The vectors handed to `HostTick`, oldest first (R11). -/
def sentVectors : List Event → List Pins
  | [] => []
  | .sent p :: tr => sentVectors tr ++ [p]
  | _ :: tr => sentVectors tr

/-- The vectors `HostTick` returned, oldest first (R11). -/
def returnedVectors : List Event → List Pins
  | [] => []
  | .returned p :: tr => returnedVectors tr ++ [p]
  | _ :: tr => returnedVectors tr

/-- The addresses of the video chip's fetches, oldest first (R11). -/
def fetchedAddrs : List Event → List Addr
  | [] => []
  | .fetched a _ :: tr => fetchedAddrs tr ++ [a]
  | _ :: tr => fetchedAddrs tr

/-! ### Invariants -/

/-- The three memories are in canonical form, and the CPU bus space lists no address outside its 2^16. -/
def MemoryCanonical (s : State) : Prop :=
  s.host.mem.wf = true ∧ s.host.mem.below 65536 = true ∧ s.host.vmem.wf = true ∧ s.host.frame.wf = true

/-- The derived fields are `Derive` of the registers (R35). -/
def DerivedCurrent (s : State) : Prop := s.derived = derive s.cfg s.video.regs

/-- The parameters meet R5 and the raster counters are in their ranges (R34, R221). -/
def RasterInRange (s : State) : Prop :=
  configWf s.cfg = true ∧ s.video.h < s.cfg.totalColumns ∧ s.video.v < s.cfg.totalLines

/-- The parameters meet R5 and the row base is even (R34, R211). -/
def RowBaseEven (s : State) : Prop := configWf s.cfg = true ∧ s.video.vcBase.getLsbD 0 = false

/-- An attached frame buffer holds every pixel of the visible window (R235 check 2, R193). -/
def WindowFits (s : State) : Prop :=
  ∀ b, s.display.fb = some b →
    (s.display.vis.y1 - s.display.vis.y0) * (s.display.vis.x1 - s.display.vis.x0) * 4 ≤ b.capacity

/-- The parameters meet R5, and the snapshot, the vector in the host's hand and the break mask have the width `PIN_BITS`
(R96, R97). -/
def VectorsFit (s : State) : Prop :=
  configWf s.cfg = true ∧ s.cpu.pins.other < 2 ^ otherLines s.cfg ∧ s.host.bus.other < 2 ^ otherLines s.cfg ∧
  s.cpu.breakMask < 2 ^ s.cfg.pinBits

/-- Every opcode byte has a handler (R303: a `Dispatch` table is provided). -/
def EveryByteHandled (s : State) : Prop := ∀ b, lookup s.cfg.dispatch b ≠ .absent

/-! ### Frames -/

/-- The CPU's registers and its break mask are unchanged. -/
def CpuRegsKept (s t : State) : Prop :=
  t.cpu.pc = s.cpu.pc ∧ t.cpu.sp = s.cpu.sp ∧ t.cpu.a = s.cpu.a ∧ t.cpu.x = s.cpu.x ∧ t.cpu.y = s.cpu.y ∧
  t.cpu.p = s.cpu.p ∧ t.cpu.breakMask = s.cpu.breakMask

/-- Every byte of CPU memory and every word of video memory reads as before. -/
def MemoryKept (s t : State) : Prop :=
  (∀ a, t.host.mem.read a = s.host.mem.read a) ∧ (∀ a, t.host.vmem.read a = s.host.vmem.read a)

/-- The parameters and the video configuration are unchanged (R21, R39). -/
def SettingsKept (s t : State) : Prop := t.cfg = s.cfg ∧ t.display = s.display

/-- The register file and the derived fields are unchanged (R33, R35). -/
def RegisterFileKept (s t : State) : Prop := t.video.regs = s.video.regs ∧ t.derived = s.derived

/-- The memory address a sent vector stores to: none for a read, and none where the video chip is selected (R231). -/
def storedAt (c : Config) (p : Pins) : Option Nat :=
  if p.rw || busSelect c p.addr then none else some p.addr.toNat

/-- The video register a sent vector stores to (R231, R160). -/
def registerAt (c : Config) (p : Pins) : Option Nibble :=
  if !p.rw && busSelect c p.addr then some (regIndex p.addr) else none

/-- None of these replies of the host changes the byte of memory at `a` (R230). -/
def repliesSpare (rs : List Reply) (a : Nat) : Prop := ∀ r ∈ rs, ∀ c ∈ r.mem, c.1.toNat ≠ a

/-- None of these replies of the host changes the word at place `a` of its video memory (R230). -/
def repliesSpareVideo (rs : List Reply) (a : Nat) : Prop := ∀ r ∈ rs, ∀ c ∈ r.vmem, c.1 ≠ a

/-- What `n` exchanges that store nothing leave of the host's memories: all but what its own replies to them change. -/
def MemorySpared (s t : State) (n : Nat) : Prop :=
  (∀ a, repliesSpare (s.host.replies.take n) a → t.host.mem.read a = s.host.mem.read a) ∧
  (∀ a, repliesSpareVideo (s.host.replies.take n) a → t.host.vmem.read a = s.host.vmem.read a)

/-- From `s` to `t` the host was handed the vectors `new`, one a tick, and took a reply for each from its queue; no byte of
memory and no video register changed but those the vectors store to, and what those replies change in the host's own
memories (log entry 6). -/
def Sent (s t : State) (new : List Pins) : Prop :=
  sentVectors t.trace = sentVectors s.trace ++ new ∧ t.ticks = s.ticks + new.length ∧
  t.host.replies = s.host.replies.drop new.length ∧
  (∀ a, (∀ p ∈ new, storedAt s.cfg p ≠ some a) → repliesSpare (s.host.replies.take new.length) a →
    t.host.mem.read a = s.host.mem.read a) ∧
  (∀ a, repliesSpareVideo (s.host.replies.take new.length) a → t.host.vmem.read a = s.host.vmem.read a) ∧
  (∀ r, (∀ p ∈ new, registerAt s.cfg p ≠ some r) → regAt t.video.regs r = regAt s.video.regs r)

/-- The boundary after `k` instruction steps from `s`, as the loop test finds it (R132), if none of them is refused
(R138). -/
def afterSteps : Nat → State → Option State
  | 0, s => some s
  | k + 1, s =>
    match instructionStep s with
    | .next t => afterSteps k (syncDown t)
    | _ => none

/-! ### The video tick in the state it starts from -/

/-- The tick ends a line: `h` is about to wrap (R208). -/
def LineEnds (s : State) : Prop := s.video.h + 1 = s.cfg.totalColumns

/-- The horizontal disable bit after this tick's transitions (R199, R200, R202). -/
def disabledH (s : State) : Bool :=
  if s.video.h = s.derived.right + 1 then true
  else if s.video.h = s.derived.left then false else s.video.disable.h

/-- The horizontal border bit after this tick's transitions (R199, R201, R202). -/
def borderedH (s : State) : Bool :=
  if s.video.h = s.derived.right + 1 then true
  else if s.video.h = s.derived.left + 1 then false else s.video.border.h

/-- This tick fetches: both disable bits are clear after the transitions (R203). -/
def fetchesNow (s : State) : Bool := !disabledH s && !s.video.disable.v

/-- The matrix counter this tick's fetch sees: reloaded at `h = border.left` (R200). -/
def counterNow (s : State) : VCount := if s.video.h = s.derived.left then s.video.vcBase else s.video.vc

/-- The shifter after this tick's pixel production (R192, R197). -/
def shiftNow (s : State) : Byte := if produces s then s.video.shift <<< 4 else s.video.shift

/-- The vector of the opcode fetch in this state (R131). -/
def fetchVector (s : State) : Pins := { s.cpu.pins with addr := s.cpu.pc, rw := true, sync := true }

end Sys2Proof.Safety
end

