-- ==== Sys2Proof/Certificates/Slice0/Obligations.lean ====
section
/-! DEFINITION. The statements for the provers, from the numbered rules of spec/. -/

open Sys2Proof Sys2Proof.Machine Sys2Proof.Safety

/-! ### Encodings -/

/-- 30_encoding.md sections 1 and 2: decoding an encoding, whatever follows it, gives the operation back. -/
def Obligations.DecodeOfEncode : Prop :=
  ∀ i c bs rest, encode i = some (c, bs) → decode c (bs ++ rest) = .ok (i, rest)

/-- 30_encoding.md sections 1 and 2: every opcode byte and every pattern of a register cycle decodes, and the encoder
gives the bits back. That a register cycle is spelled in two bytes, its pattern and its data lines, the second written as 0
for a read, is the model's choice (log entry 14). -/
def Obligations.EncodeOfDecode : Prop :=
  (∀ b rest, ∃ i, decode .fetch (b :: rest) = .ok (i, rest) ∧ encode i = some (.fetch, [b])) ∧
  (∀ (pat : BitVec 5) d rest, ∃ i, decode .bus (pat.setWidth 8 :: d :: rest) = .ok (i, rest) ∧
    encode i = some (.bus, [pat.setWidth 8, if pat.getLsbD 4 then 0 else d]))

/-- spec/opcode_table.json: some words of its rows `OP`, `VRD3`, `VRD4`, `VWR3` and `VWR15`. -/
def Obligations.SpecWordsDecode : Prop :=
  decode .fetch [0b11101010] = .ok (.op 0xEA, []) ∧ decode .bus [0b00010011, 0] = .ok (.vrd3, []) ∧
  decode .bus [0b00010100, 0] = .ok (.vrd4, []) ∧ decode .bus [0b00000011, 0x2F] = .ok (.vwr3 0x2F, []) ∧
  decode .bus [0b00001111, 0x1B] = .ok (.vwr15 0x1B, [])

/-- R95, R165: the register of a forwarded cycle is the address modulo 16 for every address, and the cycle is served. -/
def Obligations.RegisterIndexIsMasked : Prop :=
  (∀ s, exec (decodePins s.host.bus) s = .next
    (if s.host.bus.rw then accessRead (BitVec.ofNat 4 (s.host.bus.addr.toNat % 16)) s
     else accessWrite (BitVec.ofNat 4 (s.host.bus.addr.toNat % 16)) s.host.bus.data s)) ∧
  (∀ (p : Pins) (a b : Addr), a.toNat % 16 = b.toNat % 16 →
    decodePins { p with addr := a } = decodePins { p with addr := b })

/-! ### The step -/

/-- 41_cpu_engine.md section 1, log entry 13: with no host call queued a step is the opcode fetch, the meaning of what the
byte it brought decodes to, and the interrupt check. The byte is memory's at `PC`, the video register's where the arbiter
selects `PC` (44_host_interfaces.md section 2, its order D33), or what the host itself drives (log entry 6). -/
def Obligations.StepRunsOpcode : Prop :=
  ∀ s i b rest, s.host.calls = [] → b = getData (opcodeFetch s).cpu.pins →
    decode .fetch (b :: rest) = .ok (i, rest) →
    (step s = match exec i (opcodeFetch s) with
      | .next t => .next (interruptCheck t)
      | .fault f => .fault f
      | .refused r => .refused r) ∧
    (memoryAnswers s = true → b = s.host.mem.read s.cpu.pc.toNat) ∧
    (busSelect s.cfg s.cpu.pc = true → (∀ r ∈ s.host.replies.take 1, r.data = none) →
      b = readValue (match s.cfg.arbOrder with | .tickFirst => (opcodeFetch s).video | .accessFirst => s.video)
        (BitVec.ofNat 4 (s.cpu.pc.toNat % 16))) ∧
    (∀ r rs x, s.host.replies = r :: rs → r.data = some x → b = x)

/-- 44_host_interfaces.md section 1, log entry 13: a queued call of the host is what a step does: a forwarded register
cycle is decoded and run, an operation is run, and the host's own moves change what they name and nothing else. A vector
and a mask the host sets have `PIN_BITS` bits (log entry 11). -/
def Obligations.StepRunsHostCall : Prop :=
  ∀ (s : State) cs, let u := { s with host := { s.host with calls := cs } }
    (∀ p, step { s with host := { s.host with calls := .access p :: cs } } =
      exec (decodePins p)
        { u with host := { u.host with bus := { p with other := p.other % 2 ^ (s.cfg.pinBits - 28) } } }) ∧
    (∀ i, step { s with host := { s.host with calls := .run i :: cs } } = exec i u) ∧
    (∀ p, step { s with host := { s.host with calls := .setPins p :: cs } } =
      .next { u with cpu := { u.cpu with pins := { p with other := p.other % 2 ^ (s.cfg.pinBits - 28) } } }) ∧
    (∀ m, step { s with host := { s.host with calls := .setBreakMask m :: cs } } =
      .next { u with cpu := { u.cpu with breakMask := m % 2 ^ s.cfg.pinBits } }) ∧
    (∀ a, step { s with host := { s.host with calls := .setPc a :: cs } } =
      .next { u with cpu := { u.cpu with pc := a } }) ∧
    (∀ a b, step { s with host := { s.host with calls := .pokeMem a b :: cs } } =
      .next { u with host := { u.host with mem := u.host.mem.write a.toNat b } }) ∧
    (∀ a w, step { s with host := { s.host with calls := .pokeVideo a w :: cs } } =
      .next { u with host := { u.host with vmem := u.host.vmem.write a w } })

/-- Log entry 14: a word of the opcode table, placed, is what the very next step decodes and runs: a register cycle with
the word's pattern and data on the vector, or an opcode that the fetch brings. -/
def Obligations.PlacedWordRuns : Prop :=
  ∀ s nbits w i, MemoryCanonical s → decodeTableWord nbits w = some i →
    (tableChannel nbits w = .bus ∧ step (s.withFetchWord nbits w) = exec i { s with host := { s.host with
        bus := fitPins s.cfg (cyclePins s.cfg s.host.bus (BitVec.ofNat 5 w) (BitVec.ofNat 8 (w / 256))) } }) ∨
    (tableChannel nbits w = .fetch ∧
      step (s.withFetchWord nbits w) = match exec i (opcodeFetch (s.withFetchWord nbits w)) with
        | .next t => .next (interruptCheck t)
        | .fault f => .fault f
        | .refused r => .refused r)

/-! ### The CPU engine -/

/-- 41_cpu_engine.md section 2 (the wrap of `PC` is the spec's choice D5): the opcode fetch is one read exchange at `PC`
with `sync` up, `PC` goes up by one, and `sync` is down after it; no memory changes but by the host's own changes (log entry
6). -/
def Obligations.OpcodeFetchEffect : Prop :=
  ∀ s, ∃ t r, exec .opfetch s = .next t ∧
    t.cpu = { s.cpu with pc := s.cpu.pc + 1, pins := { r with sync := false } } ∧
    returnedVectors t.trace = returnedVectors s.trace ++ [r] ∧
    Sent s t [{ s.cpu.pins with addr := s.cpu.pc, rw := true, sync := true }] ∧
    MemorySpared s t 1 ∧ RegisterFileKept s t ∧ SettingsKept s t ∧
    (memoryAnswers s = true → r.data = s.host.mem.read s.cpu.pc.toNat)

/-- 41_cpu_engine.md section 3, log entries 6, 7 and 8: a byte with no handler is refused by name (D15); a byte with one
runs it; every tick is one exchange, `breakMask` and the settings are kept, and memory and the video registers change only
as the vectors it sends and the host's replies say (that the host's memory keeps the rest is log entry 6). Then what the
micro-operations of a program handler do: its branches and register moves (log entry 7), and the operations of
40_pin_bus.md; an exchange sends `sync` 0 unless the program has asserted it (log entry 31). -/
def Obligations.OpRunsOrRefuses : Prop :=
  (∀ b s, lookup s.cfg.dispatch b = .absent → exec (.op b) s = .refused (.noHandler b)) ∧
  (∀ b s, lookup s.cfg.dispatch b ≠ .absent → ∃ t new, exec (.op b) s = .next t ∧ Sent s t new ∧
    t.cpu.breakMask = s.cpu.breakMask ∧ SettingsKept s t ∧ t.host.calls = s.host.calls ∧
    (∀ h, lookup s.cfg.dispatch b = .program h → t = runProgram h freshLocals s)) ∧
  (∀ l s, runProgram .done l s = s) ∧
  (∀ m k l s, runProgram (.step m k) l s = runProgram k (microLocals m l s.cpu) (runMicro m l s)) ∧
  (∀ c x y l s, runProgram (.branch c x y) l s =
    if hexprValue l s.cpu c = 0 then runProgram y l s else runProgram x l s) ∧
  (∀ e l s, runMicro (.setAddr e) l s =
    { s with cpu := { s.cpu with pins := { s.cpu.pins with addr := hexprValue l s.cpu e } } }) ∧
  (∀ a d l s, runMicro (.setAddrData a d) l s = { s with cpu := { s.cpu with
    pins := { s.cpu.pins with addr := hexprValue l s.cpu a, data := (hexprValue l s.cpu d).setWidth 8 } } }) ∧
  (∀ l c, (hexprValue l c .data).toNat = c.pins.data.toNat) ∧
  (∀ ls l s, ∃ p, runMicro (.on ls) l s = { s with cpu := { s.cpu with pins := p } } ∧
    p.addr = s.cpu.pins.addr ∧ p.data = s.cpu.pins.data ∧
    ∀ n, lineLevel n p = (decide (n ∈ ls ∧ lineExists s.cfg n = true) || lineLevel n s.cpu.pins)) ∧
  (∀ ls l s, ∃ p, runMicro (.off ls) l s = { s with cpu := { s.cpu with pins := p } } ∧
    p.addr = s.cpu.pins.addr ∧ p.data = s.cpu.pins.data ∧
    ∀ n, lineLevel n p = (!decide (n ∈ ls ∧ lineExists s.cfg n = true) && lineLevel n s.cpu.pins)) ∧
  (∀ l s, exec .xchg (if l.syncUp then s else
    { s with cpu := { s.cpu with pins := { s.cpu.pins with sync := false } } }) = .next (runMicro .exchange l s)) ∧
  freshLocals.syncUp = false ∧
  (∀ m l c, (microLocals m l c).syncUp =
    match m with
    | .on ls => l.syncUp || decide (.sync ∈ ls)
    | .off ls => l.syncUp && !decide (.sync ∈ ls)
    | _ => l.syncUp) ∧
  (∀ m l c, (∀ r e, m ≠ .set r e) → (microLocals m l c).tmp = l.tmp) ∧
  (∀ r e l s, ∃ c, runMicro (.set r e) l s = { s with cpu := c } ∧ c.pins = s.cpu.pins ∧
    c.breakMask = s.cpu.breakMask ∧ ∀ q, hregGet (microLocals (.set r e) l s.cpu) c q =
      if q = r then
        (match r with
          | .pc | .tmp _ => hexprValue l s.cpu e
          | _ => hexprValue l s.cpu e &&& 0xFF)
      else hregGet l s.cpu q)

/-- 40_pin_bus.md (its rule on `Exchange`): the host gets the vector as the chip left it, the chip takes the whole returned
vector, one tick is counted, and no other register of the CPU changes. The host's memories are log entry 6: what the sent
vector stores, then the changes the host makes itself in this exchange (20_memory.md section 2, 44_host_interfaces.md
section 1), the last of them at an address being what it then holds. The vector returned is the sent one, with the data
lines of a read as memory or the video register (its order D33) gives them, and over it each line the host drives itself
(40_pin_bus.md, its rule on the host, log entry 6). -/
def Obligations.ExchangeEffect : Prop :=
  ∀ s, ∃ t, exec .xchg s = .next t ∧ Sent s t [s.cpu.pins] ∧
    returnedVectors t.trace = returnedVectors s.trace ++ [t.cpu.pins] ∧
    t.cpu = { s.cpu with pins := t.cpu.pins } ∧ t.ticks = s.ticks + 1 ∧ SettingsKept s t ∧
    t.host.calls = s.host.calls ∧
    (∀ a, MemoryCanonical s → storedAt s.cfg s.cpu.pins = some a → repliesSpare (s.host.replies.take 1) a →
      t.host.mem.read a = s.cpu.pins.data) ∧
    (∀ r rs cs a b ds, MemoryCanonical s → s.host.replies = r :: rs → r.mem = cs ++ (a, b) :: ds → (∀ x ∈ ds, x.1 ≠ a) →
      t.host.mem.read a.toNat = b) ∧
    (∀ r rs cs a w ds, MemoryCanonical s → s.host.replies = r :: rs → r.vmem = cs ++ (a, w) :: ds → (∀ x ∈ ds, x.1 ≠ a) →
      t.host.vmem.read a = w) ∧
    ∃ served : Byte,
      (s.cpu.pins.rw = false → served = s.cpu.pins.data) ∧
      (s.cpu.pins.rw = true → busSelect s.cfg s.cpu.pins.addr = false →
        served = s.host.mem.read s.cpu.pins.addr.toNat) ∧
      (s.cpu.pins.rw = true → busSelect s.cfg s.cpu.pins.addr = true →
        served = readValue (match s.cfg.arbOrder with | .tickFirst => t.video | .accessFirst => s.video)
          (BitVec.ofNat 4 (s.cpu.pins.addr.toNat % 16))) ∧
      (s.host.replies = [] → t.cpu.pins = { s.cpu.pins with data := served }) ∧
      ∀ r rs, s.host.replies = r :: rs → t.cpu.pins =
        { addr := r.addr.getD s.cpu.pins.addr
          data := r.data.getD served
          rw := r.rw.getD s.cpu.pins.rw
          sync := r.sync.getD s.cpu.pins.sync
          irq := r.irq.getD s.cpu.pins.irq
          nmi := r.nmi.getD s.cpu.pins.nmi
          other := (r.other.map (· % 2 ^ (s.cfg.pinBits - 28))).getD s.cpu.pins.other }

/-- 44_host_interfaces.md section 2 (D33, D34): an exchange runs the video ticks owed for its clock: before the cycle's
register access with `TickFirst`, after it with `AccessFirst`; `n` owed ticks are `VTICK` made `n` times. The chip, the
pixels, the fetch queue and the whole record of observations (00_scope.md section 5; log entries 15, 17 and 26) are those
ticks', beside the access's own. Every other cycle of the CPU is that exchange, from the state with its lines set: a read, a
write, the opcode fetch, and the six of an interrupt entry, which send `sync` 0 (60_exceptions.md section 3, D6, D10 to D12,
D18, log entry 31). -/
def Obligations.ExchangeTicksVideo : Prop :=
  (∀ s, videoTicks 0 s = s) ∧ (∀ n s, ∃ t, exec .vtick s = .next t ∧ videoTicks (n + 1) s = videoTicks n t) ∧
  (∀ s, let sent := { s with trace := .sent s.cpu.pins :: s.trace }
    let reads := fun v : Video => if s.cpu.pins.rw = true ∧ busSelect s.cfg s.cpu.pins.addr = true then
      [Event.regRead (BitVec.ofNat 4 (s.cpu.pins.addr.toNat % 16))
        (readValue v (BitVec.ofNat 4 (s.cpu.pins.addr.toNat % 16)))] else []
    ∃ t, exec .xchg s = .next t ∧
    (s.cfg.arbOrder = .tickFirst →
      let u := videoTicks s.cfg.ticksPerCpuTick sent
      t.video = { u.video with regs := t.video.regs } ∧ t.host.frame = u.host.frame ∧ t.host.fetches = u.host.fetches ∧
      t.trace = .returned t.cpu.pins :: (reads u.video ++ u.trace)) ∧
    (s.cfg.arbOrder = .accessFirst →
      let w := match registerAt s.cfg s.cpu.pins with
        | some r => accessWrite r s.cpu.pins.data sent
        | none => sent
      let u := videoTicks s.cfg.ticksPerCpuTick { w with trace := reads s.video ++ w.trace }
      t.video = u.video ∧ t.host.frame = u.host.frame ∧ t.host.fetches = u.host.fetches ∧
      t.trace = .returned t.cpu.pins :: u.trace)) ∧
  (∀ a s, exec (.rd a) s = exec .xchg { s with cpu := { s.cpu with pins := { s.cpu.pins with addr := a, rw := true } } }) ∧
  (∀ a d s, exec (.wr a d) s =
    exec .xchg { s with cpu := { s.cpu with pins := { s.cpu.pins with addr := a, data := d, rw := false } } }) ∧
  (∀ s, ∃ t, exec .xchg { s with cpu := { s.cpu with pc := s.cpu.pc + 1, pins := fetchVector s } } = .next t ∧
    exec .opfetch s = .next { t with cpu := { t.cpu with pins := { t.cpu.pins with sync := false } } }) ∧
  (∀ s, ∃ t1 t2 t3 t4 t5 t6 v,
    exec .xchg { s with cpu := { s.cpu with pins := { s.cpu.pins with rw := true, sync := false } } } = .next t1 ∧
    exec (.wr (0x01#8 ++ s.cpu.sp) (s.cpu.pc.extractLsb' 8 8))
      { t1 with cpu := { t1.cpu with pins := { t1.cpu.pins with sync := false } } } = .next t2 ∧
    exec (.wr (0x01#8 ++ (s.cpu.sp - 1)) (s.cpu.pc.extractLsb' 0 8))
      { t2 with cpu := { t2.cpu with sp := s.cpu.sp - 1, pins := { t2.cpu.pins with sync := false } } } = .next t3 ∧
    exec (.wr (0x01#8 ++ (s.cpu.sp - 2)) (s.cpu.p &&& ~~~s.cfg.bMask))
      { t3 with cpu := { t3.cpu with sp := s.cpu.sp - 2, pins := { t3.cpu.pins with sync := false } } } = .next t4 ∧
    v = (if t4.cpu.pins.nmi then s.cfg.nmiVector else s.cfg.irqVector) ∧
    exec (.rd v)
      { t4 with cpu := { t4.cpu with sp := s.cpu.sp - 3, pins := { t4.cpu.pins with sync := false } } } = .next t5 ∧
    exec (.rd (v + 1)) { t5 with cpu := { t5.cpu with pins := { t5.cpu.pins with sync := false } } } = .next t6 ∧
    exec .intseq s = .next { t6 with cpu := { t6.cpu with
      pc := t6.cpu.pins.data ++ t5.cpu.pins.data
      p := s.cpu.p ||| s.cfg.iMask
      pins := { t6.cpu.pins with irq := false, nmi := false } } })

/-- 40_pin_bus.md (its rule on `ReadExchange`), log entry 6: a read of an address that is no video register brings
memory's byte, unless the host itself drives the lines; nothing else of the CPU and no register changes, and no memory but
by the host's own changes. -/
def Obligations.ReadExchangeFromMemory : Prop :=
  ∀ a s, busSelect s.cfg a = false → ∃ t, exec (.rd a) s = .next t ∧
    t.cpu = { s.cpu with
      pins := (replyPins s.cfg s.host.replies { s.cpu.pins with addr := a, rw := true, data := s.host.mem.read a.toNat }) } ∧
    Sent s t [{ s.cpu.pins with addr := a, rw := true }] ∧
    MemorySpared s t 1 ∧ RegisterFileKept s t ∧ SettingsKept s t

/-- 44_host_interfaces.md section 2 (the order is `ARB_ORDER`, D33; what the host drives and changes itself is log entry
6): a read of a selected address brings the video register's value, as the clock's tick left the chip with `TickFirst`, as
it was before with `AccessFirst`. -/
def Obligations.ReadExchangeFromVideo : Prop :=
  ∀ a s, busSelect s.cfg a = true → ∃ t, exec (.rd a) s = .next t ∧
    t.cpu = { s.cpu with
      pins := (replyPins s.cfg s.host.replies { s.cpu.pins with
        addr := a
        rw := true
        data := readValue (match s.cfg.arbOrder with | .tickFirst => t.video | .accessFirst => s.video)
          (BitVec.ofNat 4 (a.toNat % 16)) }) } ∧
    Sent s t [{ s.cpu.pins with addr := a, rw := true }] ∧
    MemorySpared s t 1 ∧ RegisterFileKept s t ∧ SettingsKept s t

/-- 40_pin_bus.md (its rule on `WriteExchange`), log entry 6: a write to an address that is no video register stores the
byte there and nowhere else, beside the host's own changes, and leaves `rw` at write. -/
def Obligations.WriteExchangeToMemory : Prop :=
  ∀ a d s, busSelect s.cfg a = false → ∃ t, exec (.wr a d) s = .next t ∧
    t.cpu = { s.cpu with pins := replyPins s.cfg s.host.replies { s.cpu.pins with addr := a, data := d, rw := false } } ∧
    Sent s t [{ s.cpu.pins with addr := a, data := d, rw := false }] ∧
    (MemoryCanonical s → repliesSpare (s.host.replies.take 1) a.toNat → t.host.mem.read a.toNat = d) ∧
    (∀ b, b ≠ a.toNat → repliesSpare (s.host.replies.take 1) b → t.host.mem.read b = s.host.mem.read b) ∧
    (∀ b, repliesSpareVideo (s.host.replies.take 1) b → t.host.vmem.read b = s.host.vmem.read b) ∧ RegisterFileKept s t ∧ SettingsKept s t

/-- 44_host_interfaces.md section 2 (D32, log entry 6): a write to a selected address stores the byte in that video
register and recomputes the derived fields; memory does not take it. -/
def Obligations.WriteExchangeToVideo : Prop :=
  ∀ a d s, busSelect s.cfg a = true → ∃ t, exec (.wr a d) s = .next t ∧
    t.cpu = { s.cpu with pins := replyPins s.cfg s.host.replies { s.cpu.pins with addr := a, data := d, rw := false } } ∧
    Sent s t [{ s.cpu.pins with addr := a, data := d, rw := false }] ∧
    regAt t.video.regs (BitVec.ofNat 4 (a.toNat % 16)) = d ∧
    (∀ r, r ≠ BitVec.ofNat 4 (a.toNat % 16) → regAt t.video.regs r = regAt s.video.regs r) ∧
    t.derived = derive s.cfg t.video.regs ∧ MemorySpared s t 1 ∧ SettingsKept s t

/-- 41_cpu_engine.md section 4 (the shape of the loop is D13): a burst counts its exchanges from 0, begins with an opcode
fetch, reports the count, and keeps `breakMask` and the settings. That memory after it differs only as the sent vectors and
the host's replies say is the model's host, log entry 6. -/
def Obligations.ExecCountsExchanges : Prop :=
  ∀ n s t, exec (.exec n) s = .next t →
    (∃ new, Sent { s with ticks := 0 } t (fetchVector s :: new) ∧ t.ticks = new.length + 1) ∧
    t.trace.head? = some (.executed t.ticks) ∧ t.cpu.breakMask = s.cpu.breakMask ∧ SettingsKept s t

/-- 41_cpu_engine.md section 4 (the loop's shape is D13, that every handler ends is D14): with a handler for every byte a
burst answers a next state, with the budget reached or a configured bit high. -/
def Obligations.ExecStops : Prop :=
  ∀ n s, EveryByteHandled s → ∃ t, exec (.exec n) s = .next t ∧ 1 ≤ t.ticks ∧
    (n ≤ t.ticks ∨ pack t.cfg t.cpu.pins &&& t.cpu.breakMask ≠ 0)

/-- 41_cpu_engine.md sections 1 and 4 (the first tick-count property of `execute`; the loop's shape is D13): an
instruction step of a burst is the opcode fetch, the operation of the byte fetched and the interrupt check, a refusal
passed on; and a burst stops at the first boundary, after one step or more, where the budget is reached or a configured bit
is high, `sync` being 0 in the snapshot tested there (section 2; where the engine clears it is log entry 31). -/
def Obligations.ExecIsLeastBoundary : Prop :=
  (∀ s, ∃ f, exec .opfetch s = .next f ∧
    instructionStep s = match exec (.op f.cpu.pins.data) f with
      | .next t => exec .intchk t
      | .fault e => .fault e
      | .refused r => .refused r) ∧
  (∀ s, afterSteps 0 s = some s) ∧
  (∀ k s, afterSteps (k + 1) s = match instructionStep s with
    | .next t => afterSteps k { t with cpu := { t.cpu with pins := { t.cpu.pins with sync := false } } }
    | _ => none) ∧
  ∀ n s t, exec (.exec n) s = .next t → ∃ k u, 1 ≤ k ∧ afterSteps k { s with ticks := 0 } = some u ∧
    t.cpu.pins.sync = false ∧ t = { u with trace := .executed u.ticks :: u.trace } ∧
    (n ≤ u.ticks ∨ pack u.cfg u.cpu.pins &&& u.cpu.breakMask ≠ 0) ∧
    ∀ j, 1 ≤ j → j < k → ∃ w, afterSteps j { s with ticks := 0 } = some w ∧ w.ticks < n ∧
      pack w.cfg w.cpu.pins &&& w.cpu.breakMask = 0

/-- R97: the break test holds exactly when some configured bit of the vector, whichever line it is over, is high. -/
def Obligations.BreakTest : Prop :=
  ∀ c p mask, 28 ≤ c.pinBits → (breakMatches c p mask = true ↔
    ∃ i, i < c.pinBits ∧ mask.testBit i = true ∧ (pack c p).testBit i = true)

/-- 30_encoding.md section 3 (the layout is the spec's choice D2): where each line of the vector stands, for every
`PIN_BITS` the spec allows. -/
def Obligations.PinLayout : Prop :=
  ∀ c p, 28 ≤ c.pinBits → pack c p < 2 ^ c.pinBits ∧ pack c p % 2 ^ 16 = p.addr.toNat ∧
    pack c p / 2 ^ 16 % 2 ^ 8 = p.data.toNat ∧ (pack c p).testBit 24 = p.rw ∧ (pack c p).testBit 25 = p.sync ∧
    (pack c p).testBit 26 = p.irq ∧ (pack c p).testBit 27 = p.nmi ∧
    pack c p / 2 ^ 28 = p.other % 2 ^ (c.pinBits - 28)

/-! ### Interrupts -/

/-- 60_exceptions.md section 2 (level tests, D16 and D17): an entry is made exactly when `nmi` is up, or `irq` is up and
`I` is clear; else the check changes nothing. -/
def Obligations.InterruptCheckDecides : Prop :=
  ∀ s, exec .intchk s =
    if s.cpu.pins.nmi = true ∨ (s.cpu.pins.irq = true ∧ s.cpu.p &&& s.cfg.iMask = 0) then exec .intseq s else .next s

/-- 60_exceptions.md section 3 (the address of the throwaway read is D10, the stack's D6, the vector's choice and order
D11 and D12, the clearing D18): the six exchanges of an entry, and what it leaves. That the host's memory changes only as
the six vectors and its own replies say is log entry 6, and where the engine sets `sync` to 0 log entry 31. -/
def Obligations.InterruptEntryCycles : Prop :=
  ∀ s, ∃ t r1 r2 r3 r4 r5 r6 v, exec .intseq s = .next t ∧
    returnedVectors t.trace = returnedVectors s.trace ++ [r1, r2, r3, r4, r5, r6] ∧
    v = (if r4.nmi then s.cfg.nmiVector else s.cfg.irqVector) ∧
    Sent s t
      [{ s.cpu.pins with rw := true, sync := false },
       { r1 with addr := 0x01#8 ++ s.cpu.sp, data := s.cpu.pc.extractLsb' 8 8, rw := false, sync := false },
       { r2 with addr := 0x01#8 ++ (s.cpu.sp - 1), data := s.cpu.pc.extractLsb' 0 8, rw := false, sync := false },
       { r3 with addr := 0x01#8 ++ (s.cpu.sp - 2), data := s.cpu.p &&& ~~~s.cfg.bMask, rw := false, sync := false },
       { r4 with addr := v, rw := true, sync := false },
       { r5 with addr := v + 1, rw := true, sync := false }] ∧
    t.cpu = { s.cpu with pc := r6.data ++ r5.data, sp := s.cpu.sp - 3, p := s.cpu.p ||| s.cfg.iMask,
                         pins := { r6 with irq := false, nmi := false } } ∧
    SettingsKept s t ∧ t.host.calls = s.host.calls

/-- 60_exceptions.md section 3 and 30_encoding.md section 3: the second byte an entry pushes is the low byte of `PC`, the
third the status with `B` clear and `I` as it was; after it `PC` is the two bytes read last and `I` alone of the flags is
set. That the first of the two is the low byte is the spec's own choice D12 (log entry 12). -/
def Obligations.InterruptEntrySavesAndLoads : Prop :=
  ∀ s, ∃ t p1 p2 p3 p4 p5 p6 r1 r2 r3 r4 r5 r6, exec .intseq s = .next t ∧
    sentVectors t.trace = sentVectors s.trace ++ [p1, p2, p3, p4, p5, p6] ∧
    returnedVectors t.trace = returnedVectors s.trace ++ [r1, r2, r3, r4, r5, r6] ∧
    p3.rw = false ∧ p3.data.toNat = s.cpu.pc.toNat % 256 ∧
    p4.rw = false ∧ p4.data = s.cpu.p &&& ~~~s.cfg.bMask ∧
    p5.rw = true ∧ p6.rw = true ∧ t.cpu.pc.toNat = r6.data.toNat * 256 + r5.data.toNat ∧
    t.cpu.p = s.cpu.p ||| s.cfg.iMask

/-- 60_exceptions.md section 3 (page 1 is D6), 44_host_interfaces.md section 2 (D32), log entry 6 (what the host's memory
holds): each byte an entry pushes, `PC` high, `PC` low and the status, `SP` wrapping, stands in memory where memory serves
its stack address and the host does not change it, and in the video register where the arbiter selects that address; no
other byte of memory and no other register changes. -/
def Obligations.InterruptEntryStack : Prop :=
  ∀ s, MemoryCanonical s → ∃ t, exec .intseq s = .next t ∧
    (∀ p ∈ [(256 + s.cpu.sp.toNat, s.cpu.pc.toNat / 256), (256 + (s.cpu.sp - 1).toNat, s.cpu.pc.toNat % 256),
        (256 + (s.cpu.sp - 2).toNat, (s.cpu.p &&& ~~~s.cfg.bMask).toNat)],
      (busSelect s.cfg (BitVec.ofNat 16 p.1) = false → repliesSpare (s.host.replies.take 6) p.1 →
        (t.host.mem.read p.1).toNat = p.2) ∧
      (busSelect s.cfg (BitVec.ofNat 16 p.1) = true →
        (regAt t.video.regs (BitVec.ofNat 4 (p.1 % 16))).toNat = p.2 ∧
        (repliesSpare (s.host.replies.take 6) p.1 → t.host.mem.read p.1 = s.host.mem.read p.1))) ∧
    (∀ a, a ≠ 256 + s.cpu.sp.toNat → a ≠ 256 + (s.cpu.sp - 1).toNat → a ≠ 256 + (s.cpu.sp - 2).toNat →
      repliesSpare (s.host.replies.take 6) a → t.host.mem.read a = s.host.mem.read a) ∧
    (∀ r, (∀ n ∈ [s.cpu.sp.toNat, (s.cpu.sp - 1).toNat, (s.cpu.sp - 2).toNat],
        busSelect s.cfg (BitVec.ofNat 16 (256 + n)) = true → r ≠ BitVec.ofNat 4 (n % 16)) →
      regAt t.video.regs r = regAt s.video.regs r)

/-- 60_exceptions.md sections 2 and 3 (when the vector is chosen is D11, the clearing D18; what the host's memory keeps is
log entry 6): with both lines pending the check makes one entry of six exchanges and leaves both lines clear; the vector is
chosen by `nmi` as the fourth exchange returns it, so it is the NMI vector unless the host drives `nmi` before that. -/
def Obligations.NmiWins : Prop :=
  ∀ s, s.cpu.pins.nmi = true → s.cpu.pins.irq = true →
    ∃ t p1 p2 p3 p4 p5 p6 r1 r2 r3 r4 r5 r6, exec .intchk s = .next t ∧
      Sent s t [p1, p2, p3, p4, p5, p6] ∧
      returnedVectors t.trace = returnedVectors s.trace ++ [r1, r2, r3, r4, r5, r6] ∧
      p5.addr = (if r4.nmi then s.cfg.nmiVector else s.cfg.irqVector) ∧ p5.rw = true ∧
      p6.addr = p5.addr + 1 ∧ p6.rw = true ∧ t.cpu.pins.irq = false ∧ t.cpu.pins.nmi = false ∧
      ((∀ r ∈ s.host.replies.take 4, r.nmi = none) → p5.addr = s.cfg.nmiVector)

/-! ### Register access and derived geometry -/

/-- R161: a plain read puts the stored byte on the data lines and changes nothing else. -/
def Obligations.PlainRegisterReads : Prop :=
  ∀ p ∈ [(Instr.vrd0, (0 : Nibble)), (.vrd1, 1), (.vrd2, 2), (.vrd5, 5), (.vrd6, 6), (.vrd7, 7), (.vrd8, 8), (.vrd9, 9),
         (.vrd10, 10), (.vrd11, 11), (.vrd12, 12), (.vrd13, 13), (.vrd14, 14), (.vrd15, 15)],
    ∀ s, exec p.1 s = .next { s with
      host := { s.host with bus := { s.host.bus with data := regAt s.video.regs p.2 } }
      trace := .regRead p.2 (regAt s.video.regs p.2) :: s.trace }

/-- R162: register 3 reads as the low bit of `v` above the stored bits 6 to 0, and the read changes nothing else. -/
def Obligations.RegisterThreeRead : Prop :=
  ∀ s, ∃ d : Byte, d.toNat = s.video.v % 2 * 128 + (regAt s.video.regs 3).toNat % 128 ∧
    exec .vrd3 s = .next { s with
      host := { s.host with bus := { s.host.bus with data := d } }
      trace := .regRead 3 d :: s.trace }

/-- R163: register 4 reads as bits 8 to 1 of `v`, whatever was stored, and the read changes nothing else. -/
def Obligations.RegisterFourRead : Prop :=
  ∀ s, ∃ d : Byte, d.toNat = s.video.v / 2 % 256 ∧
    exec .vrd4 s = .next { s with
      host := { s.host with bus := { s.host.bus with data := d } }
      trace := .regRead 4 d :: s.trace }

/-- R164: a write stores the byte in its register alone, recomputes the derived fields, and changes nothing else. -/
def Obligations.RegisterWritesStore : Prop :=
  ∀ p ∈ ([(Instr.vwr0, 0), (.vwr1, 1), (.vwr2, 2), (.vwr3, 3), (.vwr4, 4), (.vwr5, 5), (.vwr6, 6), (.vwr7, 7), (.vwr8, 8),
          (.vwr9, 9), (.vwr10, 10), (.vwr11, 11), (.vwr12, 12), (.vwr13, 13), (.vwr14, 14), (.vwr15, 15)] :
          List ((Byte → Instr) × Nibble)),
    ∀ d s, ∃ regs, exec (p.1 d) s = .next { s with
        video := { s.video with regs := regs }
        derived := derive s.cfg regs } ∧
      regAt regs p.2 = d ∧ ∀ q, q ≠ p.2 → regAt regs q = regAt s.video.regs q

/-- R171: the row height follows the row-height bit of register 3 and no other register. -/
def Obligations.RowHeightFollowsItsBit : Prop :=
  (∀ d s, ∃ t, exec (.vwr3 d) s = .next t ∧
    t.derived.rowHeight = if d.getLsbD (rowHeightBit s.cfg.derive) then .h16 else .h8) ∧
  (∀ p ∈ ([Instr.vwr0, .vwr1, .vwr2, .vwr4, .vwr5, .vwr6, .vwr7, .vwr8, .vwr9, .vwr10, .vwr11, .vwr12, .vwr13, .vwr14,
           .vwr15] : List (Byte → Instr)),
    ∀ d s, DerivedCurrent s → ∃ t, exec (p d) s = .next t ∧ t.derived.rowHeight = s.derived.rowHeight)

/-- 42_video_access.md section 4 (general knowledge, log entry 10): the derived fields under the reference `Derive`. And its
section 3, of any other: each colour is `Palette` of an index field of one register, whose place is the parameter's. -/
def Obligations.ReferenceGeometry : Prop :=
  (∀ c regs k bit fb fg, c.derive = .other k bit fb fg →
    (derive c regs).borderColor =
      paletteColor c (BitVec.ofNat 4 ((regAt regs fb.reg).toNat / 2 ^ fb.lo.val % 2 ^ fb.width.val)) ∧
    (derive c regs).bgColor =
      paletteColor c (BitVec.ofNat 4 ((regAt regs fg.reg).toNat / 2 ^ fg.lo.val % 2 ^ fg.width.val))) ∧
  ∀ c regs, c.derive = .reference →
    let reg := fun r : Nibble => (regAt regs r).toNat
    let g := derive c regs
    g.rowHeight = (if reg 3 % 2 = 1 then .h16 else .h8) ∧
    g.left = reg 0 % 128 ∧ g.right = reg 0 % 128 + 2 * (reg 2 % 128) ∧
    g.top = reg 1 ∧ g.bottom = reg 1 + reg 3 / 2 % 64 * (if reg 3 % 2 = 1 then 16 else 8) ∧
    g.borderColor = paletteColor c (BitVec.ofNat 4 (reg 15 % 8)) ∧
    g.bgColor = paletteColor c (BitVec.ofNat 4 (reg 15 / 16)) ∧
    g.charBase.toNat = reg 5 / 16 * 1024 + reg 2 / 128 * 512 ∧
    g.graphicsBase.toNat = reg 5 % 16 * 1024

/-- R35: the derived fields equal `Derive` of the registers at every instant: every operation and every step keeps it. -/
def Obligations.DerivedCurrentKept : Prop :=
  (∀ i s t, DerivedCurrent s → exec i s = .next t → DerivedCurrent t) ∧
  (∀ s t, DerivedCurrent s → step s = .next t → DerivedCurrent t)

/-! ### The video tick -/

/-- 43_video_tick.md sections 1, 4 and 6: a tick reports no sample ready, makes one fetch at most and leaves the CPU, the
registers, the derived fields, the settings and the host's vector alone. That it leaves both memories alone too, the host's
`VFetch` among it, is the model's host, log entry 6. -/
def Obligations.VtickFrame : Prop :=
  ∀ s, ∃ t fetches, exec .vtick s = .next t ∧ t.trace = .ticked false :: (fetches ++ s.trace) ∧
    (fetches = [] ∨ ∃ a w, fetches = [.fetched a w]) ∧ t.cpu = s.cpu ∧ t.ticks = s.ticks ∧ SettingsKept s t ∧
    MemoryKept s t ∧ RegisterFileKept s t ∧ t.host.bus = s.host.bus ∧ t.host.replies = s.host.replies ∧
    t.host.calls = s.host.calls

/-- 43_video_tick.md section 5 (one step a tick is D25): inside a line the column and the beam advance by one and nothing
of the line's end happens. -/
def Obligations.InsideLineAdvance : Prop :=
  ∀ s, ¬ LineEnds s → ∃ t, exec .vtick s = .next t ∧ t.video.h = s.video.h + 1 ∧ t.video.crtX = s.video.crtX + 1 ∧
    t.video.crtY = s.video.crtY ∧ t.video.v = s.video.v ∧ t.video.rc = s.video.rc ∧
    t.video.rowCount = s.video.rowCount ∧ t.video.vcBase = s.video.vcBase ∧ t.video.border.v = s.video.border.v ∧
    t.video.disable.v = s.video.disable.v

/-- R212: at a line's end the beam's `x` is 0 and its `y` is 0 at the retrace line, else one more; the column wraps, and the
line counter goes up by one or wraps (R210, R221). -/
def Obligations.LineEndBeam : Prop :=
  ∀ s, LineEnds s → ∃ t, exec .vtick s = .next t ∧ t.video.crtX = 0 ∧
    t.video.crtY = (if s.video.v + 1 = s.cfg.retraceLine then 0 else s.video.crtY + 1) ∧ t.video.h = 0 ∧
    t.video.v = (if s.video.v + 1 = s.cfg.totalLines then 0 else s.video.v + 1)

/-- 43_video_tick.md section 3 (independent tests in order, D20): the horizontal bits after a tick, in a line and at its
end. -/
def Obligations.HorizontalTransitions : Prop :=
  ∀ s, ∃ t, exec .vtick s = .next t ∧
    t.video.border.h = (if s.video.h = s.derived.right + 1 then true
      else if s.video.h = s.derived.left + 1 then false else s.video.border.h) ∧
    t.video.disable.h = (if s.video.h = s.derived.right + 1 then true
      else if s.video.h = s.derived.left then false else s.video.disable.h)

/-- 43_video_tick.md section 4: a tick fetches exactly when both disable bits are clear after its transitions; the host's
queue of words for `VFetch` then advances by one, which is the model's host (log entry 17). Else `VFetch` is not called and
the counter, the latches and that queue stay. -/
def Obligations.FetchCondition : Prop :=
  ∀ s, ∃ t, exec .vtick s = .next t ∧
    (fetchesNow s = true → (∃ a w, t.trace = .ticked false :: .fetched a w :: s.trace) ∧
      t.host.fetches = s.host.fetches.tail) ∧
    (fetchesNow s = false → t.trace = .ticked false :: s.trace ∧ t.video.cValue = s.video.cValue ∧
      t.video.color = s.video.color ∧ t.video.shift = shiftNow s ∧ t.host.fetches = s.host.fetches ∧
      (¬ LineEnds s → t.video.vc = counterNow s))

/-- R204: a fetch at an even counter reads `charBase | (vc >> 1)` and keeps all 16 bits; the shifter and the colour are not
loaded. -/
def Obligations.CharacterAccess : Prop :=
  ∀ s, fetchesNow s = true → (counterNow s).toNat % 2 = 0 →
    ∃ t a, exec .vtick s = .next t ∧ a = s.derived.charBase ||| BitVec.ofNat 16 ((counterNow s).toNat / 2) ∧
      t.trace = .ticked false :: .fetched a (fetchValue s a) :: s.trace ∧
      t.video.cValue = fetchValue s a ∧ t.video.shift = shiftNow s ∧ t.video.color = s.video.color

/-- 43_video_tick.md section 4 (D23, D24): a fetch at an odd counter reads the character's line of pixels into the shifter
and takes the colour from the cached word. -/
def Obligations.GraphicsAccess : Prop :=
  ∀ s, fetchesNow s = true → (counterNow s).toNat % 2 = 1 →
    ∃ t a, exec .vtick s = .next t ∧
      a = s.derived.graphicsBase ||| BitVec.ofNat 16 (s.video.cValue.toNat % 256 * rowLines s.derived.rowHeight) |||
        s.video.rc.setWidth 16 ∧
      t.trace = .ticked false :: .fetched a (fetchValue s a) :: s.trace ∧
      t.video.shift.toNat = (fetchValue s a).toNat % 256 ∧
      t.video.color.toNat = s.video.cValue.toNat / 2 ^ s.cfg.colorShift % 16 ∧ t.video.cValue = s.video.cValue

/-- R206: the counter goes up by one modulo 2048 after a fetch of either kind and not without one, where the top threshold
does not restart it. -/
def Obligations.CounterStep : Prop :=
  ∀ s, (LineEnds s → s.video.v + 1 ≠ s.derived.top) → ∃ t, exec .vtick s = .next t ∧
    t.video.vc.toNat =
      (if fetchesNow s then ((counterNow s).toNat + 1) % 2048 else (counterNow s).toNat)

/-- R211: at a line's end, where the row counter reaches the row height the row ends, and else it goes up by one; where the
top threshold does not restart the frame. -/
def Obligations.RowEnd : Prop :=
  ∀ s, LineEnds s → s.video.v + 1 ≠ s.derived.top → ∃ t, exec .vtick s = .next t ∧
    (if s.video.rc.toNat + 1 = rowLines s.derived.rowHeight then
      t.video.rc = 0 ∧ t.video.rowCount = s.video.rowCount + 1 ∧ t.video.vcBase.toNat = t.video.vc.toNat / 2 * 2
    else
      (s.video.rc.toNat < 15 → t.video.rc.toNat = s.video.rc.toNat + 1) ∧ t.video.rowCount = s.video.rowCount ∧
      t.video.vcBase = s.video.vcBase)

/-- 43_video_tick.md section 5 (the reading of "toggle" is D27, the row counter's overflow D29): at a line's end the
top threshold clears both vertical bits and restarts the counters, the bottom threshold, tested last, sets both, and else
they stay; a row counter of 15 with a row height of 8 becomes 0 without a row end. -/
def Obligations.VerticalThresholds : Prop :=
  ∀ s, LineEnds s → ∃ t, exec .vtick s = .next t ∧
    t.video.border.v = (if s.video.v + 1 = s.derived.bottom then true
      else if s.video.v + 1 = s.derived.top then false else s.video.border.v) ∧
    t.video.disable.v = (if s.video.v + 1 = s.derived.bottom then true
      else if s.video.v + 1 = s.derived.top then false else s.video.disable.v) ∧
    (s.video.v + 1 = s.derived.top →
      t.video.vc = 0 ∧ t.video.vcBase = 0 ∧ t.video.rowCount = 0 ∧ t.video.rc = 0) ∧
    (s.video.v + 1 ≠ s.derived.top → s.video.rc = 15 → s.derived.rowHeight = .h8 →
      t.video.rc = 0 ∧ t.video.rowCount = s.video.rowCount ∧ t.video.vcBase = s.video.vcBase)

/-- 43_video_tick.md section 2 (where pixels go is D44): inside the window with a border bit set, four copies of the
border colour go to the burst's place in the attached buffer and no other pixel of the host changes. -/
def Obligations.BorderPixels : Prop :=
  ∀ s b, MemoryCanonical s → s.display.fb = some b → produces s = true →
    (s.video.border.h = true ∨ s.video.border.v = true) →
    ∃ t base, exec .vtick s = .next t ∧ base = b.base +
        ((s.video.crtY - s.display.vis.y0) * (s.display.vis.x1 - s.display.vis.x0) + (s.video.crtX - s.display.vis.x0)) * 4 ∧
      (∀ i, i < 4 → t.host.frame.read (base + i) = s.derived.borderColor) ∧
      (∀ k, k < base ∨ base + 4 ≤ k → t.host.frame.read k = s.host.frame.read k)

/-- 43_video_tick.md section 2 (which bit value is foreground is D22, the place D44): inside the window without border,
the shifter's top four bits, bit 7 first, choose between `Palette(color & 7)` and the background. -/
def Obligations.VideoPixels : Prop :=
  ∀ s b, MemoryCanonical s → s.display.fb = some b → produces s = true → s.video.border.h = false →
    s.video.border.v = false →
    ∃ t base, exec .vtick s = .next t ∧ base = b.base +
        ((s.video.crtY - s.display.vis.y0) * (s.display.vis.x1 - s.display.vis.x0) + (s.video.crtX - s.display.vis.x0)) * 4 ∧
      (∀ i, i < 4 → t.host.frame.read (base + i) =
        if s.video.shift.getLsbD (7 - i) then paletteColor s.cfg (BitVec.ofNat 4 (s.video.color.toNat % 8))
        else s.derived.bgColor) ∧
      (∀ k, k < base ∨ base + 4 ≤ k → t.host.frame.read k = s.host.frame.read k)

/-- 43_video_tick.md section 2 (no production, no shift, is D21): with no buffer attached, or outside the window, no pixel
is written and the shifter changes only by a graphics access. -/
def Obligations.NoPixelsOutsideWindow : Prop :=
  ∀ s, (s.display.fb = none ∨ s.video.crtX < s.display.vis.x0 ∨ s.display.vis.x1 ≤ s.video.crtX ∨
      s.video.crtY < s.display.vis.y0 ∨ s.display.vis.y1 ≤ s.video.crtY) →
    ∃ t, exec .vtick s = .next t ∧ (∀ k, t.host.frame.read k = s.host.frame.read k) ∧
      ((fetchesNow s = false ∨ (counterNow s).toNat % 2 = 0) → t.video.shift = s.video.shift)

/-- 43_video_tick.md section 2 and 44_host_interfaces.md section 3: a tick writes no pixel of the host outside the attached
buffer, whose capacity was checked at initialisation. -/
def Obligations.PixelsStayInBuffer : Prop :=
  ∀ s b, WindowFits s → s.display.fb = some b → ∃ t, exec .vtick s = .next t ∧
    ∀ k, (k < b.base ∨ b.base + b.capacity ≤ k) → t.host.frame.read k = s.host.frame.read k

/-! ### Invariants -/

/-- 44_host_interfaces.md section 3: every step keeps an attached buffer large enough for the window. -/
def Obligations.WindowFitsKept : Prop :=
  ∀ s t, WindowFits s → step s = .next t → WindowFits t

/-- 10_state.md section 4 and 43_video_tick.md section 5: every step keeps the raster counters in their ranges and the row
base even. -/
def Obligations.RasterKept : Prop :=
  (∀ s t, RasterInRange s → step s = .next t → RasterInRange t) ∧
  (∀ s t, RowBaseEven s → step s = .next t → RowBaseEven t)

/-- Log entries 5 and 11: every step keeps the memories in canonical form and the CPU's inside its address space, and every
vector and the break mask within `PIN_BITS` (30_encoding.md section 3). -/
def Obligations.MemoryCanonicalKept : Prop :=
  (∀ s t, MemoryCanonical s → step s = .next t → MemoryCanonical t) ∧
  (∀ s t, VectorsFit s → step s = .next t → VectorsFit t)

/-- 10_state.md section 5: the invariants hold at reset. Every clause rests on reset values that are the model's choice,
log entries 1 to 7, 11, 16 and 18: the parameters, both chips' reset states, empty memories, a handler for every byte (7),
the width of the vectors (11), the host's vector (16) and no buffer attached (18). -/
def Obligations.InvariantsAtReset : Prop :=
  DerivedCurrent State.reset ∧ WindowFits State.reset ∧ RasterInRange State.reset ∧ RowBaseEven State.reset ∧
  MemoryCanonical State.reset ∧ VectorsFit State.reset ∧ EveryByteHandled State.reset

/-- 10_state.md section 1: no step writes a parameter, and only `VINIT` writes the video configuration. -/
def Obligations.SettingsNeverWritten : Prop :=
  (∀ s t, step s = .next t → t.cfg = s.cfg) ∧
  (∀ i s t, exec i s = .next t → (∀ c, i ≠ .vinit c) → t.display = s.display)

/-- 10_state.md section 2: no operation writes `breakMask` but `CINIT`, which clears it (D41, log entry 19). -/
def Obligations.BreakMaskOnlyByCinit : Prop :=
  ∀ i s t, exec i s = .next t → t.cpu.breakMask = s.cpu.breakMask ∨ (i = .cinit ∧ t.cpu.breakMask = 0)

/-- 60_exceptions.md section 1 (the refusals are D15, D42 and D43): no operation faults, and one is refused only for a
byte with no handler or a bad video configuration. -/
def Obligations.RefusalsOnlyWhere : Prop :=
  ∀ i s, (∀ f, exec i s ≠ .fault f) ∧ ∀ r, exec i s = .refused r →
    (∃ b, r = .noHandler b ∧ lookup s.cfg.dispatch b = .absent ∧ (i = .op b ∨ ∃ n, i = .exec n)) ∨
    (∃ c, i = .vinit c ∧ i.wf = false)

/-! ### Boundary operations -/

/-- 44_host_interfaces.md section 3 (the window's units are D45): an accepted configuration, its buffer, window and fetch
callback, is stored and the chip is in its reset state; nothing else changes. -/
def Obligations.VinitAccepts : Prop :=
  ∀ c k s, (Instr.vinit c).wf = true → c.fetch = some k → exec (.vinit c) s = .next { s with
    display := { fb := c.fb, fetch := k, vis := { x0 := c.originX / 4, x1 := (c.originX + c.width) / 4, y0 := c.originY,
                                                  y1 := c.originY + c.height } }
    video := s.cfg.videoReset
    derived := derive s.cfg s.cfg.videoReset.regs }

/-- 44_host_interfaces.md section 3, 60_exceptions.md section 6 (D42, D43): a configuration that fails a check is refused,
by the first check it fails; the order of the checks is the model's choice (log entry 20). -/
def Obligations.VinitRefuses : Prop :=
  ∀ c s, ((Instr.vinit c).wf = false → ∃ r, exec (.vinit c) s = .refused r) ∧
    (c.fetch = none → exec (.vinit c) s = .refused .noFetchCallback) ∧
    (∀ b, c.fetch ≠ none → c.fb = some b → b.capacity < c.width * c.height →
      exec (.vinit c) s = .refused .frameBufferTooSmall) ∧
    (c.fetch ≠ none → (∀ b, c.fb = some b → c.width * c.height ≤ b.capacity) →
      (c.originX % 4 ≠ 0 ∨ c.width % 4 ≠ 0) → exec (.vinit c) s = .refused .windowNotAligned) ∧
    (c.fetch ≠ none → (∀ b, c.fb = some b → c.width * c.height ≤ b.capacity) → c.originX % 4 = 0 → c.width % 4 = 0 →
      c.debug = true → exec (.vinit c) s = .refused .debugVisualisation)

/-- R236: `VRESET` puts the chip in the reset state and keeps the configuration. -/
def Obligations.VresetEffect : Prop :=
  ∀ s, exec .vreset s = .next { s with
    video := s.cfg.videoReset
    derived := derive s.cfg s.cfg.videoReset.regs }

/-- R237: the display's size is the configured visible size, in pixels and lines. -/
def Obligations.DisplayQueries : Prop :=
  (∀ s, displayWidth s = 4 * (s.display.vis.x1 - s.display.vis.x0) ∧
    displayHeight s = s.display.vis.y1 - s.display.vis.y0) ∧
  (∀ c s, (Instr.vinit c).wf = true → ∃ t, exec (.vinit c) s = .next t ∧ displayWidth t = c.width ∧
    displayHeight t = c.height)

/-- 70_reset_and_hazards.md section 1 (D41, log entries 2, 4 and 19): `CRESET` loads the CPU's reset state, `PC` from the
word at the reset vector, and keeps `breakMask`; `CINIT` clears that as well. -/
def Obligations.CpuResetEffect : Prop :=
  ∀ s, ∃ pc : Addr,
    pc.toNat = (s.host.mem.read (s.cfg.resetVector + 1).toNat).toNat * 256 +
      (s.host.mem.read s.cfg.resetVector.toNat).toNat ∧
    ∀ m, let t := { s with
        cpu := { pc := pc, sp := s.cfg.cpuReset.sp, a := s.cfg.cpuReset.a, x := s.cfg.cpuReset.x, y := s.cfg.cpuReset.y,
                 p := s.cfg.cpuReset.p, breakMask := m, pins := s.cfg.cpuReset.pins }
        ticks := 0 }
      (m = s.cpu.breakMask → exec .creset s = .next t) ∧ (m = 0 → exec .cinit s = .next t)

/-- R302: the two resets are independent: made in either order they give one state. -/
def Obligations.ResetsAreIndependent : Prop :=
  ∀ s, ∃ a b t, exec .creset s = .next a ∧ exec .vreset a = .next t ∧ exec .vreset s = .next b ∧
    exec .creset b = .next t ∧ a.video = s.video ∧ a.derived = s.derived ∧ b.cpu = s.cpu ∧ b.ticks = s.ticks

/-- 10_state.md section 5 (the values are D40 and D41's, log entries 2 and 3): both chips at reset. -/
def Obligations.ResetValues : Prop :=
  State.reset.cpu = { pc := 0, sp := 0xFD, a := 0, x := 0, y := 0, p := 0x24, breakMask := 0,
                      pins := { addr := 0, data := 0, rw := true, sync := false, irq := false, nmi := false,
                                other := 0 } } ∧
  State.reset.video = { regs := Vector.replicate 16 0, h := 0, v := 0, vc := 0, vcBase := 0, disable := ⟨true, true⟩,
                        rc := 0, rowCount := 0, cValue := 0, border := ⟨true, true⟩, shift := 0, color := 0, crtX := 0,
                        crtY := 0 } ∧
  State.reset.ticks = 0
end

