-- ==== Sys2Proof/Laws/Mem.lean ====
section
/-! SUPPORT. The laws of a memory: what a read after a write gives, and that a write keeps the canonical form. -/

namespace Sys2Proof.Laws

open Sys2Proof.Machine

variable {w : Nat}

theorem wfFrom_cons {m : Memory w} {lo a : Nat} {v : BitVec w} :
    Memory.wfFrom lo ((a, v) :: m) = true ↔ lo ≤ a ∧ v ≠ 0 ∧ m.wfFrom (a + 1) = true := by
  simp only [Memory.wfFrom, Bool.and_eq_true, decide_eq_true_eq, and_assoc]

theorem wfFrom_mono {m : Memory w} {lo lo' : Nat} (h : lo' ≤ lo) (hm : m.wfFrom lo = true) : m.wfFrom lo' = true := by
  cases m with
  | nil => rfl
  | cons c m =>
    obtain ⟨a, v⟩ := c
    rw [wfFrom_cons] at hm ⊢
    exact ⟨by omega, hm.2⟩

theorem read_below {m : Memory w} {lo a : Nat} (hm : m.wfFrom lo = true) (ha : a < lo) : m.read a = 0 := by
  induction m generalizing lo with
  | nil => rfl
  | cons c m ih =>
    obtain ⟨b, v⟩ := c
    obtain ⟨hlo', hx, hm⟩ := wfFrom_cons.1 hm
    simp only [Memory.read, if_neg (show a ≠ b by omega)]
    exact ih hm (by omega)

theorem cons_wfFrom {m : Memory w} {lo a : Nat} {v : BitVec w} (hlo : lo ≤ a) (hm : m.wfFrom (a + 1) = true) :
    (Memory.cons a v m).wfFrom lo = true := by
  unfold Memory.cons
  split
  · exact wfFrom_mono (by omega) hm
  · rename_i hv
    exact wfFrom_cons.2 ⟨hlo, hv, hm⟩

theorem cons_read {m : Memory w} {a b : Nat} {v : BitVec w} (hm : m.wfFrom (a + 1) = true) :
    (Memory.cons a v m).read b = if b = a then v else m.read b := by
  unfold Memory.cons
  split
  · rename_i hv
    split
    · rename_i hb
      rw [hv, read_below hm (by omega)]
    · rfl
  · rfl

theorem write_wfFrom {m : Memory w} {lo a : Nat} {v : BitVec w} (hlo : lo ≤ a) (hm : m.wfFrom lo = true) :
    (m.write a v).wfFrom lo = true := by
  induction m generalizing lo with
  | nil => exact cons_wfFrom hlo rfl
  | cons c m ih =>
    obtain ⟨b, x⟩ := c
    obtain ⟨hlo', hx, hm⟩ := wfFrom_cons.1 hm
    simp only [Memory.write]
    split
    · exact cons_wfFrom hlo (wfFrom_cons.2 ⟨by omega, hx, hm⟩)
    · split
      · rename_i hab
        exact cons_wfFrom hlo (hab ▸ hm)
      · exact wfFrom_cons.2 ⟨hlo', hx, ih (show b + 1 ≤ a by omega) hm⟩

/-- Every write keeps the canonical form. -/
theorem write_wf {m : Memory w} (hm : m.wf = true) (a : Nat) (v : BitVec w) : (m.write a v).wf = true :=
  write_wfFrom (Nat.zero_le a) hm

theorem write_read_from {m : Memory w} {lo a b : Nat} {v : BitVec w} (hm : m.wfFrom lo = true) :
    (m.write a v).read b = if b = a then v else m.read b := by
  induction m generalizing lo with
  | nil => exact cons_read rfl
  | cons c m ih =>
    obtain ⟨k, x⟩ := c
    obtain ⟨hlo', hx, hm⟩ := wfFrom_cons.1 hm
    simp only [Memory.write]
    split
    · exact cons_read (wfFrom_cons.2 ⟨by omega, hx, hm⟩)
    · split
      · rename_i hak
        rw [cons_read (hak ▸ hm)]
        simp only [Memory.read, hak]
        split <;> rfl
      · simp only [Memory.read, ih hm]
        by_cases hbk : b = k
        · rw [if_pos hbk, if_pos hbk, if_neg (show ¬ b = a by omega)]
        · rw [if_neg hbk, if_neg hbk]

/-- A write sets its own address and leaves every other one alone. -/
theorem write_read {m : Memory w} (hm : m.wf = true) (a b : Nat) (v : BitVec w) :
    (m.write a v).read b = if b = a then v else m.read b := write_read_from hm

/-- The same of any list, sorted or not, at another address. -/
theorem write_read_other {m : Memory w} {a b : Nat} (v : BitVec w) (h : b ≠ a) : (m.write a v).read b = m.read b := by
  induction m with
  | nil => simp only [Memory.write, Memory.cons]; split <;> simp [Memory.read, h]
  | cons c m ih =>
    obtain ⟨k, x⟩ := c
    simp only [Memory.write, Memory.cons]
    split
    · split <;> simp [Memory.read, h]
    · split
      · rename_i hak
        split <;> simp [Memory.read, ← hak, h]
      · simp [Memory.read, ih]

theorem write_below {m : Memory w} {n a : Nat} (v : BitVec w) (ha : a < n) (hm : m.below n = true) :
    (m.write a v).below n = true := by
  induction m with
  | nil => simp only [Memory.write, Memory.cons]; split <;> simp [Memory.below, ha]
  | cons c m ih =>
    obtain ⟨k, x⟩ := c
    simp only [Memory.below, List.all_cons, Bool.and_eq_true, decide_eq_true_eq] at hm ih
    simp only [Memory.write, Memory.cons]
    split
    · split <;> simp only [Memory.below, List.all_cons, Bool.and_eq_true, decide_eq_true_eq] <;> tauto
    · split
      · split <;> simp only [Memory.below, List.all_cons, Bool.and_eq_true, decide_eq_true_eq] <;> tauto
      · simp only [Memory.below, List.all_cons, Bool.and_eq_true, decide_eq_true_eq]
        exact ⟨hm.1, ih hm.2⟩

theorem writeList_wf {m : Memory w} (hm : m.wf = true) (a : Nat) (vs : List (BitVec w)) :
    (m.writeList a vs).wf = true := by
  induction vs generalizing m a with
  | nil => exact hm
  | cons v vs ih => exact ih (write_wf hm a v) (a + 1)

theorem writeList_read_other {m : Memory w} {a b : Nat} {vs : List (BitVec w)} (h : b < a ∨ a + vs.length ≤ b) :
    (m.writeList a vs).read b = m.read b := by
  induction vs generalizing m a with
  | nil => rfl
  | cons v vs ih =>
    simp only [List.length_cons] at h
    rw [Memory.writeList, ih (by omega), write_read_other v (by omega)]

theorem writeList_read {m : Memory w} (hm : m.wf = true) (a : Nat) (vs : List (BitVec w)) (i : Nat) (hi : i < vs.length) :
    (m.writeList a vs).read (a + i) = vs[i] := by
  induction vs generalizing m a i with
  | nil => exact absurd hi (by simp)
  | cons v vs ih =>
    rw [Memory.writeList]
    cases i with
    | zero =>
      rw [writeList_read_other (by omega), write_read hm]
      simp
    | succ i =>
      have := ih (write_wf hm a v) (a + 1) i (by simpa using hi)
      rw [show a + (i + 1) = a + 1 + i by omega, this]
      simp

theorem writeEach_wf {m : Memory w} (hm : m.wf = true) (cs : List (Nat × BitVec w)) : (m.writeEach cs).wf = true := by
  induction cs generalizing m with
  | nil => exact hm
  | cons c cs ih => exact ih (write_wf hm c.1 c.2)

theorem writeEach_below {m : Memory w} {n : Nat} {cs : List (Nat × BitVec w)} (h : ∀ c ∈ cs, c.1 < n)
    (hm : m.below n = true) : (m.writeEach cs).below n = true := by
  induction cs generalizing m with
  | nil => exact hm
  | cons c cs ih =>
    exact ih (fun d hd => h d (List.mem_cons_of_mem _ hd)) (write_below c.2 (h c (List.mem_cons_self ..)) hm)

theorem writeEach_read_other {m : Memory w} {a : Nat} {cs : List (Nat × BitVec w)} (h : ∀ c ∈ cs, c.1 ≠ a) :
    (m.writeEach cs).read a = m.read a := by
  induction cs generalizing m with
  | nil => rfl
  | cons c cs ih =>
    rw [Memory.writeEach, ih fun d hd => h d (List.mem_cons_of_mem _ hd)]
    exact write_read_other c.2 fun e => h c (List.mem_cons_self ..) e.symm

/-- The last of the writes to an address is what it then holds. -/
theorem writeEach_read_last {m : Memory w} (hm : m.wf = true) (cs : List (Nat × BitVec w)) {a : Nat} (v : BitVec w)
    {ds : List (Nat × BitVec w)} (h : ∀ d ∈ ds, d.1 ≠ a) : (m.writeEach (cs ++ (a, v) :: ds)).read a = v := by
  induction cs generalizing m with
  | nil => exact (writeEach_read_other h).trans ((write_read hm a a v).trans (if_pos rfl))
  | cons c cs ih => exact ih (write_wf hm c.1 c.2)

/-! ### The register file (R33, R164) -/

theorem regSet_same (regs : RegFile) (r : Nibble) (d : Byte) : regAt (regSet regs r d) r = d := by
  simp [regAt, regSet, Vector.get_eq_getElem]

theorem regSet_other {regs : RegFile} {q r : Nibble} {d : Byte} (h : q ≠ r) :
    regAt (regSet regs r d) q = regAt regs q := by
  simp only [regAt, regSet, Vector.get_eq_getElem]
  exact Vector.getElem_set_ne _ _ fun e => h (BitVec.eq_of_toNat_eq e.symm)

end Sys2Proof.Laws
end

