-- ==== Sys2Proof/Laws/State.lean ====
section
/-! SUPPORT. What each small update of the state changes and keeps: one lemma per field and update, true by unfolding. -/

namespace Sys2Proof.Laws

open Sys2Proof.Machine

@[simp] theorem record_cfg (e : Event) (s : State) : (record e s).cfg = s.cfg := rfl
@[simp] theorem record_cpu (e : Event) (s : State) : (record e s).cpu = s.cpu := rfl
@[simp] theorem record_ticks (e : Event) (s : State) : (record e s).ticks = s.ticks := rfl
@[simp] theorem record_video (e : Event) (s : State) : (record e s).video = s.video := rfl
@[simp] theorem record_derived (e : Event) (s : State) : (record e s).derived = s.derived := rfl
@[simp] theorem record_display (e : Event) (s : State) : (record e s).display = s.display := rfl
@[simp] theorem record_host (e : Event) (s : State) : (record e s).host = s.host := rfl
@[simp] theorem record_trace (e : Event) (s : State) : (record e s).trace = e :: s.trace := rfl

@[simp] theorem setBus_cfg (p : Pins) (s : State) : (setBus p s).cfg = s.cfg := rfl
@[simp] theorem setBus_cpu (p : Pins) (s : State) : (setBus p s).cpu = s.cpu := rfl
@[simp] theorem setBus_ticks (p : Pins) (s : State) : (setBus p s).ticks = s.ticks := rfl
@[simp] theorem setBus_video (p : Pins) (s : State) : (setBus p s).video = s.video := rfl
@[simp] theorem setBus_derived (p : Pins) (s : State) : (setBus p s).derived = s.derived := rfl
@[simp] theorem setBus_display (p : Pins) (s : State) : (setBus p s).display = s.display := rfl
@[simp] theorem setBus_host (p : Pins) (s : State) : (setBus p s).host = { s.host with bus := p } := rfl
@[simp] theorem setBus_trace (p : Pins) (s : State) : (setBus p s).trace = s.trace := rfl

@[simp] theorem setVideo_cfg (v : Video) (s : State) : (setVideo v s).cfg = s.cfg := rfl
@[simp] theorem setVideo_cpu (v : Video) (s : State) : (setVideo v s).cpu = s.cpu := rfl
@[simp] theorem setVideo_ticks (v : Video) (s : State) : (setVideo v s).ticks = s.ticks := rfl
@[simp] theorem setVideo_video (v : Video) (s : State) : (setVideo v s).video = v := rfl
@[simp] theorem setVideo_derived (v : Video) (s : State) : (setVideo v s).derived = s.derived := rfl
@[simp] theorem setVideo_display (v : Video) (s : State) : (setVideo v s).display = s.display := rfl
@[simp] theorem setVideo_host (v : Video) (s : State) : (setVideo v s).host = s.host := rfl
@[simp] theorem setVideo_trace (v : Video) (s : State) : (setVideo v s).trace = s.trace := rfl

@[simp] theorem setPins_cfg (p : Pins) (s : State) : (setPins p s).cfg = s.cfg := rfl
@[simp] theorem setPins_cpu (p : Pins) (s : State) : (setPins p s).cpu = { s.cpu with pins := p } := rfl
@[simp] theorem setPins_ticks (p : Pins) (s : State) : (setPins p s).ticks = s.ticks := rfl
@[simp] theorem setPins_video (p : Pins) (s : State) : (setPins p s).video = s.video := rfl
@[simp] theorem setPins_derived (p : Pins) (s : State) : (setPins p s).derived = s.derived := rfl
@[simp] theorem setPins_display (p : Pins) (s : State) : (setPins p s).display = s.display := rfl
@[simp] theorem setPins_host (p : Pins) (s : State) : (setPins p s).host = s.host := rfl
@[simp] theorem setPins_trace (p : Pins) (s : State) : (setPins p s).trace = s.trace := rfl

@[simp] theorem syncDown_cpu (s : State) :
    (syncDown s).cpu = { s.cpu with pins := { s.cpu.pins with sync := false } } := rfl
@[simp] theorem syncDown_cfg (s : State) : (syncDown s).cfg = s.cfg := rfl
@[simp] theorem syncDown_ticks (s : State) : (syncDown s).ticks = s.ticks := rfl
@[simp] theorem syncDown_video (s : State) : (syncDown s).video = s.video := rfl
@[simp] theorem syncDown_derived (s : State) : (syncDown s).derived = s.derived := rfl
@[simp] theorem syncDown_display (s : State) : (syncDown s).display = s.display := rfl
@[simp] theorem syncDown_host (s : State) : (syncDown s).host = s.host := rfl
@[simp] theorem syncDown_trace (s : State) : (syncDown s).trace = s.trace := rfl

@[simp] theorem setCpu_cfg (c : Cpu) (s : State) : (setCpu c s).cfg = s.cfg := rfl
@[simp] theorem setCpu_cpu (c : Cpu) (s : State) : (setCpu c s).cpu = c := rfl
@[simp] theorem setCpu_ticks (c : Cpu) (s : State) : (setCpu c s).ticks = s.ticks := rfl
@[simp] theorem setCpu_video (c : Cpu) (s : State) : (setCpu c s).video = s.video := rfl
@[simp] theorem setCpu_derived (c : Cpu) (s : State) : (setCpu c s).derived = s.derived := rfl
@[simp] theorem setCpu_display (c : Cpu) (s : State) : (setCpu c s).display = s.display := rfl
@[simp] theorem setCpu_host (c : Cpu) (s : State) : (setCpu c s).host = s.host := rfl
@[simp] theorem setCpu_trace (c : Cpu) (s : State) : (setCpu c s).trace = s.trace := rfl

@[simp] theorem decSp_cfg (s : State) : (decSp s).cfg = s.cfg := rfl
@[simp] theorem decSp_cpu (s : State) : (decSp s).cpu = { s.cpu with sp := s.cpu.sp - 1 } := rfl
@[simp] theorem decSp_ticks (s : State) : (decSp s).ticks = s.ticks := rfl
@[simp] theorem decSp_video (s : State) : (decSp s).video = s.video := rfl
@[simp] theorem decSp_derived (s : State) : (decSp s).derived = s.derived := rfl
@[simp] theorem decSp_display (s : State) : (decSp s).display = s.display := rfl
@[simp] theorem decSp_host (s : State) : (decSp s).host = s.host := rfl
@[simp] theorem decSp_trace (s : State) : (decSp s).trace = s.trace := rfl

@[simp] theorem applyReply_cfg (s : State) : (applyReply s).cfg = s.cfg := rfl
@[simp] theorem applyReply_cpu (s : State) : (applyReply s).cpu = s.cpu := rfl
@[simp] theorem applyReply_ticks (s : State) : (applyReply s).ticks = s.ticks := rfl
@[simp] theorem applyReply_video (s : State) : (applyReply s).video = s.video := rfl
@[simp] theorem applyReply_derived (s : State) : (applyReply s).derived = s.derived := rfl
@[simp] theorem applyReply_display (s : State) : (applyReply s).display = s.display := rfl
@[simp] theorem applyReply_host (s : State) : (applyReply s).host =
    { s.host with
      bus := replyPins s.cfg s.host.replies s.host.bus
      mem := replyMem s.host.replies s.host.mem
      vmem := replyVmem s.host.replies s.host.vmem
      replies := s.host.replies.tail } := rfl
@[simp] theorem applyReply_trace (s : State) : (applyReply s).trace = s.trace := rfl

@[simp] theorem sendPins_cfg (s : State) : (sendPins s).cfg = s.cfg := rfl
@[simp] theorem sendPins_cpu (s : State) : (sendPins s).cpu = s.cpu := rfl
@[simp] theorem sendPins_ticks (s : State) : (sendPins s).ticks = s.ticks := rfl
@[simp] theorem sendPins_video (s : State) : (sendPins s).video = s.video := rfl
@[simp] theorem sendPins_derived (s : State) : (sendPins s).derived = s.derived := rfl
@[simp] theorem sendPins_display (s : State) : (sendPins s).display = s.display := rfl
@[simp] theorem sendPins_host (s : State) : (sendPins s).host = { s.host with bus := s.cpu.pins } := rfl
@[simp] theorem sendPins_trace (s : State) : (sendPins s).trace = .sent s.cpu.pins :: s.trace := rfl

@[simp] theorem takePins_cfg (s : State) : (takePins s).cfg = s.cfg := rfl
@[simp] theorem takePins_cpu (s : State) : (takePins s).cpu = { s.cpu with pins := s.host.bus } := rfl
@[simp] theorem takePins_ticks (s : State) : (takePins s).ticks = s.ticks + 1 := rfl
@[simp] theorem takePins_video (s : State) : (takePins s).video = s.video := rfl
@[simp] theorem takePins_derived (s : State) : (takePins s).derived = s.derived := rfl
@[simp] theorem takePins_display (s : State) : (takePins s).display = s.display := rfl
@[simp] theorem takePins_host (s : State) : (takePins s).host = s.host := rfl
@[simp] theorem takePins_trace (s : State) : (takePins s).trace = .returned s.host.bus :: s.trace := rfl

@[simp] theorem accessRead_cfg (r : Nibble) (s : State) : (accessRead r s).cfg = s.cfg := rfl
@[simp] theorem accessRead_cpu (r : Nibble) (s : State) : (accessRead r s).cpu = s.cpu := rfl
@[simp] theorem accessRead_ticks (r : Nibble) (s : State) : (accessRead r s).ticks = s.ticks := rfl
@[simp] theorem accessRead_video (r : Nibble) (s : State) : (accessRead r s).video = s.video := rfl
@[simp] theorem accessRead_derived (r : Nibble) (s : State) : (accessRead r s).derived = s.derived := rfl
@[simp] theorem accessRead_display (r : Nibble) (s : State) : (accessRead r s).display = s.display := rfl
@[simp] theorem accessRead_host (r : Nibble) (s : State) :
    (accessRead r s).host = { s.host with bus := { s.host.bus with data := readValue s.video r } } := rfl
@[simp] theorem accessRead_trace (r : Nibble) (s : State) :
    (accessRead r s).trace = .regRead r (readValue s.video r) :: s.trace := rfl

@[simp] theorem accessWrite_cfg (r : Nibble) (d : Byte) (s : State) : (accessWrite r d s).cfg = s.cfg := rfl
@[simp] theorem accessWrite_cpu (r : Nibble) (d : Byte) (s : State) : (accessWrite r d s).cpu = s.cpu := rfl
@[simp] theorem accessWrite_ticks (r : Nibble) (d : Byte) (s : State) : (accessWrite r d s).ticks = s.ticks := rfl
@[simp] theorem accessWrite_video (r : Nibble) (d : Byte) (s : State) :
    (accessWrite r d s).video = { s.video with regs := regSet s.video.regs r d } := rfl
@[simp] theorem accessWrite_derived (r : Nibble) (d : Byte) (s : State) :
    (accessWrite r d s).derived = derive s.cfg (regSet s.video.regs r d) := rfl
@[simp] theorem accessWrite_display (r : Nibble) (d : Byte) (s : State) : (accessWrite r d s).display = s.display := rfl
@[simp] theorem accessWrite_host (r : Nibble) (d : Byte) (s : State) : (accessWrite r d s).host = s.host := rfl
@[simp] theorem accessWrite_trace (r : Nibble) (d : Byte) (s : State) : (accessWrite r d s).trace = s.trace := rfl

@[simp] theorem videoReset_cfg (s : State) : (videoReset s).cfg = s.cfg := rfl
@[simp] theorem videoReset_cpu (s : State) : (videoReset s).cpu = s.cpu := rfl
@[simp] theorem videoReset_ticks (s : State) : (videoReset s).ticks = s.ticks := rfl
@[simp] theorem videoReset_video (s : State) : (videoReset s).video = s.cfg.videoReset := rfl
@[simp] theorem videoReset_derived (s : State) : (videoReset s).derived = derive s.cfg s.cfg.videoReset.regs := rfl
@[simp] theorem videoReset_display (s : State) : (videoReset s).display = s.display := rfl
@[simp] theorem videoReset_host (s : State) : (videoReset s).host = s.host := rfl
@[simp] theorem videoReset_trace (s : State) : (videoReset s).trace = s.trace := rfl

@[simp] theorem cpuReset_cfg (s : State) : (cpuReset s).cfg = s.cfg := rfl
@[simp] theorem cpuReset_breakMask (s : State) : (cpuReset s).cpu.breakMask = s.cpu.breakMask := rfl
@[simp] theorem cpuReset_ticks (s : State) : (cpuReset s).ticks = 0 := rfl
@[simp] theorem cpuReset_video (s : State) : (cpuReset s).video = s.video := rfl
@[simp] theorem cpuReset_derived (s : State) : (cpuReset s).derived = s.derived := rfl
@[simp] theorem cpuReset_display (s : State) : (cpuReset s).display = s.display := rfl
@[simp] theorem cpuReset_host (s : State) : (cpuReset s).host = s.host := rfl
@[simp] theorem cpuReset_trace (s : State) : (cpuReset s).trace = s.trace := rfl

@[simp] theorem entryFinish_cfg (lo hi : Byte) (s : State) : (entryFinish lo hi s).cfg = s.cfg := rfl
@[simp] theorem entryFinish_ticks (lo hi : Byte) (s : State) : (entryFinish lo hi s).ticks = s.ticks := rfl
@[simp] theorem entryFinish_video (lo hi : Byte) (s : State) : (entryFinish lo hi s).video = s.video := rfl
@[simp] theorem entryFinish_derived (lo hi : Byte) (s : State) : (entryFinish lo hi s).derived = s.derived := rfl
@[simp] theorem entryFinish_display (lo hi : Byte) (s : State) : (entryFinish lo hi s).display = s.display := rfl
@[simp] theorem entryFinish_host (lo hi : Byte) (s : State) : (entryFinish lo hi s).host = s.host := rfl
@[simp] theorem entryFinish_trace (lo hi : Byte) (s : State) : (entryFinish lo hi s).trace = s.trace := rfl
@[simp] theorem entryFinish_cpu (lo hi : Byte) (s : State) : (entryFinish lo hi s).cpu =
    { s.cpu with pc := hi ++ lo, p := setI s.cfg s.cpu.p,
                 pins := { s.cpu.pins with irq := false, nmi := false } } := rfl

end Sys2Proof.Laws
end

