-- ==== Sys2Proof/Laws/Tick.lean ====
section
/-! SUPPORT. What a video tick keeps, part by part, and what it does to the raster counters. -/

namespace Sys2Proof.Laws

open Sys2Proof.Machine Sys2Proof.Safety

@[simp] theorem sentVectors_sent (p : Pins) (tr : List Event) : sentVectors (.sent p :: tr) = sentVectors tr ++ [p] := rfl
@[simp] theorem sentVectors_returned (p : Pins) (tr : List Event) : sentVectors (.returned p :: tr) = sentVectors tr := rfl
@[simp] theorem sentVectors_fetched (a : Addr) (w : Word16) (tr : List Event) :
    sentVectors (.fetched a w :: tr) = sentVectors tr := rfl
@[simp] theorem sentVectors_regRead (r : Nibble) (d : Byte) (tr : List Event) :
    sentVectors (.regRead r d :: tr) = sentVectors tr := rfl
@[simp] theorem sentVectors_executed (n : Nat) (tr : List Event) : sentVectors (.executed n :: tr) = sentVectors tr := rfl
@[simp] theorem sentVectors_ticked (b : Bool) (tr : List Event) : sentVectors (.ticked b :: tr) = sentVectors tr := rfl
@[simp] theorem returnedVectors_returned (p : Pins) (tr : List Event) :
    returnedVectors (.returned p :: tr) = returnedVectors tr ++ [p] := rfl
@[simp] theorem returnedVectors_sent (p : Pins) (tr : List Event) : returnedVectors (.sent p :: tr) = returnedVectors tr := rfl
@[simp] theorem returnedVectors_fetched (a : Addr) (w : Word16) (tr : List Event) :
    returnedVectors (.fetched a w :: tr) = returnedVectors tr := rfl
@[simp] theorem returnedVectors_regRead (r : Nibble) (d : Byte) (tr : List Event) :
    returnedVectors (.regRead r d :: tr) = returnedVectors tr := rfl
@[simp] theorem returnedVectors_executed (n : Nat) (tr : List Event) :
    returnedVectors (.executed n :: tr) = returnedVectors tr := rfl
@[simp] theorem returnedVectors_ticked (b : Bool) (tr : List Event) :
    returnedVectors (.ticked b :: tr) = returnedVectors tr := rfl
@[simp] theorem fetchedAddrs_fetched (a : Addr) (w : Word16) (tr : List Event) :
    fetchedAddrs (.fetched a w :: tr) = fetchedAddrs tr ++ [a] := rfl
@[simp] theorem fetchedAddrs_ticked (b : Bool) (tr : List Event) : fetchedAddrs (.ticked b :: tr) = fetchedAddrs tr := rfl

/-- What the video engine never touches in a tick (R20, R32, R63, R120). -/
structure TickKept (s t : State) : Prop where
  cfg      : t.cfg = s.cfg
  cpu      : t.cpu = s.cpu
  ticks    : t.ticks = s.ticks
  derived  : t.derived = s.derived
  display  : t.display = s.display
  regs     : t.video.regs = s.video.regs
  mem      : t.host.mem = s.host.mem
  vmem     : t.host.vmem = s.host.vmem
  bus      : t.host.bus = s.host.bus
  replies  : t.host.replies = s.host.replies
  calls    : t.host.calls = s.host.calls
  sent     : sentVectors t.trace = sentVectors s.trace
  returned : returnedVectors t.trace = returnedVectors s.trace

theorem TickKept.refl (s : State) : TickKept s s := ⟨rfl, rfl, rfl, rfl, rfl, rfl, rfl, rfl, rfl, rfl, rfl, rfl, rfl⟩

theorem TickKept.trans {s t u : State} (h : TickKept s t) (k : TickKept t u) : TickKept s u :=
  ⟨k.cfg.trans h.cfg, k.cpu.trans h.cpu, k.ticks.trans h.ticks, k.derived.trans h.derived, k.display.trans h.display,
   k.regs.trans h.regs, k.mem.trans h.mem, k.vmem.trans h.vmem, k.bus.trans h.bus, k.replies.trans h.replies,
   k.calls.trans h.calls, k.sent.trans h.sent, k.returned.trans h.returned⟩

theorem pixelProduction_kept (s : State) : TickKept s (pixelProduction s) := by
  unfold pixelProduction
  split <;> constructor <;> rfl

theorem atLeft_regs (d : Derived) (v : Video) : (atLeft d v).regs = v.regs := by unfold atLeft; split <;> rfl
theorem afterLeft_regs (d : Derived) (v : Video) : (afterLeft d v).regs = v.regs := by unfold afterLeft; split <;> rfl
theorem afterRight_regs (d : Derived) (v : Video) : (afterRight d v).regs = v.regs := by unfold afterRight; split <;> rfl

theorem transitions_regs (d : Derived) (v : Video) : (transitions d v).regs = v.regs := by
  rw [transitions, afterRight_regs, afterLeft_regs, atLeft_regs]

theorem borderTransitions_kept (s : State) : TickKept s (borderTransitions s) :=
  ⟨rfl, rfl, rfl, rfl, rfl, transitions_regs _ _, rfl, rfl, rfl, rfl, rfl, rfl, rfl⟩

theorem fetchLoad_regs (n : Nat) (w : Word16) (v : Video) : (fetchLoad n w v).regs = v.regs := by
  unfold fetchLoad; split <;> rfl

theorem fetchStep_kept (s : State) : TickKept s (fetchStep s) := by
  unfold fetchStep
  split
  · exact ⟨rfl, rfl, rfl, rfl, rfl, fetchLoad_regs _ _ _, rfl, rfl, rfl, rfl, rfl, rfl, rfl⟩
  · exact TickKept.refl s

theorem rowStep_regs (rh : RowHeight) (v : Video) : (rowStep rh v).regs = v.regs := by unfold rowStep; split <;> rfl
theorem topStep_regs (n : Nat) (v : Video) : (topStep n v).regs = v.regs := by unfold topStep; split <;> rfl
theorem bottomStep_regs (n : Nat) (v : Video) : (bottomStep n v).regs = v.regs := by unfold bottomStep; split <;> rfl
theorem wrapStep_regs (n : Nat) (v : Video) : (wrapStep n v).regs = v.regs := by unfold wrapStep; split <;> rfl

theorem endOfLine_regs (c : Config) (d : Derived) (v : Video) : (endOfLine c d v).regs = v.regs := by
  rw [endOfLine, wrapStep_regs, bottomStep_regs, topStep_regs]
  exact rowStep_regs _ _

theorem advance_regs (c : Config) (d : Derived) (v : Video) : (advance c d v).regs = v.regs := by
  unfold advance
  split
  · exact endOfLine_regs _ _ _
  · rfl

theorem advanceCounters_kept (s : State) : TickKept s (advanceCounters s) :=
  ⟨rfl, rfl, rfl, rfl, rfl, advance_regs _ _ _, rfl, rfl, rfl, rfl, rfl, rfl, rfl⟩

/-- The state the counters start from. -/
def beforeAdvance (s : State) : State := fetchStep (borderTransitions (pixelProduction s))

theorem beforeAdvance_kept (s : State) : TickKept s (beforeAdvance s) :=
  ((pixelProduction_kept s).trans (borderTransitions_kept _)).trans (fetchStep_kept _)

theorem vtick_eq (s : State) : vtick s = record (.ticked false) (advanceCounters (beforeAdvance s)) := rfl

theorem vtick_video (s : State) :
    (vtick s).video = advance s.cfg s.derived (beforeAdvance s).video := by
  have k := beforeAdvance_kept s
  rw [vtick_eq, record_video, advanceCounters, setVideo_video, k.cfg, k.derived]

/-- What a tick keeps. -/
theorem vtick_kept (s : State) : TickKept s (vtick s) :=
  (beforeAdvance_kept s).trans ((advanceCounters_kept _).trans ⟨rfl, rfl, rfl, rfl, rfl, rfl, rfl, rfl, rfl, rfl, rfl, rfl, rfl⟩)

theorem videoTicks_kept (n : Nat) (s : State) : TickKept s (videoTicks n s) := by
  induction n generalizing s with
  | zero => exact TickKept.refl s
  | succ n ih => exact (vtick_kept s).trans (ih _)

theorem owedTicks_kept (s : State) : TickKept s (owedTicks s) := videoTicks_kept _ s

/-! ### The raster counters -/

/-- The parts before the counters leave `h`, `v`, `rc`, the row count, the row base, the beam and the vertical bits
alone. -/
structure RasterKept (x y : Video) : Prop where
  h        : y.h = x.h
  v        : y.v = x.v
  vcBase   : y.vcBase = x.vcBase
  rc       : y.rc = x.rc
  rowCount : y.rowCount = x.rowCount
  crtX     : y.crtX = x.crtX
  crtY     : y.crtY = x.crtY
  borderV  : y.border.v = x.border.v
  disableV : y.disable.v = x.disable.v

theorem RasterKept.refl (v : Video) : RasterKept v v := ⟨rfl, rfl, rfl, rfl, rfl, rfl, rfl, rfl, rfl⟩

theorem RasterKept.trans {u v w : Video} (h : RasterKept u v) (k : RasterKept v w) : RasterKept u w :=
  ⟨k.h.trans h.h, k.v.trans h.v, k.vcBase.trans h.vcBase, k.rc.trans h.rc, k.rowCount.trans h.rowCount,
   k.crtX.trans h.crtX, k.crtY.trans h.crtY, k.borderV.trans h.borderV, k.disableV.trans h.disableV⟩

theorem pixelProduction_raster (s : State) : RasterKept s.video (pixelProduction s).video := by
  unfold pixelProduction
  split
  · exact ⟨rfl, rfl, rfl, rfl, rfl, rfl, rfl, rfl, rfl⟩
  · exact RasterKept.refl _

theorem transitions_raster (d : Derived) (v : Video) : RasterKept v (transitions d v) := by
  have h1 : RasterKept v (atLeft d v) := by
    unfold atLeft; split
    · exact ⟨rfl, rfl, rfl, rfl, rfl, rfl, rfl, rfl, rfl⟩
    · exact RasterKept.refl _
  have h2 (u : Video) : RasterKept u (afterLeft d u) := by
    unfold afterLeft; split
    · exact ⟨rfl, rfl, rfl, rfl, rfl, rfl, rfl, rfl, rfl⟩
    · exact RasterKept.refl _
  have h3 (u : Video) : RasterKept u (afterRight d u) := by
    unfold afterRight; split
    · exact ⟨rfl, rfl, rfl, rfl, rfl, rfl, rfl, rfl, rfl⟩
    · exact RasterKept.refl _
  exact (h1.trans (h2 _)).trans (h3 _)

theorem fetchStep_raster (s : State) : RasterKept s.video (fetchStep s).video := by
  unfold fetchStep
  split
  · simp only [setVideo_video]
    unfold fetchLoad
    split <;> exact ⟨rfl, rfl, rfl, rfl, rfl, rfl, rfl, rfl, rfl⟩
  · exact RasterKept.refl _

theorem beforeAdvance_raster (s : State) : RasterKept s.video (beforeAdvance s).video :=
  ((pixelProduction_raster s).trans (transitions_raster _ _)).trans (fetchStep_raster (borderTransitions (pixelProduction s)))

theorem rowStep_v (rh : RowHeight) (v : Video) : (rowStep rh v).v = v.v + 1 := by unfold rowStep; split <;> rfl
theorem topStep_v (n : Nat) (v : Video) : (topStep n v).v = v.v := by unfold topStep; split <;> rfl
theorem bottomStep_v (n : Nat) (v : Video) : (bottomStep n v).v = v.v := by unfold bottomStep; split <;> rfl

/-- The vertical counter after a line (R210, R221). -/
theorem endOfLine_v (c : Config) (d : Derived) (v : Video) :
    (endOfLine c d v).v = if v.v + 1 = c.totalLines then 0 else v.v + 1 := by
  have e : (bottomStep d.bottom (topStep d.top (beamStep c.retraceLine (rowStep d.rowHeight v)))).v = v.v + 1 := by
    rw [bottomStep_v, topStep_v]; exact rowStep_v _ _
  unfold endOfLine wrapStep
  rw [e]
  split
  · rfl
  · exact e

/-- A field that the row, top, bottom and wrap steps leave alone comes out as the beam step makes it. -/
theorem endOfLine_beam (c : Config) (d : Derived) (v : Video) :
    (endOfLine c d v).h = v.h ∧ (endOfLine c d v).crtX = 0 ∧
    (endOfLine c d v).crtY = if v.v + 1 = c.retraceLine then 0 else v.crtY + 1 := by
  have w (u : Video) : (wrapStep c.totalLines u).h = u.h ∧ (wrapStep c.totalLines u).crtX = u.crtX ∧
      (wrapStep c.totalLines u).crtY = u.crtY := by unfold wrapStep; split <;> exact ⟨rfl, rfl, rfl⟩
  have b (u : Video) : (bottomStep d.bottom u).h = u.h ∧ (bottomStep d.bottom u).crtX = u.crtX ∧
      (bottomStep d.bottom u).crtY = u.crtY := by unfold bottomStep; split <;> exact ⟨rfl, rfl, rfl⟩
  have t (u : Video) : (topStep d.top u).h = u.h ∧ (topStep d.top u).crtX = u.crtX ∧
      (topStep d.top u).crtY = u.crtY := by unfold topStep; split <;> exact ⟨rfl, rfl, rfl⟩
  have r : (rowStep d.rowHeight v).h = v.h ∧ (rowStep d.rowHeight v).crtY = v.crtY := by
    unfold rowStep; split <;> exact ⟨rfl, rfl⟩
  unfold endOfLine
  refine ⟨?_, ?_, ?_⟩
  · rw [(w _).1, (b _).1, (t _).1]; exact r.1
  · rw [(w _).2.1, (b _).2.1, (t _).2.1]; rfl
  · rw [(w _).2.2, (b _).2.2, (t _).2.2]
    simp only [beamStep, rowStep_v, r.2]

/-- `h` and `v` after a tick (R208, R210, R221). -/
theorem vtick_hv (s : State) :
    (vtick s).video.h = (if s.video.h + 1 = s.cfg.totalColumns then 0 else s.video.h + 1) ∧
    (vtick s).video.v =
      (if s.video.h + 1 = s.cfg.totalColumns then (if s.video.v + 1 = s.cfg.totalLines then 0 else s.video.v + 1)
       else s.video.v) := by
  have r := beforeAdvance_raster s
  rw [vtick_video]
  unfold advance
  simp only [r.h]
  split
  · rw [(endOfLine_beam _ _ _).1, endOfLine_v]
    exact ⟨rfl, by rw [r.v]⟩
  · exact ⟨rfl, r.v⟩

/-- The row base is even after a row end (R211). -/
theorem masked_even (x : VCount) : (x &&& 0x7FE).getLsbD 0 = false := by
  rw [BitVec.getLsbD_and]
  simp

theorem endOfLine_even (c : Config) (d : Derived) (v : Video) (h : v.vcBase.getLsbD 0 = false) :
    (endOfLine c d v).vcBase.getLsbD 0 = false := by
  have w (u : Video) : (wrapStep c.totalLines u).vcBase = u.vcBase := by unfold wrapStep; split <;> rfl
  have b (u : Video) : (bottomStep d.bottom u).vcBase = u.vcBase := by unfold bottomStep; split <;> rfl
  have r : (beamStep c.retraceLine (rowStep d.rowHeight v)).vcBase.getLsbD 0 = false := by
    show (rowStep d.rowHeight v).vcBase.getLsbD 0 = false
    unfold rowStep
    split
    · exact masked_even _
    · exact h
  unfold endOfLine
  rw [w, b]
  unfold topStep
  split
  · exact BitVec.getLsbD_zero
  · exact r

theorem vtick_even (s : State) (h : s.video.vcBase.getLsbD 0 = false) : (vtick s).video.vcBase.getLsbD 0 = false := by
  have r := beforeAdvance_raster s
  rw [vtick_video]
  unfold advance
  split
  · exact endOfLine_even _ _ _ (by rw [r.vcBase]; exact h)
  · rw [r.vcBase]; exact h

/-! ### The frame buffer -/

/-- Only pixel production writes the frame buffer. -/
theorem vtick_frame_eq (s : State) : (vtick s).host.frame = (pixelProduction s).host.frame := by
  have h2 (u : State) : (fetchStep u).host.frame = u.host.frame := by
    unfold fetchStep
    split <;> rfl
  rw [vtick_eq, record_host]
  exact h2 _

theorem vtick_frame_wf (s : State) (h : s.host.frame.wf = true) : (vtick s).host.frame.wf = true := by
  rw [vtick_frame_eq]
  unfold pixelProduction
  split
  · exact writeList_wf h _ _
  · exact h

theorem burst_length (s : State) : (burst s).length = 4 := by
  unfold burst; split <;> rfl

end Sys2Proof.Laws
end

