-- ==== Sys2Proof/Laws/Exchange.lean ====
section
/-! SUPPORT. What a served cycle, the host's tick function and an exchange do, each said once. -/

namespace Sys2Proof.Laws

open Sys2Proof.Machine Sys2Proof.Safety

@[simp] theorem linesOn_rw (p : Pins) : linesOn [.rw] p = { p with rw := true } := rfl
@[simp] theorem linesOff_rw (p : Pins) : linesOff [.rw] p = { p with rw := false } := rfl
@[simp] theorem linesOn_sync (p : Pins) : linesOn [.sync] p = { p with sync := true } := rfl
@[simp] theorem linesOff_sync (p : Pins) : linesOff [.sync] p = { p with sync := false } := rfl
@[simp] theorem linesOff_interrupts (p : Pins) : linesOff [.irq, .nmi] p = { p with irq := false, nmi := false } := rfl

/-! ### The served cycle (R231) -/

/-- The byte a read cycle with vector `p` brings: the video chip's, in state `v` of it, or memory's (R231). -/
def readByte (c : Config) (v : Video) (m : Memory 8) (p : Pins) : Byte :=
  if busSelect c p.addr = true then readValue v (regIndex p.addr) else m.read p.addr.toNat

/-- What the cycle's server makes of the vector, memory and the register file. -/
theorem serveCycle_kept (s : State) :
    (serveCycle s).cfg = s.cfg ∧ (serveCycle s).cpu = s.cpu ∧ (serveCycle s).ticks = s.ticks ∧
    (serveCycle s).display = s.display ∧ (serveCycle s).host.vmem = s.host.vmem ∧
    (serveCycle s).host.frame = s.host.frame ∧ (serveCycle s).host.replies = s.host.replies ∧
    (serveCycle s).host.calls = s.host.calls ∧ sentVectors (serveCycle s).trace = sentVectors s.trace ∧
    returnedVectors (serveCycle s).trace = returnedVectors s.trace ∧
    (serveCycle s).video = { s.video with regs := (serveCycle s).video.regs } := by
  unfold serveCycle videoAccess memoryCycle
  split <;> split <;> exact ⟨rfl, rfl, rfl, rfl, rfl, rfl, rfl, rfl, rfl, rfl, rfl⟩

theorem serveCycle_mem (s : State) :
    (serveCycle s).host.mem =
      if busSelect s.cfg s.host.bus.addr = true ∨ s.host.bus.rw = true then s.host.mem
      else s.host.mem.write s.host.bus.addr.toNat s.host.bus.data := by
  unfold serveCycle videoAccess memoryCycle
  split <;> split <;> simp_all

theorem serveCycle_regs (s : State) :
    (serveCycle s).video.regs =
      if busSelect s.cfg s.host.bus.addr = true ∧ s.host.bus.rw = false then
        regSet s.video.regs (regIndex s.host.bus.addr) s.host.bus.data
      else s.video.regs := by
  unfold serveCycle videoAccess memoryCycle
  split <;> split <;> simp_all

theorem serveCycle_derived (s : State) :
    (serveCycle s).derived =
      if busSelect s.cfg s.host.bus.addr = true ∧ s.host.bus.rw = false then derive s.cfg (serveCycle s).video.regs
      else s.derived := by
  unfold serveCycle videoAccess memoryCycle
  split <;> split <;> simp_all

theorem serveCycle_bus (s : State) :
    (serveCycle s).host.bus =
      if s.host.bus.rw = true then
        { s.host.bus with data := readByte s.cfg s.video s.host.mem s.host.bus }
      else s.host.bus := by
  unfold serveCycle videoAccess memoryCycle readByte
  split <;> split <;> simp_all

/-! ### The host's own changes (R66, R118, R230) -/

theorem replyMem_wf {m : Memory 8} (hm : m.wf = true) (rs : List Reply) : (replyMem rs m).wf = true := by
  cases rs with
  | nil => exact hm
  | cons r rs => exact writeEach_wf hm _

theorem replyMem_below {m : Memory 8} (hm : m.below 65536 = true) (rs : List Reply) :
    (replyMem rs m).below 65536 = true := by
  cases rs with
  | nil => exact hm
  | cons r rs =>
    refine writeEach_below (fun c hc => ?_) hm
    obtain ⟨x, -, rfl⟩ := List.mem_map.1 hc
    exact x.1.isLt

theorem replyMem_read {rs : List Reply} {a : Nat} (h : repliesSpare (rs.take 1) a) (m : Memory 8) :
    (replyMem rs m).read a = m.read a := by
  cases rs with
  | nil => rfl
  | cons r rs =>
    refine writeEach_read_other fun c hc => ?_
    obtain ⟨x, hx, rfl⟩ := List.mem_map.1 hc
    exact h r (List.mem_singleton.2 rfl) x hx

theorem replyVmem_wf {m : Memory 16} (hm : m.wf = true) (rs : List Reply) : (replyVmem rs m).wf = true := by
  cases rs with
  | nil => exact hm
  | cons r rs => exact writeEach_wf hm _

theorem replyVmem_read {rs : List Reply} {a : Nat} (h : repliesSpareVideo (rs.take 1) a) (m : Memory 16) :
    (replyVmem rs m).read a = m.read a := by
  cases rs with
  | nil => rfl
  | cons r rs => exact writeEach_read_other fun c hc => h r (List.mem_singleton.2 rfl) c hc

/-- What the host drives has the vector's width (R96). -/
theorem replyPins_fits (c : Config) (rs : List Reply) {p : Pins} (h : p.other < 2 ^ otherLines c) :
    (replyPins c rs p).other < 2 ^ otherLines c := by
  cases rs with
  | nil => exact h
  | cons r rs =>
    show ((r.other.map (fitOther c)).getD p.other) < _
    cases r.other with
    | none => exact h
    | some n => exact Nat.mod_lt _ (Nat.two_pow_pos _)

/-! ### The host's tick function (R118, R231 to R233) -/

/-- The state whose video chip serves the cycle: after the owed ticks with `TickFirst`, before them otherwise (R232). -/
def served (s : State) : State :=
  match s.cfg.arbOrder with
  | .tickFirst => owedTicks s
  | .accessFirst => s

theorem served_kept (s : State) : TickKept s (served s) := by
  unfold served
  split
  · exact owedTicks_kept s
  · exact TickKept.refl s

/-- All that `HostTick` does outside the raster counters, the fetch queue and the frame buffer. -/
structure HostTicked (s t : State) : Prop where
  cfg      : t.cfg = s.cfg
  cpu      : t.cpu = s.cpu
  ticks    : t.ticks = s.ticks
  display  : t.display = s.display
  vmem     : t.host.vmem = replyVmem s.host.replies s.host.vmem
  calls    : t.host.calls = s.host.calls
  replies  : t.host.replies = s.host.replies.tail
  sent     : sentVectors t.trace = sentVectors s.trace
  returned : returnedVectors t.trace = returnedVectors s.trace
  mem      : t.host.mem = replyMem s.host.replies
    (if busSelect s.cfg s.host.bus.addr = true ∨ s.host.bus.rw = true then s.host.mem
    else s.host.mem.write s.host.bus.addr.toNat s.host.bus.data)
  regs     : t.video.regs =
    if busSelect s.cfg s.host.bus.addr = true ∧ s.host.bus.rw = false then
      regSet s.video.regs (regIndex s.host.bus.addr) s.host.bus.data
    else s.video.regs
  derived  : t.derived =
    if busSelect s.cfg s.host.bus.addr = true ∧ s.host.bus.rw = false then derive s.cfg t.video.regs else s.derived
  bus      : t.host.bus = replyPins s.cfg s.host.replies
    (if s.host.bus.rw = true then
      { s.host.bus with data := readByte s.cfg (served s).video s.host.mem s.host.bus }
    else s.host.bus)

theorem hostTick_spec (s : State) : HostTicked s (hostTick s) := by
  unfold hostTick
  split
  · rename_i ho
    have k := owedTicks_kept s
    have c := serveCycle_kept (owedTicks s)
    have e : served s = owedTicks s := by unfold served; rw [ho]
    obtain ⟨c1, c2, c3, c4, c5, -, c7, c8, c9, c10, -⟩ := c
    refine ⟨?_, ?_, ?_, ?_, ?_, ?_, ?_, ?_, ?_, ?_, ?_, ?_, ?_⟩
    · rw [applyReply_cfg, c1, k.cfg]
    · rw [applyReply_cpu, c2, k.cpu]
    · rw [applyReply_ticks, c3, k.ticks]
    · rw [applyReply_display, c4, k.display]
    · rw [applyReply_host]; show replyVmem _ _ = _; rw [c7, k.replies, c5, k.vmem]
    · rw [applyReply_host]; exact c8.trans k.calls
    · rw [applyReply_host]; show _ = _; rw [c7, k.replies]
    · rw [applyReply_trace, c9, k.sent]
    · rw [applyReply_trace, c10, k.returned]
    · rw [applyReply_host]; show replyMem _ (serveCycle (owedTicks s)).host.mem = _
      rw [c7, k.replies, serveCycle_mem, k.cfg, k.bus, k.mem]
    · rw [applyReply_video, serveCycle_regs, k.cfg, k.bus, k.regs]
    · rw [applyReply_derived, applyReply_video, serveCycle_derived, k.cfg, k.bus, k.derived]
    · rw [applyReply_host]
      show replyPins (serveCycle (owedTicks s)).cfg (serveCycle (owedTicks s)).host.replies _ = _
      rw [serveCycle_bus, c1, c7, k.replies, k.cfg, k.bus, k.mem, e]
  · rename_i ho
    have k := owedTicks_kept (serveCycle s)
    have e : served s = s := by unfold served; rw [ho]
    obtain ⟨c1, c2, c3, c4, c5, -, c7, c8, c9, c10, -⟩ := serveCycle_kept s
    refine ⟨?_, ?_, ?_, ?_, ?_, ?_, ?_, ?_, ?_, ?_, ?_, ?_, ?_⟩
    · rw [applyReply_cfg, k.cfg, c1]
    · rw [applyReply_cpu, k.cpu, c2]
    · rw [applyReply_ticks, k.ticks, c3]
    · rw [applyReply_display, k.display, c4]
    · rw [applyReply_host]; show replyVmem _ _ = _; rw [k.replies, c7, k.vmem, c5]
    · rw [applyReply_host]; exact k.calls.trans c8
    · rw [applyReply_host]; show _ = _; rw [k.replies, c7]
    · rw [applyReply_trace, k.sent, c9]
    · rw [applyReply_trace, k.returned, c10]
    · rw [applyReply_host]; show replyMem _ (owedTicks (serveCycle s)).host.mem = _
      rw [k.replies, c7, k.mem, serveCycle_mem]
    · rw [applyReply_video, k.regs, serveCycle_regs]
    · rw [applyReply_derived, applyReply_video, k.derived, k.regs, serveCycle_derived]
    · rw [applyReply_host]
      show replyPins (owedTicks (serveCycle s)).cfg (owedTicks (serveCycle s)).host.replies _ = _
      rw [k.cfg, c1, k.replies, k.bus, serveCycle_bus, c7, e]

/-! ### The exchange (R115) -/

/-- All that an exchange does outside the raster counters, the fetch queue and the frame buffer. -/
structure Exchanged (s t : State) : Prop where
  cfg      : t.cfg = s.cfg
  cpu      : t.cpu = { s.cpu with pins := t.cpu.pins }
  ticks    : t.ticks = s.ticks + 1
  display  : t.display = s.display
  vmem     : t.host.vmem = replyVmem s.host.replies s.host.vmem
  calls    : t.host.calls = s.host.calls
  replies  : t.host.replies = s.host.replies.tail
  sent     : sentVectors t.trace = sentVectors s.trace ++ [s.cpu.pins]
  returned : returnedVectors t.trace = returnedVectors s.trace ++ [t.cpu.pins]
  mem      : t.host.mem = replyMem s.host.replies
    (if busSelect s.cfg s.cpu.pins.addr = true ∨ s.cpu.pins.rw = true then s.host.mem
    else s.host.mem.write s.cpu.pins.addr.toNat s.cpu.pins.data)
  regs     : t.video.regs =
    if busSelect s.cfg s.cpu.pins.addr = true ∧ s.cpu.pins.rw = false then
      regSet s.video.regs (regIndex s.cpu.pins.addr) s.cpu.pins.data
    else s.video.regs
  derived  : t.derived =
    if busSelect s.cfg s.cpu.pins.addr = true ∧ s.cpu.pins.rw = false then derive s.cfg t.video.regs else s.derived
  bus      : t.host.bus = t.cpu.pins
  pins     : t.cpu.pins = replyPins s.cfg s.host.replies
    (if s.cpu.pins.rw = true then
      { s.cpu.pins with data := readByte s.cfg (served (sendPins s)).video s.host.mem s.cpu.pins }
    else s.cpu.pins)

theorem exchange_spec (s : State) : Exchanged s (exchange s) := by
  have h := hostTick_spec (sendPins s)
  have hp : (exchange s).cpu.pins = (hostTick (sendPins s)).host.bus := rfl
  refine ⟨h.cfg, ?_, ?_, h.display, h.vmem, h.calls, h.replies, ?_, ?_, h.mem, h.regs, h.derived, rfl, ?_⟩
  · show { (hostTick (sendPins s)).cpu with pins := (hostTick (sendPins s)).host.bus } = _
    rw [h.cpu]; rfl
  · show (hostTick (sendPins s)).ticks + 1 = _
    rw [h.ticks]; rfl
  · show sentVectors (hostTick (sendPins s)).trace = _
    rw [h.sent]; rfl
  · show returnedVectors (hostTick (sendPins s)).trace ++ [(hostTick (sendPins s)).host.bus] = _
    rw [h.returned, hp]; rfl
  · rw [hp, h.bus]; rfl

/-- `breakMask` and every register but the snapshot are an exchange's to keep. -/
theorem Exchanged.regsKept {s t : State} (h : Exchanged s t) : CpuRegsKept s t := by
  have c := h.cpu
  refine ⟨?_, ?_, ?_, ?_, ?_, ?_, ?_⟩ <;> rw [c]

/-- With `TickFirst` a read sees the chip as the exchange leaves it (R232). -/
theorem served_tickFirst (s : State) (h : s.cfg.arbOrder = .tickFirst) (hr : s.cpu.pins.rw = true) :
    (served (sendPins s)).video = (exchange s).video := by
  have e : served (sendPins s) = owedTicks (sendPins s) := by unfold served; rw [sendPins_cfg, h]
  have k := owedTicks_kept (sendPins s)
  have x : (exchange s).video = (serveCycle (owedTicks (sendPins s))).video := by
    show (hostTick (sendPins s)).video = _
    unfold hostTick
    rw [sendPins_cfg, h]
    rfl
  have y := (serveCycle_kept (owedTicks (sendPins s))).2.2.2.2.2.2.2.2.2.2
  have z := serveCycle_regs (owedTicks (sendPins s))
  have hb : (owedTicks (sendPins s)).host.bus.rw = true := by rw [k.bus]; exact hr
  rw [if_neg (by simp [hb])] at z
  rw [e, x, y, z]

/-! ### Invariants of an exchange -/

theorem serveCycle_rasterRange (s : State) : (serveCycle s).video.h = s.video.h ∧ (serveCycle s).video.v = s.video.v ∧
    (serveCycle s).video.vcBase = s.video.vcBase := by
  rw [(serveCycle_kept s).2.2.2.2.2.2.2.2.2.2]
  exact ⟨rfl, rfl, rfl⟩

/-- What holds of a state's video counters and parameters, and what every tick keeps, an exchange keeps: the shape of
every invariant of the raster unit. -/
theorem exchange_videoInv (P : Config → Video → Prop) (hregs : ∀ c v r, P c v → P c { v with regs := r })
    (htick : ∀ s, P s.cfg s.video → P s.cfg (vtick s).video) (s : State) (h : P s.cfg s.video) :
    P (exchange s).cfg (exchange s).video := by
  have ticks (n : Nat) (u : State) (hu : P u.cfg u.video) : P u.cfg (videoTicks n u).video := by
    induction n generalizing u with
    | zero => exact hu
    | succ n ih =>
      have := ih (vtick u) (by rw [(vtick_kept u).cfg]; exact htick u hu)
      rwa [(vtick_kept u).cfg] at this
  have serve (u : State) (hu : P u.cfg u.video) : P u.cfg (serveCycle u).video := by
    rw [(serveCycle_kept u).2.2.2.2.2.2.2.2.2.2]
    exact hregs _ _ _ hu
  rw [(exchange_spec s).cfg]
  show P s.cfg (hostTick (sendPins s)).video
  unfold hostTick
  split
  · have a := ticks (sendPins s).cfg.ticksPerCpuTick (sendPins s) h
    have b := serve (owedTicks (sendPins s)) (by rw [(owedTicks_kept _).cfg]; exact a)
    rw [(owedTicks_kept _).cfg] at b
    exact b
  · have a := serve (sendPins s) h
    have c : (serveCycle (sendPins s)).cfg = s.cfg := (serveCycle_kept _).1
    have b := ticks (serveCycle (sendPins s)).cfg.ticksPerCpuTick (serveCycle (sendPins s)) (by rw [c]; exact a)
    exact c ▸ b

theorem videoTicks_frame_wf (n : Nat) (s : State) (h : s.host.frame.wf = true) :
    (videoTicks n s).host.frame.wf = true := by
  induction n generalizing s with
  | zero => exact h
  | succ n ih => exact ih _ (vtick_frame_wf s h)

theorem exchange_frame_wf (s : State) (h : s.host.frame.wf = true) : (exchange s).host.frame.wf = true := by
  show (hostTick (sendPins s)).host.frame.wf = true
  unfold hostTick
  split
  · show (serveCycle _).host.frame.wf = true
    rw [(serveCycle_kept _).2.2.2.2.2.1]
    exact videoTicks_frame_wf _ _ h
  · show (owedTicks _).host.frame.wf = true
    exact videoTicks_frame_wf _ _ (by rw [(serveCycle_kept _).2.2.2.2.2.1]; exact h)

/-- An exchange keeps the memories canonical. -/
theorem exchange_memoryCanonical (s : State) (h : MemoryCanonical s) : MemoryCanonical (exchange s) := by
  have x := exchange_spec s
  obtain ⟨h1, h2, h3, h4⟩ := h
  refine ⟨?_, ?_, ?_, exchange_frame_wf s h4⟩
  · rw [x.mem]; refine replyMem_wf ?_ _; split
    · exact h1
    · exact write_wf h1 _ _
  · rw [x.mem]; refine replyMem_below ?_ _; split
    · exact h2
    · exact write_below _ (s.cpu.pins.addr.isLt) h2
  · rw [x.vmem]; exact replyVmem_wf h3 _

/-- An exchange keeps every vector within `PIN_BITS`. -/
theorem exchange_vectorsFit (s : State) (h : VectorsFit s) : VectorsFit (exchange s) := by
  have x := exchange_spec s
  obtain ⟨h1, h2, h3, h4⟩ := h
  have hp : (exchange s).cpu.pins.other < 2 ^ otherLines s.cfg := by
    rw [x.pins]
    refine replyPins_fits _ _ ?_
    split <;> exact h2
  unfold VectorsFit
  rw [x.cfg, x.bus, x.regsKept.2.2.2.2.2.2]
  exact ⟨h1, hp, hp, h4⟩

/-- An exchange keeps the derived fields current (R35, R176). -/
theorem exchange_derivedCurrent (s : State) (h : DerivedCurrent s) : DerivedCurrent (exchange s) := by
  have x := exchange_spec s
  unfold DerivedCurrent at *
  rw [x.derived, x.cfg]
  split
  · rfl
  · rename_i hb
    rw [x.regs, if_neg hb]
    exact h

end Sys2Proof.Laws
end

