-- ==== Sys2Proof/Laws/Pins.lean ====
section
/-! SUPPORT. What setting control lines does to a vector (R114), and that it stays within `PIN_BITS` (R96). -/

namespace Sys2Proof.Laws

open Sys2Proof.Machine

theorem setLine_bus (b : Bool) (l : Line) (p : Pins) :
    (setLine b l p).addr = p.addr ∧ (setLine b l p).data = p.data := by
  cases l <;> try exact ⟨rfl, rfl⟩
  unfold setLine
  dsimp only
  split <;> exact ⟨rfl, rfl⟩

/-- Setting a line sets that line and leaves every other one alone. -/
theorem setLine_level (b : Bool) (l n : Line) (p : Pins) :
    lineLevel n (setLine b l p) = if n = l then b else lineLevel n p := by
  cases l with
  | other i =>
    unfold setLine
    dsimp only
    split
    · rename_i h
      split
      · rename_i e; subst e; exact h
      · rfl
    · rename_i h
      cases n with
      | other j =>
        simp only [lineLevel, Nat.testBit_xor, Nat.testBit_two_pow, Line.other.injEq]
        by_cases e : j = i
        · subst e
          revert h
          cases p.other.testBit j <;> cases b <;> simp
        · simp [e, Ne.symm e]
      | _ => rfl
  | _ => cases n <;> rfl

theorem linesOn_bus (ls : List Line) (p : Pins) : (linesOn ls p).addr = p.addr ∧ (linesOn ls p).data = p.data := by
  induction ls generalizing p with
  | nil => exact ⟨rfl, rfl⟩
  | cons l ls ih => exact ⟨(ih _).1.trans (setLine_bus _ _ _).1, (ih _).2.trans (setLine_bus _ _ _).2⟩

theorem linesOff_bus (ls : List Line) (p : Pins) : (linesOff ls p).addr = p.addr ∧ (linesOff ls p).data = p.data := by
  induction ls generalizing p with
  | nil => exact ⟨rfl, rfl⟩
  | cons l ls ih => exact ⟨(ih _).1.trans (setLine_bus _ _ _).1, (ih _).2.trans (setLine_bus _ _ _).2⟩

/-- `On` sets the lines it names and no other (R114). -/
theorem linesOn_level (ls : List Line) (n : Line) (p : Pins) :
    lineLevel n (linesOn ls p) = (decide (n ∈ ls) || lineLevel n p) := by
  induction ls generalizing p with
  | nil => simp [linesOn]
  | cons l ls ih =>
    rw [linesOn, ih, setLine_level]
    by_cases h : n = l <;> simp [h]

/-- `Off` clears the lines it names and no other (R114). -/
theorem linesOff_level (ls : List Line) (n : Line) (p : Pins) :
    lineLevel n (linesOff ls p) = (!decide (n ∈ ls) && lineLevel n p) := by
  induction ls generalizing p with
  | nil => simp [linesOff]
  | cons l ls ih =>
    rw [linesOff, ih, setLine_level]
    by_cases h : n = l <;> simp [h]

/-! ### Width (R96) -/

theorem setLine_fits {c : Config} {l : Line} {p : Pins} (b : Bool) (hl : lineExists c l = true)
    (h : p.other < 2 ^ otherLines c) : (setLine b l p).other < 2 ^ otherLines c := by
  cases l with
  | other i =>
    unfold setLine
    dsimp only
    split
    · exact h
    · refine Nat.xor_lt_two_pow h ?_
      exact Nat.pow_lt_pow_right (by decide) (by simpa [lineExists] using hl)
  | _ => exact h

theorem linesOn_fits {c : Config} {ls : List Line} {p : Pins} (hl : ∀ l ∈ ls, lineExists c l = true)
    (h : p.other < 2 ^ otherLines c) : (linesOn ls p).other < 2 ^ otherLines c := by
  induction ls generalizing p with
  | nil => exact h
  | cons l ls ih =>
    exact ih (fun k hk => hl k (List.mem_cons_of_mem _ hk)) (setLine_fits true (hl l (List.mem_cons_self ..)) h)

theorem linesOff_fits {c : Config} {ls : List Line} {p : Pins} (hl : ∀ l ∈ ls, lineExists c l = true)
    (h : p.other < 2 ^ otherLines c) : (linesOff ls p).other < 2 ^ otherLines c := by
  induction ls generalizing p with
  | nil => exact h
  | cons l ls ih =>
    exact ih (fun k hk => hl k (List.mem_cons_of_mem _ hk)) (setLine_fits false (hl l (List.mem_cons_self ..)) h)

theorem fitPins_fits (c : Config) (p : Pins) : (fitPins c p).other < 2 ^ otherLines c :=
  Nat.mod_lt _ (Nat.two_pow_pos _)

/-- The lines that every vector has fill 28 bits, so the packed vector has `PIN_BITS` of them. -/
theorem pack_lt (c : Config) (p : Pins) (h : 28 ≤ c.pinBits) : pack c p < 2 ^ c.pinBits := by
  have ho : fitOther c p.other < 2 ^ otherLines c := Nat.mod_lt _ (Nat.two_pow_pos _)
  have hl : (packLow p).toNat < 2 ^ 28 := (packLow p).isLt
  have e : 2 ^ c.pinBits = 2 ^ 28 * 2 ^ otherLines c := by
    rw [← Nat.pow_add, otherLines, Nat.add_sub_cancel' h]
  unfold pack
  rw [e]
  calc 2 ^ 28 * fitOther c p.other + (packLow p).toNat
      < 2 ^ 28 * fitOther c p.other + 2 ^ 28 := by omega
    _ = 2 ^ 28 * (fitOther c p.other + 1) := by rw [Nat.mul_add, Nat.mul_one]
    _ ≤ 2 ^ 28 * 2 ^ otherLines c := Nat.mul_le_mul_left _ ho

end Sys2Proof.Laws
end

