-- ==== Sys2Proof/Laws/Engine.lean ====
section
/-! SUPPORT. What the CPU engine can do, said once: whatever runs by register moves and exchanges alone (`Ran`); then the
opcode fetch, the push and the interrupt entry in full, and the burst. -/

namespace Sys2Proof.Laws

open Sys2Proof.Machine Sys2Proof.Safety

theorem vtick_rasterInRange (s : State) (h : RasterInRange s) :
    s.cfg = (vtick s).cfg ∧ (vtick s).video.h < s.cfg.totalColumns ∧ (vtick s).video.v < s.cfg.totalLines := by
  obtain ⟨hc, hh, hv⟩ := h
  have hw := hc
  simp only [configWf, Bool.and_eq_true, decide_eq_true_eq] at hw
  have := vtick_hv s
  refine ⟨(vtick_kept s).cfg.symm, ?_, ?_⟩
  · rw [this.1]; split <;> omega
  · rw [this.2]; split
    · split <;> omega
    · exact hv

theorem exchange_rasterInRange (s : State) (h : RasterInRange s) : RasterInRange (exchange s) :=
  exchange_videoInv (fun c v => configWf c = true ∧ v.h < c.totalColumns ∧ v.v < c.totalLines)
    (fun _ _ _ h => h)
    (fun u hu => ⟨hu.1, (vtick_rasterInRange u hu).2.1, (vtick_rasterInRange u hu).2.2⟩) s h

theorem exchange_rowBaseEven (s : State) (h : RowBaseEven s) : RowBaseEven (exchange s) :=
  exchange_videoInv (fun c v => configWf c = true ∧ v.vcBase.getLsbD 0 = false) (fun _ _ _ h => h)
    (fun u hu => ⟨hu.1, vtick_even u hu.2⟩) s h

/-! ### What register moves and exchanges can do -/

theorem repliesSpare_mono {rs qs : List Reply} {a : Nat} (h : repliesSpare rs a) (hq : ∀ r ∈ qs, r ∈ rs) :
    repliesSpare qs a := fun r hr => h r (hq r hr)

theorem repliesSpareVideo_mono {rs qs : List Reply} {a : Nat} (h : repliesSpareVideo rs a) (hq : ∀ r ∈ qs, r ∈ rs) :
    repliesSpareVideo qs a := fun r hr => h r (hq r hr)

/-- The replies of a run are those of its first part, then those of its second. -/
theorem mem_take_add {α : Type} {xs : List α} {m n : Nat} {x : α} :
    (x ∈ xs.take m → x ∈ xs.take (m + n)) ∧ (x ∈ (xs.drop m).take n → x ∈ xs.take (m + n)) := by
  rw [List.take_add]
  exact ⟨fun h => List.mem_append_left _ h, fun h => List.mem_append_right _ h⟩

theorem sent_quiet {s t : State} (h1 : sentVectors t.trace = sentVectors s.trace) (h2 : t.ticks = s.ticks)
    (h3 : t.host.replies = s.host.replies) (h4 : t.host.mem = s.host.mem) (h5 : t.host.vmem = s.host.vmem)
    (h6 : t.video.regs = s.video.regs) : Sent s t [] :=
  ⟨by rw [h1, List.append_nil], h2, h3, fun _ _ _ => by rw [h4], fun _ _ => by rw [h5], fun _ _ => by rw [h6]⟩

theorem sent_refl (s : State) : Sent s s [] := sent_quiet rfl rfl rfl rfl rfl rfl

theorem sent_trans {s t u : State} {m n : List Pins} (h : Sent s t m) (hc : t.cfg = s.cfg) (k : Sent t u n) :
    Sent s u (m ++ n) := by
  obtain ⟨h1, h2, h3, h4, h5, h6⟩ := h
  obtain ⟨k1, k2, k3, k4, k5, k6⟩ := k
  rw [hc] at k4 k6
  rw [h3] at k4 k5
  refine ⟨by rw [k1, h1, List.append_assoc], by rw [k2, h2, List.length_append, Nat.add_assoc],
    by rw [k3, h3, List.drop_drop, List.length_append], fun a ha hr => ?_, fun a hr => ?_, fun r hr => ?_⟩
  · rw [List.length_append] at hr
    rw [k4 a (fun p hp => ha p (List.mem_append_right _ hp)) (repliesSpare_mono hr fun _ => mem_take_add.2),
      h4 a (fun p hp => ha p (List.mem_append_left _ hp)) (repliesSpare_mono hr fun _ => mem_take_add.1)]
  · rw [List.length_append] at hr
    rw [k5 a (repliesSpareVideo_mono hr fun _ => mem_take_add.2), h5 a (repliesSpareVideo_mono hr fun _ => mem_take_add.1)]
  · rw [k6 r fun p hp => hr p (List.mem_append_right _ hp), h6 r fun p hp => hr p (List.mem_append_left _ hp)]

theorem sent_exchange (s : State) : Sent s (exchange s) [s.cpu.pins] := by
  have x := exchange_spec s
  refine ⟨x.sent, x.ticks, x.replies.trans List.drop_one.symm, fun a ha hr => ?_, fun a hr => ?_, fun r hr => ?_⟩
  · have h := ha _ (List.mem_singleton.2 rfl)
    rw [x.mem, replyMem_read hr]
    split
    · rfl
    · rename_i hb
      refine write_read_other _ fun e => h ?_
      rw [storedAt, if_neg (by simpa [or_comm] using hb), e]
  · rw [x.vmem, replyVmem_read hr]
  · have h := hr _ (List.mem_singleton.2 rfl)
    rw [x.regs]
    split
    · rename_i hb
      refine regSet_other fun e => h ?_
      rw [registerAt, if_pos (by simpa [and_comm] using hb), e]
    · rfl

/-- `t` comes from `s` by register moves and exchanges: every tick is one exchange (R134 item 1), `breakMask` and the
settings are kept (R134 item 3, R21), nothing observed is taken back, and the invariants are kept. -/
structure Ran (s t : State) : Prop where
  cfg       : t.cfg = s.cfg
  display   : t.display = s.display
  breakMask : t.cpu.breakMask = s.cpu.breakMask
  calls     : t.host.calls = s.host.calls
  ticks     : s.ticks ≤ t.ticks
  trail     : ∃ new, Sent s t new
  memory    : MemoryCanonical s → MemoryCanonical t
  derived   : DerivedCurrent s → DerivedCurrent t
  raster    : RasterInRange s → RasterInRange t
  rowBase   : RowBaseEven s → RowBaseEven t
  vectors   : VectorsFit s → VectorsFit t

theorem Ran.refl (s : State) : Ran s s :=
  ⟨rfl, rfl, rfl, rfl, le_refl _, ⟨[], sent_refl s⟩, id, id, id, id, id⟩

theorem Ran.trans {s t u : State} (h : Ran s t) (k : Ran t u) : Ran s u :=
  ⟨k.cfg.trans h.cfg, k.display.trans h.display, k.breakMask.trans h.breakMask,
   k.calls.trans h.calls, h.ticks.trans k.ticks,
   let ⟨_, x⟩ := h.trail; let ⟨_, y⟩ := k.trail; ⟨_, sent_trans x h.cfg y⟩,
   k.memory ∘ h.memory, k.derived ∘ h.derived, k.raster ∘ h.raster, k.rowBase ∘ h.rowBase, k.vectors ∘ h.vectors⟩

/-- A register move that keeps the break mask and gives the snapshot no more lines than it has. -/
theorem ran_setCpu (s : State) (c : Cpu) (h : c.breakMask = s.cpu.breakMask)
    (hp : s.cpu.pins.other < 2 ^ otherLines s.cfg → c.pins.other < 2 ^ otherLines s.cfg) : Ran s (setCpu c s) :=
  ⟨rfl, rfl, h, rfl, le_refl _, ⟨[], sent_quiet rfl rfl rfl rfl rfl rfl⟩, id, id, id, id,
   fun v => ⟨v.1, hp v.2.1, v.2.2.1, by rw [setCpu_cpu, h]; exact v.2.2.2⟩⟩

theorem ran_setPins (s : State) (p : Pins)
    (hp : s.cpu.pins.other < 2 ^ otherLines s.cfg → p.other < 2 ^ otherLines s.cfg) : Ran s (setPins p s) :=
  ran_setCpu s _ rfl hp

theorem ran_syncDown (s : State) : Ran s (syncDown s) := ran_setPins _ _ (by exact id)

theorem ran_exchange (s : State) : Ran s (exchange s) := by
  have x := exchange_spec s
  refine ⟨x.cfg, x.display, x.regsKept.2.2.2.2.2.2, x.calls, ?_, ⟨_, sent_exchange s⟩, exchange_memoryCanonical s,
    exchange_derivedCurrent s, exchange_rasterInRange s, exchange_rowBaseEven s, exchange_vectorsFit s⟩
  rw [x.ticks]; omega

theorem ran_readExchange (a : Addr) (s : State) : Ran s (readExchange a s) := (ran_setPins _ _ (by exact id)).trans (ran_exchange _)
theorem ran_readExchangeHere (s : State) : Ran s (readExchangeHere s) := (ran_setPins _ _ (by exact id)).trans (ran_exchange _)
theorem ran_writeExchange (a : Addr) (d : Byte) (s : State) : Ran s (writeExchange a d s) :=
  (ran_setPins _ _ (by exact id)).trans (ran_exchange _)

theorem ran_push (b : Byte) (s : State) : Ran s (push b s) := (ran_writeExchange _ _ _).trans (ran_setCpu _ _ rfl (by exact id))

theorem ran_entrySave (s : State) : Ran s (entrySave s) :=
  ((((ran_syncDown s).trans (ran_readExchangeHere _)).trans ((ran_syncDown _).trans (ran_push _ _))).trans
    ((ran_syncDown _).trans (ran_push _ _))).trans ((ran_syncDown _).trans (ran_push _ _))

theorem ran_entryVector (s : State) : Ran s (entryVector s) :=
  (((ran_syncDown s).trans (ran_readExchange _ _)).trans ((ran_syncDown _).trans (ran_readExchange _ _))).trans (ran_setCpu _ _ rfl (by exact id))

theorem ran_interruptEntry (s : State) : Ran s (interruptEntry s) := (ran_entrySave s).trans (ran_entryVector _)

theorem ran_interruptCheck (s : State) : Ran s (interruptCheck s) := by
  unfold interruptCheck
  split
  · exact ran_interruptEntry s
  · exact Ran.refl s

theorem ran_opcodeFetch (s : State) : Ran s (opcodeFetch s) := by
  have h1 := ran_setPins s (setAddr s.cpu.pc s.cpu.pins) id
  have h2 := ran_setCpu (setPins (setAddr s.cpu.pc s.cpu.pins) s)
    { (setPins (setAddr s.cpu.pc s.cpu.pins) s).cpu with pc := (setPins (setAddr s.cpu.pc s.cpu.pins) s).cpu.pc + 1 } rfl id
  exact (((h1.trans h2).trans (ran_setPins _ _ (by exact id))).trans (ran_exchange _)).trans (ran_syncDown _)

/-! ### One bus cycle, and the six of an interrupt entry (R265 to R272) -/

/-- What a cycle of the engine that sends `p` does, outside the CPU's registers. -/
structure BusCycle (s t : State) (p : Pins) : Prop where
  cfg      : t.cfg = s.cfg
  replies  : t.host.replies = s.host.replies.tail
  sent     : Sent s t [p]
  returned : returnedVectors t.trace = returnedVectors s.trace ++ [t.cpu.pins]
  mem      : t.host.mem = replyMem s.host.replies
    (if busSelect s.cfg p.addr = true ∨ p.rw = true then s.host.mem else s.host.mem.write p.addr.toNat p.data)
  regs     : t.video.regs = if busSelect s.cfg p.addr = true ∧ p.rw = false then
    regSet s.video.regs (regIndex p.addr) p.data else s.video.regs
  pins     : ∃ d, t.cpu.pins = replyPins s.cfg s.host.replies { p with data := d }

theorem exchange_cycle (s : State) (p : Pins) : BusCycle s (exchange (setPins p s)) p := by
  have x := exchange_spec (setPins p s)
  refine ⟨x.cfg, x.replies, ?_, x.returned, x.mem, x.regs, ?_⟩
  · have h : Sent s (setPins p s) [] := sent_quiet rfl rfl rfl rfl rfl rfl
    exact sent_trans h rfl (sent_exchange _)
  · rw [x.pins]
    split
    · exact ⟨_, rfl⟩
    · exact ⟨p.data, rfl⟩

theorem exchange_setPins_cpu (s : State) (p : Pins) :
    (exchange (setPins p s)).cpu = { s.cpu with pins := (exchange (setPins p s)).cpu.pins } :=
  (exchange_spec (setPins p s)).cpu

/-- A push: one write at the stack, then `SP` goes down (R267). -/
theorem push_cycle (b : Byte) (s : State) :
    BusCycle s (push b s) { s.cpu.pins with addr := stackAddr s.cpu.sp, data := b, rw := false } ∧
    (push b s).cpu = { s.cpu with sp := s.cpu.sp - 1, pins := (push b s).cpu.pins } := by
  have x := exchange_cycle s { s.cpu.pins with addr := stackAddr s.cpu.sp, data := b, rw := false }
  have y := exchange_setPins_cpu s { s.cpu.pins with addr := stackAddr s.cpu.sp, data := b, rw := false }
  refine ⟨⟨x.cfg, x.replies, x.sent, x.returned, x.mem, x.regs, x.pins⟩, ?_⟩
  exact congrArg (fun c : Cpu => { c with sp := c.sp - 1 }) y

/-- A cycle that begins with `Off(sync)` is a cycle of the state before. -/
theorem BusCycle.ofSyncDown {s t : State} {p : Pins} (h : BusCycle (syncDown s) t p) : BusCycle s t p :=
  ⟨h.cfg, h.replies, h.sent, h.returned, h.mem, h.regs, h.pins⟩

/-- A push of an entry, which sends `sync` 0 (R132). -/
theorem entryPush_cycle (b : Byte) (s : State) :
    BusCycle s (push b (syncDown s))
      { s.cpu.pins with addr := stackAddr s.cpu.sp, data := b, rw := false, sync := false } ∧
    (push b (syncDown s)).cpu = { s.cpu with sp := s.cpu.sp - 1, pins := (push b (syncDown s)).cpu.pins } :=
  ⟨(push_cycle b (syncDown s)).1.ofSyncDown, (push_cycle b (syncDown s)).2⟩

/-- The six states of an entry that the cycles leave, and what is done with the last (R265). -/
theorem interruptEntry_cycles (s : State) : ∃ t1 t2 t3 t4 t5 t6 : State, ∃ v : Addr,
    BusCycle s t1 { s.cpu.pins with rw := true, sync := false } ∧ t1.cpu = { s.cpu with pins := t1.cpu.pins } ∧
    BusCycle t1 t2 { t1.cpu.pins with addr := stackAddr s.cpu.sp, data := pcHigh s.cpu.pc, rw := false, sync := false } ∧
    t2.cpu = { s.cpu with sp := s.cpu.sp - 1, pins := t2.cpu.pins } ∧
    BusCycle t2 t3
      { t2.cpu.pins with addr := stackAddr (s.cpu.sp - 1), data := pcLow s.cpu.pc, rw := false, sync := false } ∧
    t3.cpu = { s.cpu with sp := s.cpu.sp - 2, pins := t3.cpu.pins } ∧
    BusCycle t3 t4 { t3.cpu.pins with
      addr := stackAddr (s.cpu.sp - 2), data := pushedStatus s.cfg s.cpu.p, rw := false, sync := false } ∧
    t4.cpu = { s.cpu with sp := s.cpu.sp - 3, pins := t4.cpu.pins } ∧
    v = (if t4.cpu.pins.nmi = true then s.cfg.nmiVector else s.cfg.irqVector) ∧
    BusCycle t4 t5 { t4.cpu.pins with addr := v, rw := true, sync := false } ∧
    t5.cpu = { s.cpu with sp := s.cpu.sp - 3, pins := t5.cpu.pins } ∧
    BusCycle t5 t6 { t5.cpu.pins with addr := v + 1, rw := true, sync := false } ∧
    t6.cpu = { s.cpu with sp := s.cpu.sp - 3, pins := t6.cpu.pins } ∧
    interruptEntry s = entryFinish t5.cpu.pins.data t6.cpu.pins.data t6 := by
  have two : s.cpu.sp - 1 - 1 = s.cpu.sp - 2 := by bv_omega
  have three : s.cpu.sp - 2 - 1 = s.cpu.sp - 3 := by bv_omega
  have h1 : ∃ t1, t1 = readExchangeHere (syncDown s) := ⟨_, rfl⟩
  obtain ⟨t1, e1⟩ := h1
  have c1 : BusCycle s t1 { s.cpu.pins with rw := true, sync := false } := e1 ▸ (exchange_cycle (syncDown s) _).ofSyncDown
  have k1 : t1.cpu = { s.cpu with pins := t1.cpu.pins } := by rw [e1]; exact exchange_setPins_cpu (syncDown s) _
  obtain ⟨t2, e2⟩ : ∃ t2, t2 = push (pcHigh t1.cpu.pc) (syncDown t1) := ⟨_, rfl⟩
  obtain ⟨c2, k2⟩ := entryPush_cycle (pcHigh t1.cpu.pc) t1
  obtain ⟨t3, e3⟩ : ∃ t3, t3 = push (pcLow t2.cpu.pc) (syncDown t2) := ⟨_, rfl⟩
  obtain ⟨c3, k3⟩ := entryPush_cycle (pcLow t2.cpu.pc) t2
  obtain ⟨t4, e4⟩ : ∃ t4, t4 = push (pushedStatus t3.cfg t3.cpu.p) (syncDown t3) := ⟨_, rfl⟩
  obtain ⟨c4, k4⟩ := entryPush_cycle (pushedStatus t3.cfg t3.cpu.p) t3
  obtain ⟨t5, e5⟩ : ∃ t5, t5 = readExchange (vectorLocation t4) (syncDown t4) := ⟨_, rfl⟩
  have c5 : BusCycle t4 t5 { t4.cpu.pins with addr := vectorLocation t4, rw := true, sync := false } :=
    e5 ▸ (exchange_cycle (syncDown t4) _).ofSyncDown
  have k5 : t5.cpu = { t4.cpu with pins := t5.cpu.pins } := by rw [e5]; exact exchange_setPins_cpu (syncDown t4) _
  obtain ⟨t6, e6⟩ : ∃ t6, t6 = readExchange (vectorLocation t4 + 1) (syncDown t5) := ⟨_, rfl⟩
  have c6 : BusCycle t5 t6 { t5.cpu.pins with addr := vectorLocation t4 + 1, rw := true, sync := false } :=
    e6 ▸ (exchange_cycle (syncDown t5) _).ofSyncDown
  have k6 : t6.cpu = { t5.cpu with pins := t6.cpu.pins } := by rw [e6]; exact exchange_setPins_cpu (syncDown t5) _
  rw [← e2] at c2 k2
  rw [← e3] at c3 k3
  rw [← e4] at c4 k4
  have e : interruptEntry s = entryFinish t5.cpu.pins.data t6.cpu.pins.data t6 := by
    unfold interruptEntry entryVector entrySave
    dsimp only
    rw [← e1, ← e2, ← e3, ← e4, ← e5, ← e6]
    rfl
  have s1 : t1.cpu.sp = s.cpu.sp := by rw [k1]
  have s2 : t1.cpu.pc = s.cpu.pc := by rw [k1]
  have k2 : t2.cpu = { s.cpu with sp := s.cpu.sp - 1, pins := t2.cpu.pins } := by rw [k2, k1]
  have k3 : t3.cpu = { s.cpu with sp := s.cpu.sp - 2, pins := t3.cpu.pins } := by rw [k3, k2]; dsimp only; rw [two]
  have k4 : t4.cpu = { s.cpu with sp := s.cpu.sp - 3, pins := t4.cpu.pins } := by rw [k4, k3]; dsimp only; rw [three]
  have k5 : t5.cpu = { s.cpu with sp := s.cpu.sp - 3, pins := t5.cpu.pins } := by rw [k5, k4]
  have k6 : t6.cpu = { s.cpu with sp := s.cpu.sp - 3, pins := t6.cpu.pins } := by rw [k6, k5]
  have f3 : t3.cfg = s.cfg := c3.cfg.trans (c2.cfg.trans c1.cfg)
  refine ⟨t1, t2, t3, t4, t5, t6, vectorLocation t4, c1, k1, ?_, k2, ?_, k3, ?_, k4, ?_, c5, k5, c6, k6, e⟩
  · rw [s1, s2] at c2; exact c2
  · rw [show t2.cpu.sp = s.cpu.sp - 1 by rw [k2], show t2.cpu.pc = s.cpu.pc by rw [k2]] at c3; exact c3
  · rw [f3, show t3.cpu.sp = s.cpu.sp - 2 by rw [k3], show t3.cpu.p = s.cpu.p by rw [k3]] at c4; exact c4
  · unfold vectorLocation
    rw [c4.cfg, f3]

/-! ### Handlers (R134) -/

theorem hregSetCpu_breakMask (c : Cpu) (v : BitVec 16) (r : HReg) : (hregSetCpu c v r).breakMask = c.breakMask := by
  cases r <;> rfl

theorem hregSetCpu_pins (c : Cpu) (v : BitVec 16) (r : HReg) : (hregSetCpu c v r).pins = c.pins := by
  cases r <;> rfl

theorem ran_runMicro (m : Micro) (l : Locals) (s : State) : Ran s (runMicro m l s) := by
  cases m with
  | set r e => exact ran_setCpu _ _ (hregSetCpu_breakMask _ _ _) (by rw [hregSetCpu_pins]; exact id)
  | setAddr e => exact ran_setPins _ _ id
  | setAddrData a d => exact ran_setPins _ _ id
  | on ls => exact ran_setPins _ _ (linesOn_fits fun _ h => (List.mem_filter.1 h).2)
  | off ls => exact ran_setPins _ _ (linesOff_fits fun _ h => (List.mem_filter.1 h).2)
  | exchange =>
    unfold runMicro
    dsimp only
    split
    · exact ran_exchange s
    · exact (ran_syncDown s).trans (ran_exchange _)

theorem ran_runProgram (h : Handler) (l : Locals) (s : State) : Ran s (runProgram h l s) := by
  induction h generalizing l s with
  | done => exact Ran.refl s
  | step m k ih => exact (ran_runMicro m l s).trans (ih _ _)
  | branch c t e iht ihe =>
    unfold runProgram
    split
    · exact iht l s
    · exact ihe l s

theorem ran_runExternal (b : Byte) (r : CpuRegs) (p : Pins) (fuel : Nat) (seen : List Pins) (s : State) :
    Ran s (runExternal b r p fuel seen s) := by
  induction fuel generalizing seen s with
  | zero => exact Ran.refl s
  | succ fuel ih =>
    have h := ran_setCpu s (withRegs s.cpu (Config.freeHandlerMove b r p seen).regs
      (fitPins s.cfg (Config.freeHandlerMove b r p seen).pins)) rfl fun _ => fitPins_fits _ _
    unfold runExternal
    dsimp only
    split
    · exact h
    · exact (h.trans (ran_exchange _)).trans (ih _ _)

/-- A dispatch either refuses, for a byte with no handler, or runs (R93, R134). -/
theorem dispatch_cases (b : Byte) (s : State) :
    (lookup s.cfg.dispatch b = .absent ∧ dispatch b s = .refused (.noHandler b)) ∨
    (lookup s.cfg.dispatch b ≠ .absent ∧ ∃ t, dispatch b s = .next t ∧ Ran s t) := by
  unfold dispatch
  cases h : lookup s.cfg.dispatch b with
  | absent => exact .inl ⟨rfl, rfl⟩
  | external => exact .inr ⟨by simp, _, rfl, ran_runExternal _ _ _ _ _ _⟩
  | program p => exact .inr ⟨by simp, _, rfl, ran_runProgram _ _ _⟩

/-! ### The instruction step and the burst (R130, R136, R137) -/

/-- The opcode fetch sends its vector (R131). -/
theorem opcodeFetch_sent (s : State) : Sent s (opcodeFetch s) [fetchVector s] :=
  let u : State := { s with cpu := { s.cpu with pc := s.cpu.pc + 1, pins := fetchVector s } }
  have h0 : Sent s u [] := sent_quiet rfl rfl rfl rfl rfl rfl
  have h1 : Sent (exchange u) (opcodeFetch s) [] := sent_quiet rfl rfl rfl rfl rfl rfl
  sent_trans h0 rfl (sent_trans (sent_exchange u) (exchange_spec u).cfg h1)

/-- An instruction step begins with its opcode fetch and takes at least that tick; it refuses for a byte with no handler alone. -/
theorem instructionStep_cases (s : State) :
    (∃ b, lookup s.cfg.dispatch b = .absent ∧ instructionStep s = .refused (.noHandler b)) ∨
    (∃ t, instructionStep s = .next t ∧ Ran s t ∧ s.ticks + 1 ≤ t.ticks ∧
      ∃ new, Sent s t (fetchVector s :: new)) := by
  have f := ran_opcodeFetch s
  have hf : (opcodeFetch s).ticks = s.ticks + 1 := by
    show (setPins _ _).ticks = _
    rw [setPins_ticks, (exchange_spec _).ticks]
    rfl
  unfold instructionStep execOp
  dsimp only
  obtain ⟨ha, he⟩ | ⟨-, t, he, hr⟩ := dispatch_cases (getData (opcodeFetch s).cpu.pins) (opcodeFetch s)
  · refine .inl ⟨_, ?_, by rw [he]⟩
    rw [f.cfg] at ha
    exact ha
  · refine .inr ⟨interruptCheck t, by rw [he], (f.trans hr).trans (ran_interruptCheck t), ?_, ?_⟩
    · have := hr.ticks
      have := (ran_interruptCheck t).ticks
      omega
    · obtain ⟨new, hn⟩ := (hr.trans (ran_interruptCheck t)).trail
      exact ⟨new, sent_trans (opcodeFetch_sent s) f.cfg hn⟩

/-- A burst that is not refused stops at a boundary where the budget is reached or a configured bit is high, if it has
fuel for a step of one tick each. -/
theorem runBurst_cases (n fuel : Nat) (s : State) (hfuel : n < s.ticks + fuel) (hpos : 0 < fuel) :
    (∃ b, lookup s.cfg.dispatch b = .absent ∧ runBurst n fuel s = .refused (.noHandler b)) ∨
    (∃ t, runBurst n fuel s = .next t ∧ Ran s t ∧ s.ticks + 1 ≤ t.ticks ∧ continues n t = false ∧
      t.cpu.pins.sync = false ∧ ∃ new, Sent s t (fetchVector s :: new)) := by
  induction fuel generalizing s with
  | zero => omega
  | succ fuel ih =>
    unfold runBurst
    obtain ⟨b, ha, he⟩ | ⟨v, he, hrv, ht, hv⟩ := instructionStep_cases s
    · exact .inl ⟨b, ha, by rw [he]⟩
    · rw [he]
      have hr := hrv.trans (ran_syncDown v)
      have ht : s.ticks + 1 ≤ (syncDown v).ticks := ht
      have hv : ∃ new, Sent s (syncDown v) (fetchVector s :: new) := hv
      have hs : (syncDown v).cpu.pins.sync = false := rfl
      dsimp only
      generalize syncDown v = t at hr ht hv hs ⊢
      split
      · rename_i hc
        have hlt : t.ticks < n := by
          simp only [continues, Bool.and_eq_true, decide_eq_true_eq] at hc
          exact hc.1
        obtain ⟨b, ha, hb⟩ | ⟨u, hu, hru, htu, hcu, hsu, -⟩ := ih t (by omega) (by omega)
        · exact .inl ⟨b, by rw [← hr.cfg]; exact ha, hb⟩
        · exact .inr ⟨u, hu, hr.trans hru, by omega, hcu, hsu,
            let ⟨_, x⟩ := hv; let ⟨_, y⟩ := hru.trail; ⟨_, sent_trans x hr.cfg y⟩⟩
      · rename_i hc
        exact .inr ⟨t, rfl, hr, ht, by simpa using hc, hs, hv⟩

/-- `EXEC n` (R137): it refuses for a byte with no handler alone; else it is a run from `ticks = 0` of at least one tick,
beginning with an opcode fetch at `PC`, stopped where the budget is reached or a configured bit is high, with its ticks as the result. -/
theorem execExec_cases (n : Nat) (s : State) :
    (∃ b, lookup s.cfg.dispatch b = .absent ∧ execExec n s = .refused (.noHandler b)) ∨
    (∃ t, execExec n s = .next (record (.executed t.ticks) t) ∧ Ran { s with ticks := 0 } t ∧ 1 ≤ t.ticks ∧
      continues n t = false ∧ t.cpu.pins.sync = false ∧ ∃ new, Sent { s with ticks := 0 } t (fetchVector s :: new)) := by
  unfold execExec
  obtain ⟨b, ha, he⟩ | ⟨t, he, hr, ht, hc, hs, hv⟩ := runBurst_cases n (n + 1) { s with ticks := 0 } (by simp) (by omega)
  · exact .inl ⟨b, ha, by rw [he]⟩
  · exact .inr ⟨t, by rw [he], hr, by simpa using ht, hc, hs, hv⟩

end Sys2Proof.Laws
end

