-- ==== Sys2Proof/Laws/PerInstr.lean ====
section
/-! SUPPORT. The statement about every instruction: what its encoding decodes to, one lemma per constructor. -/

namespace Sys2Proof.Laws.Encoding

/-- If `i` has an encoding, decoding it with anything after it gives `i` and the rest. -/
def Statement (i : Instr) : Prop :=
  ∀ c bs, encode i = some (c, bs) → ∀ rest, decode c (bs ++ rest) = .ok (i, rest)

/-- The decoding of a two-byte register cycle. -/
theorem decode_bus (b d : Byte) (rest : List Byte) (h : b.toNat < 32) :
    decode .bus (b :: d :: rest) = .ok (decodeVreg (b.setWidth 5) d, rest) := by
  simp [decode, h]

theorem read_pattern_lt : ∀ r : Nibble, (0x1#4 ++ r).toNat < 32 := by decide

theorem write_pattern_lt : ∀ r : Nibble, (0x0#4 ++ r).toNat < 32 := by decide

theorem read_statement {i : Instr} (r : Nibble) (h : encode i = some (readBytes r))
    (hd : decodeVreg ((0x1#4 ++ r).setWidth 5) 0 = i) : Statement i := by
  intro c bs he rest
  rw [h] at he
  obtain ⟨rfl, rfl⟩ := Prod.mk.inj (Option.some.inj he)
  show decode .bus ((0x1#4 ++ r) :: 0 :: rest) = _
  rw [decode_bus _ _ _ (read_pattern_lt r), hd]

theorem write_statement {i : Instr} (r : Nibble) (d : Byte) (h : encode i = some (writeBytes r d))
    (hd : decodeVreg ((0x0#4 ++ r).setWidth 5) d = i) : Statement i := by
  intro c bs he rest
  rw [h] at he
  obtain ⟨rfl, rfl⟩ := Prod.mk.inj (Option.some.inj he)
  show decode .bus ((0x0#4 ++ r) :: d :: rest) = _
  rw [decode_bus _ _ _ (write_pattern_lt r), hd]

theorem none_statement {i : Instr} (h : encode i = none) : Statement i := by
  intro c bs he
  rw [h] at he
  exact absurd he (by simp)

theorem op (b : Byte) : Statement (.op b) := by
  intro c bs he rest
  obtain ⟨rfl, rfl⟩ := Prod.mk.inj (Option.some.inj he)
  rfl

theorem vrd0 : Statement .vrd0 := read_statement 0 rfl rfl
theorem vrd1 : Statement .vrd1 := read_statement 1 rfl rfl
theorem vrd2 : Statement .vrd2 := read_statement 2 rfl rfl
theorem vrd3 : Statement .vrd3 := read_statement 3 rfl rfl
theorem vrd4 : Statement .vrd4 := read_statement 4 rfl rfl
theorem vrd5 : Statement .vrd5 := read_statement 5 rfl rfl
theorem vrd6 : Statement .vrd6 := read_statement 6 rfl rfl
theorem vrd7 : Statement .vrd7 := read_statement 7 rfl rfl
theorem vrd8 : Statement .vrd8 := read_statement 8 rfl rfl
theorem vrd9 : Statement .vrd9 := read_statement 9 rfl rfl
theorem vrd10 : Statement .vrd10 := read_statement 10 rfl rfl
theorem vrd11 : Statement .vrd11 := read_statement 11 rfl rfl
theorem vrd12 : Statement .vrd12 := read_statement 12 rfl rfl
theorem vrd13 : Statement .vrd13 := read_statement 13 rfl rfl
theorem vrd14 : Statement .vrd14 := read_statement 14 rfl rfl
theorem vrd15 : Statement .vrd15 := read_statement 15 rfl rfl
theorem vwr0 (d : Byte) : Statement (.vwr0 d) := write_statement 0 d rfl rfl
theorem vwr1 (d : Byte) : Statement (.vwr1 d) := write_statement 1 d rfl rfl
theorem vwr2 (d : Byte) : Statement (.vwr2 d) := write_statement 2 d rfl rfl
theorem vwr3 (d : Byte) : Statement (.vwr3 d) := write_statement 3 d rfl rfl
theorem vwr4 (d : Byte) : Statement (.vwr4 d) := write_statement 4 d rfl rfl
theorem vwr5 (d : Byte) : Statement (.vwr5 d) := write_statement 5 d rfl rfl
theorem vwr6 (d : Byte) : Statement (.vwr6 d) := write_statement 6 d rfl rfl
theorem vwr7 (d : Byte) : Statement (.vwr7 d) := write_statement 7 d rfl rfl
theorem vwr8 (d : Byte) : Statement (.vwr8 d) := write_statement 8 d rfl rfl
theorem vwr9 (d : Byte) : Statement (.vwr9 d) := write_statement 9 d rfl rfl
theorem vwr10 (d : Byte) : Statement (.vwr10 d) := write_statement 10 d rfl rfl
theorem vwr11 (d : Byte) : Statement (.vwr11 d) := write_statement 11 d rfl rfl
theorem vwr12 (d : Byte) : Statement (.vwr12 d) := write_statement 12 d rfl rfl
theorem vwr13 (d : Byte) : Statement (.vwr13 d) := write_statement 13 d rfl rfl
theorem vwr14 (d : Byte) : Statement (.vwr14 d) := write_statement 14 d rfl rfl
theorem vwr15 (d : Byte) : Statement (.vwr15 d) := write_statement 15 d rfl rfl
theorem opfetch : Statement (.opfetch) := none_statement rfl
theorem intchk : Statement (.intchk) := none_statement rfl
theorem intseq : Statement (.intseq) := none_statement rfl
theorem exec (n : Nat) : Statement (.exec n) := none_statement rfl
theorem xchg : Statement (.xchg) := none_statement rfl
theorem rd (a : Addr) : Statement (.rd a) := none_statement rfl
theorem wr (a : Addr) (d : Byte) : Statement (.wr a d) := none_statement rfl
theorem vtick : Statement (.vtick) := none_statement rfl
theorem vinit (c : VideoConfig) : Statement (.vinit c) := none_statement rfl
theorem vreset : Statement (.vreset) := none_statement rfl
theorem cinit : Statement (.cinit) := none_statement rfl
theorem creset : Statement (.creset) := none_statement rfl

end Sys2Proof.Laws.Encoding
end

