-- ==== Sys2Proof/Laws/Step.lean ====
section
/-! SUPPORT. What an operation and a step can do, said once. -/

namespace Sys2Proof.Laws

open Sys2Proof.Machine Sys2Proof.Safety

/-- All that an operation that answers a next state can have done. -/
inductive Did : Instr → State → State → Prop where
  | ran {i s t} (h : Ran s t) : Did i s t
  | burst {n s t} (h : Ran { s with ticks := 0 } t) : Did (.exec n) s (record (.executed t.ticks) t)
  | read {i s} (r : Nibble) : Did i s (accessRead r s)
  | write {i s} (r : Nibble) (d : Byte) : Did i s (accessWrite r d s)
  | tick {s} : Did .vtick s (vtick s)
  | init {c s} (h : c.wf = true) : Did (.vinit c) s (videoInit c s)
  | vreset {s} : Did .vreset s (videoReset s)
  | cinit {s} : Did .cinit s (cpuReset { s with cpu := { s.cpu with breakMask := 0 } })
  | creset {s} : Did .creset s (cpuReset s)

/-- `VINIT` answers a next state for an accepted configuration alone (R235, R281). -/
theorem execVinit_cases (c : VideoConfig) (s : State) :
    (c.wf = true ∧ execVinit c s = .next (videoInit c s)) ∨ (c.wf = false ∧ ∃ r, execVinit c s = .refused r) := by
  unfold execVinit VideoConfig.wf
  cases c.fetchPresent <;> cases c.bufferLargeEnough <;> cases c.windowAligned <;> cases c.debugOff <;>
    simp

/-- An operation that answers a next state did one of these. -/
theorem exec_did {i : Instr} {s t : State} (h : exec i s = .next t) : Did i s t := by
  cases i with
  | op b =>
    obtain ⟨-, he⟩ | ⟨-, u, he, hr⟩ := dispatch_cases b s
    · exact absurd (he.symm.trans h) (by simp)
    · cases (show Host.Outcome.next u = .next t from he.symm.trans h)
      exact .ran hr
  | exec n =>
    obtain ⟨b, -, he⟩ | ⟨u, he, hr, -⟩ := execExec_cases n s
    · exact absurd (he.symm.trans h) (by simp)
    · cases (show Host.Outcome.next _ = .next t from he.symm.trans h)
      exact .burst hr
  | vinit c =>
    obtain ⟨hw, he⟩ | ⟨-, r, he⟩ := execVinit_cases c s
    · cases (show Host.Outcome.next _ = .next t from he.symm.trans h)
      exact .init hw
    · exact absurd (he.symm.trans h) (by simp)
  | opfetch => cases h; exact .ran (ran_opcodeFetch s)
  | intchk => cases h; exact .ran (ran_interruptCheck s)
  | intseq => cases h; exact .ran (ran_interruptEntry s)
  | xchg => cases h; exact .ran (ran_exchange s)
  | rd a => cases h; exact .ran (ran_readExchange a s)
  | wr a d => cases h; exact .ran (ran_writeExchange a d s)
  | vtick => cases h; exact .tick
  | vreset => cases h; exact .vreset
  | cinit => cases h; exact .cinit
  | creset => cases h; exact .creset
  | _ => cases h; first | exact .read _ | exact .write _ _

/-- A step that answers a next state is a move of the host, an operation the host queued, or an instruction step. -/
theorem step_cases {s t : State} (h : step s = .next t) :
    (∃ c cs, s.host.calls = c :: cs ∧ runCall c { s with host := { s.host with calls := cs } } = .moved t) ∨
    (∃ c cs i u, s.host.calls = c :: cs ∧ runCall c { s with host := { s.host with calls := cs } } = .called i u ∧
      exec i u = .next t) ∨
    (s.host.calls = [] ∧ ∃ i u, exec i (opcodeFetch s) = .next u ∧ t = interruptCheck u) := by
  unfold step fetchNext at h
  cases hc : s.host.calls with
  | nil =>
    rw [hc] at h
    dsimp only at h
    cases he : exec (decodeOp (getData (opcodeFetch s).cpu.pins)) (opcodeFetch s) with
    | next u => rw [he] at h; cases h; exact .inr (.inr ⟨rfl, _, u, he, rfl⟩)
    | fault f => rw [he] at h; cases h
    | refused r => rw [he] at h; cases h
  | cons c cs =>
    rw [hc] at h
    dsimp only at h
    cases hr : runCall c { s with host := { s.host with calls := cs } } with
    | moved u => rw [hr] at h; cases h; exact .inl ⟨c, cs, rfl, hr⟩
    | called i u => rw [hr] at h; exact .inr (.inl ⟨c, cs, i, u, rfl, hr, h⟩)
    | opcode i u => cases c <;> cases hr

/-- What runs, ticks, register accesses and resets keep, every operation keeps. -/
theorem exec_invariant (P : State → Prop) (hran : ∀ s t, Ran s t → P s → P t)
    (hticks : ∀ s n, P s → P { s with ticks := n }) (htr : ∀ s e, P s → P (record e s))
    (hread : ∀ s r, P s → P (accessRead r s)) (hwrite : ∀ s r d, P s → P (accessWrite r d s))
    (htick : ∀ s, P s → P (vtick s)) (hinit : ∀ c s, c.wf = true → P s → P (videoInit c s))
    (hreset : ∀ s, P s → P (videoReset s)) (hcpu : ∀ s, P s → P (cpuReset s))
    (hclear : ∀ s, P s → P { s with cpu := { s.cpu with breakMask := 0 } })
    {i : Instr} {s t : State} (h : P s) (he : exec i s = .next t) : P t := by
  have d := exec_did he
  cases d with
  | ran r => exact hran _ _ r h
  | burst r => exact htr _ _ (hran _ _ r (hticks _ _ h))
  | read r => exact hread _ _ h
  | write r d => exact hwrite _ _ _ h
  | tick => exact htick _ h
  | init hw => exact hinit _ _ hw h
  | vreset => exact hreset _ h
  | cinit => exact hcpu _ (hclear _ h)
  | creset => exact hcpu _ h

/-- What an operation, a run and the host's own moves keep, every step keeps. -/
theorem step_invariant (P : State → Prop) (hran : ∀ s t, Ran s t → P s → P t)
    (hex : ∀ i s t, P s → exec i s = .next t → P t)
    (hcalls : ∀ s cs, P s → P { s with host := { s.host with calls := cs } })
    (hmask : ∀ s m, P s → P { s with cpu := { s.cpu with breakMask := m % 2 ^ s.cfg.pinBits } })
    (hbus : ∀ s p, P s → P (setBus (fitPins s.cfg p) s))
    (hmem : ∀ s (a : Addr) b, P s → P { s with host := { s.host with mem := s.host.mem.write a.toNat b } })
    (hvm : ∀ s (a : Nat) b, P s → P { s with host := { s.host with vmem := s.host.vmem.write a b } })
    {s t : State} (h : P s) (he : step s = .next t) : P t := by
  obtain ⟨c, cs, -, hm⟩ | ⟨c, cs, i, u, -, hm, hx⟩ | ⟨-, i, u, hx, rfl⟩ := step_cases he
  · have h' := hcalls _ cs h
    cases c <;> cases hm
    · exact hran _ _ (ran_setPins _ _ fun _ => fitPins_fits _ _) h'
    · exact hmask _ _ h'
    · exact hran _ _ (ran_setCpu _ _ rfl (by exact id)) h'
    · exact hmem _ _ _ h'
    · exact hvm _ _ _ h'
  · have h' := hcalls _ cs h
    cases c <;> cases hm
    · exact hex _ _ _ (hbus _ _ h') hx
    · exact hex _ _ _ h' hx
  · exact hran _ _ (ran_interruptCheck u) (hex _ _ _ (hran _ _ (ran_opcodeFetch s) h) hx)

end Sys2Proof.Laws
end

