-- ==== Sys2Proof/Laws/TickFields.lean ====
section
/-! SUPPORT. What a video tick does to each field, in the state it starts from. -/

namespace Sys2Proof.Laws

open Sys2Proof.Machine Sys2Proof.Safety

/-- Pixel production touches the shifter alone of the chip (R197). -/
theorem pixelProduction_video (s : State) : (pixelProduction s).video = { s.video with shift := shiftNow s } := by
  unfold pixelProduction shiftNow
  split <;> rfl

theorem pixelProduction_rest (s : State) : (pixelProduction s).derived = s.derived ∧ (pixelProduction s).cfg = s.cfg ∧ (pixelProduction s).trace = s.trace ∧
   (pixelProduction s).host.fetches = s.host.fetches ∧ (pixelProduction s).host.vmem = s.host.vmem := by
  unfold pixelProduction
  split <;> exact ⟨rfl, rfl, rfl, rfl, rfl⟩

/-- The chip as the fetch step sees it (R199 to R202). -/
theorem beforeFetch_video (s : State) : (borderTransitions (pixelProduction s)).video =
    { s.video with shift := shiftNow s, vc := counterNow s, border := ⟨borderedH s, s.video.border.v⟩, disable := ⟨disabledH s, s.video.disable.v⟩ } := by
  show transitions (pixelProduction s).derived (pixelProduction s).video = _
  rw [(pixelProduction_rest s).1, pixelProduction_video]
  unfold transitions afterRight afterLeft atLeft counterNow borderedH disabledH
  by_cases h1 : s.video.h = s.derived.left <;> by_cases h2 : s.video.h = s.derived.left + 1 <;> by_cases h3 : s.video.h = s.derived.right + 1 <;> simp [h1, h2, h3]
  all_goals (first | rfl | (repeat' split) <;> first | rfl | omega | simp_all)

/-- The address of this tick's fetch, if it fetches (R204, R205). -/
def fetchAddrNow (s : State) : Addr :=
  if (counterNow s).getLsbD 0 then graphicsAddr s.derived.graphicsBase s.video.cValue s.derived.rowHeight s.video.rc
  else charAddr s.derived.charBase (counterNow s)

theorem beforeFetch_fetchValue (s : State) (a : Addr) : fetchValue (borderTransitions (pixelProduction s)) a = fetchValue s a := by
  have p := pixelProduction_rest s
  show fetchValue (pixelProduction s) a = _
  unfold fetchValue
  rw [p.2.2.2.1, p.2.2.2.2, (pixelProduction_kept s).display]

/-- A tick fetches or does not, by `fetchesNow` (R203). -/
theorem beforeAdvance_cases (s : State) :
    (fetchesNow s = false ∧ beforeAdvance s = borderTransitions (pixelProduction s)) ∨
    (fetchesNow s = true ∧ ∃ w, w = fetchValue s (fetchAddrNow s) ∧ (beforeAdvance s).trace = .fetched (fetchAddrNow s) w :: s.trace ∧
      (beforeAdvance s).video = fetchLoad s.cfg.colorShift w (borderTransitions (pixelProduction s)).video) := by
  have hf : fetching (borderTransitions (pixelProduction s)).video = fetchesNow s := by rw [beforeFetch_video]; rfl
  have ha : fetchAddr (borderTransitions (pixelProduction s)).derived (borderTransitions (pixelProduction s)).video = fetchAddrNow s := by
    have : (borderTransitions (pixelProduction s)).derived = s.derived := (pixelProduction_rest s).1
    rw [beforeFetch_video, this]; rfl
  have ht : (borderTransitions (pixelProduction s)).trace = s.trace := (pixelProduction_rest s).2.2.1
  have hc : (borderTransitions (pixelProduction s)).cfg = s.cfg := (pixelProduction_rest s).2.1
  unfold beforeAdvance fetchStep
  rw [hf]
  cases h : fetchesNow s with
  | false => exact .inl ⟨rfl, rfl⟩
  | true =>
    refine .inr ⟨rfl, _, rfl, ?_, ?_⟩
    · dsimp only; rw [ha, if_pos rfl]
      show Event.fetched _ _ :: _ = _
      rw [ht, beforeFetch_fetchValue]
    · dsimp only; rw [ha, if_pos rfl, hc, beforeFetch_fetchValue]; rfl

/-- What a tick has made of the latches, the counter and the trace before the counters advance (R203 to R206). -/
theorem beforeAdvance_fields (s : State) :
    (beforeAdvance s).video.border.h = borderedH s ∧ (beforeAdvance s).video.disable.h = disabledH s ∧
    (beforeAdvance s).video.vc = (if fetchesNow s then counterNow s + 1 else counterNow s) ∧
    (beforeAdvance s).video.cValue = (if fetchesNow s = true ∧ (counterNow s).getLsbD 0 = false then fetchValue s (fetchAddrNow s) else s.video.cValue) ∧
    (beforeAdvance s).video.shift = (if fetchesNow s = true ∧ (counterNow s).getLsbD 0 = true then (fetchValue s (fetchAddrNow s)).setWidth 8 else shiftNow s) ∧
    (beforeAdvance s).video.color = (if fetchesNow s = true ∧ (counterNow s).getLsbD 0 = true then colorNibble s.cfg.colorShift s.video.cValue else s.video.color) ∧
    (beforeAdvance s).trace = (if fetchesNow s then [.fetched (fetchAddrNow s) (fetchValue s (fetchAddrNow s))] else []) ++ s.trace := by
  obtain ⟨h, e⟩ | ⟨h, w, hw, ht, hv⟩ := beforeAdvance_cases s
  · rw [e, h, beforeFetch_video]
    have ht : (borderTransitions (pixelProduction s)).trace = s.trace := (pixelProduction_rest s).2.2.1
    refine ⟨rfl, rfl, rfl, ?_, ?_, ?_, ?_⟩ <;> simp [ht]
  · rw [ht, hv, h, beforeFetch_video, hw]
    unfold fetchLoad stepVc graphicsLoad charLoad
    cases hb : (counterNow s).getLsbD 0 <;> simp

/-- A fetch advances the host's queue by one (log entry 17); nothing else of a tick does. -/
theorem beforeAdvance_fetches (s : State) : (beforeAdvance s).host.fetches =
    if fetchesNow s = true then s.host.fetches.tail else s.host.fetches := by
  have hf : fetching (borderTransitions (pixelProduction s)).video = fetchesNow s := by rw [beforeFetch_video]; rfl
  have hq : (borderTransitions (pixelProduction s)).host.fetches = s.host.fetches := (pixelProduction_rest s).2.2.2.1
  unfold beforeAdvance fetchStep
  rw [hf]
  split
  · exact congrArg List.tail hq
  · exact hq

/-- What the counters' advance leaves alone. -/
theorem advance_fields (c : Config) (d : Derived) (v : Video) :
    (advance c d v).border.h = v.border.h ∧ (advance c d v).disable.h = v.disable.h ∧ (advance c d v).cValue = v.cValue ∧
    (advance c d v).shift = v.shift ∧ (advance c d v).color = v.color := by
  unfold advance endOfLine wrapStep bottomStep topStep beamStep rowStep
  repeat' split
  all_goals exact ⟨rfl, rfl, rfl, rfl, rfl⟩

theorem advance_inside (c : Config) (d : Derived) (v : Video) (h : v.h + 1 ≠ c.totalColumns) :
   advance c d v = { v with h := v.h + 1, crtX := v.crtX + 1 } := by unfold advance; rw [if_neg h]

/-- The vertical bits and the frame's counters at a line's end (R211, R213 to R215). -/
theorem advance_lineEnd (c : Config) (d : Derived) (v : Video) (h : v.h + 1 = c.totalColumns) :
   (advance c d v).border.v = (if v.v + 1 = d.bottom then true else if v.v + 1 = d.top then false else v.border.v) ∧
   (advance c d v).disable.v = (if v.v + 1 = d.bottom then true else if v.v + 1 = d.top then false else v.disable.v) ∧
   (advance c d v).vc = (if v.v + 1 = d.top then 0 else v.vc) ∧
   (advance c d v).vcBase = (if v.v + 1 = d.top then 0 else if v.rc.toNat + 1 = rowLines d.rowHeight then v.vc &&& 0x7FE else v.vcBase) ∧
   (advance c d v).rowCount = (if v.v + 1 = d.top then 0 else if v.rc.toNat + 1 = rowLines d.rowHeight then v.rowCount + 1 else v.rowCount) ∧
   (advance c d v).rc = (if v.v + 1 = d.top then 0 else if v.rc.toNat + 1 = rowLines d.rowHeight then 0 else v.rc + 1) := by
  unfold advance
  rw [if_pos h]
  unfold endOfLine wrapStep bottomStep topStep beamStep rowStep
  by_cases h1 : v.v + 1 = d.bottom <;> by_cases h2 : v.v + 1 = d.top <;> by_cases h3 : v.rc.toNat + 1 = rowLines d.rowHeight <;> by_cases h4 : v.v + 1 = c.totalLines <;> simp [h1, h2, h3, h4]
  all_goals simp_all

theorem lineEnds_iff (s : State) : LineEnds s ↔ (beforeAdvance s).video.h + 1 = s.cfg.totalColumns := by
  rw [(beforeAdvance_raster s).h]; rfl

theorem vtick_frame_produced (s : State) (h : produces s = true) : (vtick s).host.frame = s.host.frame.writeList (burstPlace s) (burst s) := by
  rw [vtick_frame_eq]; unfold pixelProduction; rw [if_pos h]; rfl

theorem vtick_frame_none (s : State) (h : produces s = false) : (vtick s).host.frame = s.host.frame := by
  rw [vtick_frame_eq]; unfold pixelProduction; rw [if_neg (by simp [h])]

end Sys2Proof.Laws
end

