-- ==== Sys2Proof/Tests/Slice0.lean ====
section
/-! SUPPORT. The model's own tests, from 95_test_vectors.md (the row is named at each test) and by hand from the rules. -/

namespace Sys2Proof.Tests

-- One theorem after another: many kernel evaluations waiting at once take a thread each.
set_option Elab.async false

open Sys2Proof.Machine
open Sys2Proof.Safety hiding sentVectors

/-! ### Fixtures of 95_test_vectors.md section 0 -/

/-- `PAL[i]`, written as the number `i`. -/
def pal : Vector Rgba 16 := Vector.ofFn fun i => BitVec.ofNat 32 i.val

/-- Read the byte at `PC` into a temporary and step `PC`. -/
def operand (i : Fin 4) (k : Handler) : Handler :=
  .step (.setAddr (.reg .pc)) (.step (.on [.rw]) (.step .exchange (.step (.set (.tmp i) .data)
    (.step (.set .pc (.bin .add (.reg .pc) (.const 1))) k))))

/-- The address of the two operand bytes, low byte first. -/
def operandAddr : HExpr := .bin .or (.bin .shl (.reg (.tmp 1)) (.const 8)) (.reg (.tmp 0))

/-- `STUB2`'s `J`. -/
def stubJ : Handler := operand 0 (operand 1 (.step (.set .pc operandAddr) .done))

/-- `STUB2`'s `ST`. -/
def stubSt : Handler :=
  operand 0 (operand 1 (.step (.setAddrData operandAddr (.reg .a)) (.step (.off [.rw]) (.step .exchange .done))))

/-- `STUB2`'s `LD`. -/
def stubLd : Handler :=
  operand 0 (operand 1 (.step (.setAddr operandAddr) (.step (.on [.rw]) (.step .exchange (.step (.set .a .data) .done)))))

/-- `STUB2`'s `CI`: `P & ~I_MASK` with the default mask. -/
def stubCi : Handler := .step (.set .p (.bin .and (.reg .p) (.const 0xFB))) .done

/-- `STUB0`. -/
def stub0 : DispatchTable := { rows := [], rest := .program .done }

/-- `STUB2`. -/
def stub2 : DispatchTable :=
  { rows := [(0x4C, .program stubJ), (0x8D, .program stubSt), (0xAD, .program stubLd), (0x58, .program stubCi)],
    rest := .program .done }

/-- `PDEF` with a palette. -/
def pdef (d : DispatchTable) : Config := { defaultConfig with palette := pal, dispatch := d }

/-- A state with `PDEF`, the given handlers, memory, `PC`, `SP` and `P`. -/
def start (d : DispatchTable) (mem : Memory 8) (pc : Addr) (sp p : Byte) : State :=
  { State.reset with
    cfg := pdef d
    cpu := { State.reset.cpu with pc := pc, sp := sp, p := p }
    derived := derive (pdef d) defaultVideoReset.regs
    host := { State.reset.host with mem := mem } }

/-- No line driven, no memory changed. -/
def quiet : Reply := quietReply

/-- Assert `irq`. -/
def irqUp : Reply := { quiet with irq := some true }

/-- Assert both interrupt lines. -/
def bothUp : Reply := { quiet with irq := some true, nmi := some true }

/-- What a next state shows. -/
def shows {α : Type} (f : State → α) : Result → Option α
  | .next s => some (f s)
  | _ => none

/-- The vectors sent, oldest first, as the numbers of the canonical layout. -/
def sentVectors (s : State) : List Nat :=
  s.trace.reverse.filterMap fun e => match e with
    | .sent p => some (pack s.cfg p)
    | _ => none

/-- The refusal, if it is one. -/
def refusal : Result → Option Refusal
  | .refused r => some r
  | _ => none

/-! ### Well-formedness smoke test -/

/-- A configuration that passes (row H3). -/
def goodConfig : VideoConfig :=
  { fetch := some 2, fb := some { base := 100, capacity := 64 }, originX := 0, originY := 0, width := 16, height := 4, debug := false }

theorem test_wf_good : (Instr.vinit goodConfig).wf = true := by decide

theorem test_wf_refuses_each :
    (Instr.vinit { goodConfig with fetch := none }).wf = false ∧
    (Instr.vinit { goodConfig with fb := some { base := 100, capacity := 63 } }).wf = false ∧
    (Instr.vinit { goodConfig with originX := 2 }).wf = false ∧
    (Instr.vinit { goodConfig with width := 18 }).wf = false ∧
    (Instr.vinit { goodConfig with debug := true }).wf = false := by decide

theorem test_default_config_wf : configWf defaultConfig = true := by decide

/-! ### CPU engine: rows E4, E10, E11 and programs P1, P2 -/

/-- P1's start. -/
def p1 : State :=
  let s := start stub0 [(0x0200, 0xEA), (0x0201, 0xEA), (0x0202, 0xEA), (0x0300, 0xEA), (0xFFFF, 0x03)] 0x0200 0xFF 0x30
  { s with host := { s.host with replies := [quiet, irqUp] } }

theorem test_p1_registers :
    shows (fun t => (t.ticks, t.cpu.pc, t.cpu.sp, t.cpu.p, pack t.cfg t.cpu.pins)) (exec (.exec 9) p1)
      = some (9, 0x0301, 0xFC, 0x34, 0x01EA0300) := by decide +kernel

theorem test_p1_vectors :
    shows sentVectors (exec (.exec 9) p1)
      = some [0x03000200, 0x03EA0201, 0x05EA0201, 0x040201FF, 0x040201FE, 0x042001FD, 0x0520FFFE, 0x0500FFFF,
              0x03030300] := by decide +kernel

/-- P2's start: `SP` wraps below the stack page's first byte. -/
def p2 : State :=
  let s := start stub0 [(0x1234, 0xEA), (0x8000, 0xEA), (0xFFFA, 0x34), (0xFFFB, 0x12)] 0x8000 0x01 0x00
  { s with host := { s.host with replies := [bothUp] } }

theorem test_p2_nmi_wins :
    shows (fun t => (t.ticks, t.cpu.pc, t.cpu.sp, t.cpu.p, pack t.cfg t.cpu.pins)) (exec (.exec 7) p2)
      = some (7, 0x1234, 0xFE, 0x04, 0x0112FFFB) := by decide +kernel

theorem test_p2_stack :
    shows (fun t => (t.host.mem.read 0x0101, t.host.mem.read 0x0100, t.host.mem.read 0x01FF)) (exec (.exec 7) p2)
      = some (0x80, 0x01, 0x00) := by decide +kernel

/-- P3 variant a: the break mask on a masked, held IRQ line. -/
def p3a : State :=
  let s := start stub0 [(0x0200, 0xEA), (0x0201, 0xEA), (0x0202, 0xEA), (0x0203, 0xEA)] 0x0200 0xFF 0x24
  { s with cpu := { s.cpu with breakMask := 0x04000000 }, host := { s.host with replies := [quiet, quiet, irqUp, irqUp] } }

theorem test_p3a_break :
    shows (fun t => (t.ticks, t.cpu.pc, pack t.cfg t.cpu.pins)) (exec (.exec 100) p3a)
      = some (3, 0x0203, 0x05EA0202) := by decide +kernel

/-- P4's start: a handler clears `I` and the pending IRQ is taken. -/
def p4 : State :=
  let s := start stub2 [(0x0200, 0xEA), (0x0201, 0x58), (0x0202, 0xEA), (0x0300, 0xEA), (0xFFFF, 0x03)] 0x0200 0xFF 0x24
  { s with host := { s.host with replies := List.replicate 9 irqUp } }

theorem test_p4_unmasked :
    shows (fun t => (t.ticks, t.cpu.pc, t.cpu.sp, t.cpu.p, t.host.mem.read 0x01FD)) (exec (.exec 9) p4)
      = some (9, 0x0301, 0xFC, 0x24, 0x20) := by decide +kernel

/-- Row E4's start: a step of three ticks that jumps to itself. -/
def e4 : State := start stub2 [(0x0200, 0x4C), (0x0202, 0x02)] 0x0200 0xFF 0x24

theorem test_e4_overshoot :
    [0, 1, 3, 4, 5, 6, 7].map (fun n => shows (fun t => (t.ticks, t.cpu.pc)) (exec (.exec n) e4))
      = [some (3, 0x0200), some (3, 0x0200), some (3, 0x0200), some (6, 0x0200), some (6, 0x0200), some (6, 0x0200),
         some (9, 0x0200)] := by decide +kernel

/-- Row E8's start: a store, then a fetch that matches the mask on `rw`. -/
def e8 : State :=
  let s := start stub2 [(0x0200, 0x8D), (0x0202, 0x20), (0x0203, 0xEA)] 0x0200 0xFF 0x24
  { s with cpu := { s.cpu with a := 0x77, breakMask := 0x01000000 } }

theorem test_e8_store_then_break :
    shows (fun t => (t.ticks, t.cpu.pc, t.host.mem.read 0x2000)) (exec (.exec 100) e8)
      = some (5, 0x0204, 0x77) := by decide +kernel

/-- Row E10: no handler for 0x02. -/
def e10 : State :=
  start { rows := [(0x02, .absent)], rest := .program .done } [(0x0200, 0x02)] 0x0200 0xFF 0x24

theorem test_e10_refuses : refusal (exec (.exec 1) e10) = some (.noHandler 0x02) := by decide +kernel

theorem test_e10_op_refuses : refusal (exec (.op 0x02) e10) = some (.noHandler 0x02) := by decide +kernel

/-- Row E9: the fetch at 0xFFFF wraps. -/
theorem test_opfetch_wraps :
    shows (fun t => (t.cpu.pc, t.cpu.pins.sync, getData t.cpu.pins))
      (exec .opfetch (start stub0 [(0xFFFF, 0xEA)] 0xFFFF 0xFF 0x24)) = some (0x0000, false, 0xEA) := by decide +kernel

/-- R132, row E5: the host returns `sync` 1 in every exchange, and it is sent in the opcode fetch, in the one exchange for
which the handler asserts it, and in no vector of the interrupt entry; the loop test does not see it. -/
theorem test_sync_visibility :
    let h : Handler := .step .exchange (.step (.on [.sync]) (.step .exchange (.step (.off [.sync]) (.step .exchange .done))))
    let s := start { rows := [], rest := .program h } [] 0x0200 0xFF 0x20
    let r := { irqUp with sync := some true }
    shows (fun t => (t.ticks, t.cpu.pins.sync, (Safety.sentVectors t.trace).map fun p => p.sync))
      (exec (.exec 11) { s with cpu := { s.cpu with breakMask := 2 ^ 25 }, host := { s.host with replies := [r, r, r, r, r, r, r, r, r, r] } })
      = some (14, false, [true, false, true, false, false, false, false, false, false, false,
                          true, false, true, false]) := by decide +kernel

/-! ### Interrupt check: rows I2 to I5 -/

/-- A state with interrupt lines as given and `P`. -/
def lines (nmi irq : Bool) (p : Byte) : State :=
  let s := start stub0 [(0xFFFA, 0x34), (0xFFFB, 0x12), (0xFFFF, 0x03)] 0x0200 0xFF p
  { s with cpu := { s.cpu with pins := { s.cpu.pins with irq := irq, nmi := nmi } } }

theorem test_intchk_rows :
    shows (fun t => (t.cpu.pc, t.ticks)) (exec .intchk (lines false false 0x20)) = some (0x0200, 0) ∧
    shows (fun t => (t.cpu.pc, t.ticks)) (exec .intchk (lines false true 0x24)) = some (0x0200, 0) ∧
    shows (fun t => (t.cpu.pc, t.ticks)) (exec .intchk (lines false true 0x20)) = some (0x0300, 6) ∧
    shows (fun t => (t.cpu.pc, t.ticks)) (exec .intchk (lines true false 0x24)) = some (0x1234, 6) ∧
    shows (fun t => (t.cpu.pc, t.ticks)) (exec .intchk (lines true true 0x20)) = some (0x1234, 6) := by decide +kernel

/-- The pushed status bytes listed after row I5. -/
theorem test_pushed_status :
    pushedStatus defaultConfig 0xFF = 0xEF ∧ pushedStatus defaultConfig 0x30 = 0x20 ∧
    pushedStatus defaultConfig 0x10 = 0x00 ∧ pushedStatus defaultConfig 0x24 = 0x24 := by decide

/-- Row I6: an NMI asserted in the first push's exchange takes the NMI vector. -/
theorem test_intseq_late_nmi :
    shows (fun t => (t.cpu.pc, t.cpu.sp, t.cpu.pins.irq, t.cpu.pins.nmi))
      (exec .intseq (let s := lines false true 0x20
        { s with host := { s.host with replies := [quiet, bothUp] } })) = some (0x1234, 0xFC, false, false) := by
  decide +kernel

/-! ### Pin bus: rows B8, B9, B11 -/

theorem test_rd_memory :
    shows (fun t => (getData t.cpu.pins, t.cpu.pins.addr, t.cpu.pins.rw, t.ticks))
      (exec (.rd 0x0200) (start stub0 [(0x0200, 0xEA)] 0 0xFF 0x24)) = some (0xEA, 0x0200, true, 1) := by decide +kernel

theorem test_wr_memory :
    shows (fun t => (t.host.mem, t.cpu.pins.rw, t.ticks)) (exec (.wr 0x01FF 0x02) (start stub0 [(0x01FF, 9)] 0 0xFF 0x24))
      = some ([(0x01FF, 0x02)], false, 1) := by decide +kernel

theorem test_xchg_vector :
    shows (fun t => pack t.cfg t.cpu.pins)
      (exec .xchg (let s := start stub0 [(0x0200, 0xEA)] 0 0xFF 0x24
        { s with cpu := { s.cpu with pins := { s.cpu.pins with addr := 0x0200, data := 0x56 } } }))
      = some 0x01EA0200 := by decide +kernel

/-- The host changes memory between two exchanges of one operation (R66): the vector's high byte, after its low byte. -/
theorem test_host_changes_memory :
    shows (fun t => (t.cpu.pc, t.host.mem.read 0x01FE)) (exec .intseq (let s := lines false true 0x20
      { s with host := { s.host with
          mem := [(0xFFFE, 0x40), (0xFFFF, 0x03)]
          replies := [quiet, quiet, { quiet with mem := [(0x01FE, 0x99)] }, quiet,
                      { quiet with mem := [(0xFFFE, 0x77), (0xFFFF, 0x08)] }] } })) = some (0x0840, 0x99) := by decide +kernel

/-- A status line of the parameter's last bit reaches the break test, and with a narrower `PIN_BITS` it does not exist
(R96, R97). -/
theorem test_pin_bits :
    pack defaultConfig { p1.cpu.pins with other := 0x800 } = 0x8001000000 ∧
    breakMatches defaultConfig { p1.cpu.pins with other := 0x800 } 0x8000000000 = true ∧
    breakMatches { defaultConfig with pinBits := 39 } { p1.cpu.pins with other := 0x800 } 0x8000000000 = false := by decide

/-- `On` and `Off` on status lines; a line that `PIN_BITS` does not give is not set (R96, R114). -/
theorem test_on_off :
    (runMicro (.on [.other 3, .irq, .other 12]) freshLocals p1).cpu.pins = { p1.cpu.pins with other := 8, irq := true } ∧
    (linesOff [.other 3, .rw] { p1.cpu.pins with other := 0xF }).other = 7 := by decide

/-! ### Register access: rows A1 to A16 -/

/-- Raster line `v`, register `r` holding `d`. -/
def atLine (v : Nat) (r : Nibble) (d : Byte) : State :=
  let s := start stub0 [] 0x0200 0xFF 0x24
  accessWrite r d { s with video := { s.video with v := v } }

/-- The data lines of the vector in the host's hand. -/
def busData (s : State) : Byte := s.host.bus.data

theorem test_vrd4_rows :
    [(300 : Nat), 301, 311, 0, 1, 255, 256].map (fun v => shows busData (exec .vrd4 (atLine v 4 0x55)))
      = [some 0x96, some 0x96, some 0x9B, some 0x00, some 0x00, some 0x7F, some 0x80] := by decide +kernel

theorem test_vrd3_rows :
    shows busData (exec .vrd3 (atLine 300 3 0xFF)) = some 0x7F ∧ shows busData (exec .vrd3 (atLine 301 3 0xFF)) = some 0xFF ∧
    shows busData (exec .vrd3 (atLine 301 3 0x2E)) = some 0xAE ∧ shows busData (exec .vrd3 (atLine 300 3 0x80)) = some 0x00 := by
  decide +kernel

theorem test_vrd_plain_rows :
    [(Instr.vrd0, (0 : Nibble)), (.vrd1, 1), (.vrd2, 2), (.vrd5, 5), (.vrd6, 6), (.vrd7, 7), (.vrd8, 8), (.vrd9, 9),
     (.vrd10, 10), (.vrd11, 11), (.vrd12, 12), (.vrd13, 13), (.vrd14, 14), (.vrd15, 15)].map
      (fun p => shows busData (exec p.1 (atLine 301 p.2 0xA5))) = List.replicate 14 (some 0xA5) := by decide +kernel

theorem test_vwr_stores_each :
    [(Instr.vwr0 0xA5, (0 : Nibble)), (.vwr1 0xA5, 1), (.vwr2 0xA5, 2), (.vwr3 0xA5, 3), (.vwr4 0xA5, 4), (.vwr5 0xA5, 5),
     (.vwr6 0xA5, 6), (.vwr7 0xA5, 7), (.vwr8 0xA5, 8), (.vwr9 0xA5, 9), (.vwr10 0xA5, 10), (.vwr11 0xA5, 11),
     (.vwr12 0xA5, 12), (.vwr13 0xA5, 13), (.vwr14 0xA5, 14), (.vwr15 0xA5, 15)].map
      (fun p => shows (fun t => regAt t.video.regs p.2) (exec p.1 (atLine 0 p.2 0))) = List.replicate 16 (some 0xA5) := by
  decide +kernel

theorem test_vwr15_colours :
    shows (fun t => (t.derived.borderColor, t.derived.bgColor)) (exec (.vwr15 0x1B) (atLine 0 0 0)) = some (3, 1) := by
  decide +kernel

theorem test_vwr2_right_edge :
    shows (fun t => (t.derived.left, t.derived.right, t.derived.charBase)) (exec (.vwr2 0x96) (atLine 0 0 0x0C))
      = some (12, 56, 0x0200) := by decide +kernel

theorem test_vwr5_bases :
    shows (fun t => (t.derived.charBase, t.derived.graphicsBase)) (exec (.vwr5 0xF0) (atLine 0 2 0x96))
      = some (0x3E00, 0x0000) := by decide +kernel

theorem test_vwr3_row_height :
    shows (fun t => (t.derived.top, t.derived.rowHeight, t.derived.bottom)) (exec (.vwr3 0x2E) (atLine 0 1 0x19))
      = some (25, .h8, 209) ∧
    shows (fun t => (t.derived.top, t.derived.rowHeight, t.derived.bottom)) (exec (.vwr3 0x2F) (atLine 0 1 0x19))
      = some (25, .h16, 393) := by decide +kernel

/-- Row H6: `TickFirst` and `AccessFirst` at the end of line 299. -/
def h6 (o : ArbOrder) : State :=
  let s := start stub0 [] 0x0200 0xFF 0x24
  { s with cfg := { s.cfg with arbOrder := o }, video := { s.video with h := 70, v := 299 } }

theorem test_arbiter_order :
    shows (fun t => getData t.cpu.pins) (exec (.rd 0x1004) (h6 .tickFirst)) = some 0x96 ∧
    shows (fun t => getData t.cpu.pins) (exec (.rd 0x1004) (h6 .accessFirst)) = some 0x95 := by decide +kernel

/-- Row H7. -/
theorem test_bus_select :
    [(0x1004 : Addr), 0x5004, 0x9004, 0xD004, 0x10F4, 0x1104, 0x0004].map (busSelect defaultConfig)
      = [true, true, true, true, true, false, false] := by decide

/-! ### Video tick: rows T1, T3, T6, T8 to T16, T19, T20 and program P5 -/

/-- P5's start. -/
def p5 : State :=
  let s := start stub0 [] 0x0200 0xFF 0x24
  { s with
    cfg := { s.cfg with totalColumns := 8 }
    derived := { rowHeight := .h8, left := 1, right := 4, top := 100, bottom := 200, borderColor := 0, bgColor := 1,
                 charBase := 0x1000, graphicsBase := 0x2000 }
    display := { fb := some { base := 100, capacity := 32 }, vis := { x0 := 0, x1 := 8, y0 := 0, y1 := 1 }, fetch := 2 }
    video := { s.video with v := 101, disable := ⟨true, false⟩, border := ⟨true, false⟩ }
    host := { s.host with vmem := [(0x21000, 0x0541), (0x21001, 0x0242), (0x22208, 0xA5), (0x22210, 0x3C)] } }

/-- The pixels of P5's line, in a buffer that begins at place 100 of the host's frame memory. -/
theorem test_p5_pixels :
    (List.range 32).map (fun i => (videoTicks 8 p5).host.frame.read (100 + i))
      = [0, 0, 0, 0, 0, 0, 0, 0, 0, 0, 0, 0, 5, 1, 5, 1, 1, 5, 1, 5, 1, 1, 2, 2, 0, 0, 0, 0, 0, 0, 0, 0] := by decide +kernel

/-- With another callback stored, `VFetch` answers from that callback's memory (R234). -/
theorem test_fetch_callback :
    fetchValue p5 0x1000 = 0x0541 ∧ fetchValue { p5 with display := { p5.display with fetch := 1 } } 0x1000 = 0 := by decide

/-- The end of P5. -/
theorem test_p5_end :
    (videoTicks 8 p5).video
      = { p5.video with h := 0, v := 102, vc := 4, rc := 1, cValue := 0x0242, shift := 0x00, color := 2, crtX := 0,
                        crtY := 1, disable := ⟨true, false⟩, border := ⟨true, false⟩ } := by decide +kernel

/-- A state at column 70 of line `v`, thresholds out of the way, vertical bits as given. -/
def eol (v : Nat) (rc : Nibble) (rh : RowHeight) (top bottom : Nat) (vbits : Bool) : State :=
  let s := start stub0 [] 0x0200 0xFF 0x24
  { s with
    derived := { s.derived with rowHeight := rh, left := 900, right := 901, top := top, bottom := bottom }
    video := { s.video with h := 70, v := v, rc := rc, vc := 45, vcBase := 22, rowCount := 3, crtY := 40,
                            border := ⟨true, vbits⟩, disable := ⟨true, vbits⟩ } }

/-- What the end of a line shows: `h`, `v`, `rc`, `rowCount`, `vcBase`, `vc`, `crt.y`. -/
def eolShows (s : State) : Option (List Nat) :=
  shows (fun t => [t.video.h, t.video.v, t.video.rc.toNat, t.video.rowCount, t.video.vcBase.toNat, t.video.vc.toNat,
                   t.video.crtY])
    (exec .vtick s)

theorem test_vtick_end_of_line :
    eolShows (eol 311 0 .h8 999 998 true) = some [0, 0, 1, 3, 22, 45, 41] ∧
    eolShows (eol 302 0 .h8 999 998 true) = some [0, 303, 1, 3, 22, 45, 0] ∧
    eolShows (eol 50 7 .h8 999 998 true) = some [0, 51, 0, 4, 44, 45, 41] ∧
    eolShows (eol 50 15 .h8 999 998 true) = some [0, 51, 0, 3, 22, 45, 41] ∧
    eolShows (eol 50 15 .h16 999 998 true) = some [0, 51, 0, 4, 44, 45, 41] ∧
    eolShows (eol 24 5 .h8 25 209 true) = some [0, 25, 0, 0, 0, 0, 41] := by decide +kernel

theorem test_vtick_thresholds :
    shows (fun t => (t.video.border.v, t.video.disable.v)) (exec .vtick (eol 24 5 .h8 25 209 true)) = some (false, false) ∧
    shows (fun t => (t.video.border.v, t.video.disable.v)) (exec .vtick (eol 208 7 .h8 25 209 false)) = some (true, true) ∧
    shows (fun t => (t.video.border.v, t.video.rc)) (exec .vtick (eol 24 5 .h8 25 25 true)) = some (true, 0) := by
  decide +kernel

/-- Rows T8, T9 and T9b. -/
theorem test_graphics_address :
    graphicsAddr 0x2000 0x0541 .h8 3 = 0x220B ∧ graphicsAddr 0x3C00 0x0FFF .h16 15 = 0x3FFF ∧
    graphicsAddr 0x0400 0x0080 .h8 0 = 0x0400 ∧ charAddr 0x1000 2 = 0x1001 ∧ colorNibble 8 0x0541 = 5 := by decide

/-- Rows T1 and T3. -/
theorem test_burst :
    (let s := { p5 with video := { p5.video with shift := 0xA5, color := 5, border := ⟨false, false⟩ } }
     (burst s, (pixelProduction s).video.shift)) = ([5, 1, 5, 1], 0x50) ∧
    (let s := { p5 with video := { p5.video with shift := 0xA5, color := 5, border := ⟨true, false⟩ } }
     (burst s, (pixelProduction s).video.shift)) = ([0, 0, 0, 0], 0x50) ∧
    pixelIndex { x0 := 2, x1 := 10, y0 := 30, y1 := 34 } 5 31 = 44 := by decide +kernel

/-! ### Boundary operations: rows H1 to H5; resets -/

theorem test_vinit_refusals :
    refusal (exec (.vinit { goodConfig with fetch := none }) State.reset) = some .noFetchCallback ∧
    refusal (exec (.vinit { goodConfig with originX := 2 }) State.reset) = some .windowNotAligned ∧
    refusal (exec (.vinit { goodConfig with fb := some { base := 100, capacity := 63 } }) State.reset) = some .frameBufferTooSmall ∧
    refusal (exec (.vinit { goodConfig with debug := true }) State.reset) = some .debugVisualisation := by decide +kernel

theorem test_vinit_window :
    shows (fun t => (t.display.vis, displayWidth t, displayHeight t))
      (exec (.vinit { goodConfig with fb := none, originX := 8, originY := 30, width := 32 }) State.reset)
      = some ({ x0 := 2, x1 := 10, y0 := 30, y1 := 34 }, 32, 4) := by decide +kernel

/-- `VINIT` stores the buffer, its place and all, and the callback (R234). -/
theorem test_vinit_stores :
    shows (fun t => (t.display.fb, t.display.fetch)) (exec (.vinit goodConfig) State.reset)
      = some (some { base := 100, capacity := 64 }, 2) := by decide +kernel

theorem test_vreset_quiet :
    shows (fun t => (t.video.disable, t.video.border, t.video.h)) (exec .vreset p5)
      = some (⟨true, true⟩, ⟨true, true⟩, 0) := by decide +kernel

theorem test_creset_keeps_mask :
    shows (fun t => (t.cpu.pc, t.cpu.sp, t.cpu.p, t.cpu.breakMask))
      (exec .creset { p3a with host := { p3a.host with mem := [(0xFFFC, 0x34), (0xFFFD, 0x12)] } })
      = some (0x1234, 0xFD, 0x24, 0x04000000) := by decide +kernel

theorem test_cinit_clears_mask :
    shows (fun t => (t.cpu.breakMask, t.cpu.pins.rw)) (exec .cinit p3a) = some (0, true) := by decide +kernel

/-! ### The step -/

/-- A queued register cycle is served by the decoded operation (row A17). -/
theorem test_step_access :
    shows busData (step { atLine 301 3 0 with host := { (atLine 301 3 0).host with
      calls := [.access { addr := 0x1004, data := 0x10, rw := true, sync := false, irq := true, nmi := false, other := 0 }] } })
      = some 0x96 := by decide +kernel

/-- With no call queued a step is one instruction step. -/
theorem test_step_instruction :
    shows (fun t => (t.ticks, t.cpu.pc)) (step e4) = some (3, 0x0200) := by decide +kernel

theorem test_table_words :
    decodeTableWord 8 0x14 = some .vrd4 ∧ decodeTableWord 8 0x0F = some (.vwr15 0) ∧
    decodeTableWord 8 0xEA = some (.op 0xEA) ∧ decodeTableWord 0 0 = none := by decide

/-- A placed register word runs as the first step after reset. -/
theorem test_placed_cycle :
    shows (fun t => t.trace) (step (State.reset.withFetchWord 8 0x14)) = some [.regRead 4 0] := by decide +kernel

/-- A placed opcode is what the first opcode fetch after reset brings. -/
theorem test_placed_opcode :
    getData (opcodeFetch (State.reset.withFetchWord 8 0xEA)).cpu.pins = 0xEA := by decide +kernel

/-! ### Witnesses: for each statement with hypotheses, a state and operands that meet them, at boundary values -/

/-- Whether an operation answers a next state. -/
def completes (r : Result) : Bool := (shows (fun _ => ()) r).isSome

/-- Replies that change no memory spare every address. -/
theorem spares {rs : List Reply} (h : rs.all (fun r => r.mem.isEmpty && r.vmem.isEmpty) = true) (a : Nat) :
    repliesSpare rs a ∧ repliesSpareVideo rs a := by
  have e (r : Reply) (hr : r ∈ rs) : r.mem = [] ∧ r.vmem = [] := by simpa using List.all_eq_true.1 h r hr
  refine ⟨fun r hr c hc => ?_, fun r hr c hc => ?_⟩
  · rw [(e r hr).1] at hc; cases hc
  · rw [(e r hr).2] at hc; cases hc

theorem witness_DecodeOfEncode :
    encode (.op 0xFF) = some (.fetch, [0xFF]) ∧ encode .vrd15 = some (.bus, [0x1F, 0]) ∧
    encode (.vwr0 0) = some (.bus, [0, 0]) := by decide

theorem witness_RegisterIndexIsMasked : (0x9013 : Addr).toNat % 16 = (0x0003 : Addr).toNat % 16 := by decide

/-- A state whose `PC` is a register of the video chip. -/
def fetchesRegister : State := { p1 with cpu := { p1.cpu with pc := 0x1004 }, host := { p1.host with replies := [] } }

/-- Memory answers, the video chip answers, the host drives. -/
theorem witness_StepRunsOpcode :
    p1.host.calls = [] ∧ memoryAnswers p1 = true ∧ getData (opcodeFetch p1).cpu.pins = 0xEA ∧
    decode .fetch [0xEA] = .ok (.op 0xEA, []) ∧
    fetchesRegister.host.calls = [] ∧ busSelect fetchesRegister.cfg fetchesRegister.cpu.pc = true ∧
    (∀ r ∈ fetchesRegister.host.replies.take 1, r.data = none) ∧
    ({ quiet with data := some 7 } : Reply).data = some 7 := by decide +kernel

/-- The last word of the one format and the first of the other. -/
theorem witness_PlacedWordRuns :
    MemoryCanonical State.reset ∧ decodeTableWord 8 31 = some .vrd15 ∧ decodeTableWord 8 32 = some (.op 32) := by
  refine ⟨⟨rfl, rfl, rfl, rfl⟩, ?_, ?_⟩ <;> decide

theorem witness_OpcodeFetchEffect : memoryAnswers p1 = true := by decide +kernel

theorem witness_OpRunsOrRefuses :
    lookup e10.cfg.dispatch 0x02 = .absent ∧ lookup State.reset.cfg.dispatch 0xFF ≠ .absent ∧
    lookup p1.cfg.dispatch 0x00 = .program .done ∧ (∀ r e, Micro.exchange ≠ .set r e) := by
  refine ⟨rfl, ?_, rfl, fun _ _ => nofun⟩
  show Entry.external ≠ .absent
  decide

/-- A write, and a read, of either server; both entries of a reply's list, at the ends of memory, and the later of two at
one place; a driven line; a queue without a reply. -/
theorem witness_ExchangeEffect :
    let r : Reply := { quiet with mem := [(0, 1), (0xFFFF, 2)], vmem := [(0, 1), (0, 2)], irq := some true }
    let s := { p1 with host := { p1.host with replies := [r] } }
    MemoryCanonical s ∧ storedAt s.cfg { s.cpu.pins with addr := 0x0200, rw := false } = some 0x0200 ∧
    repliesSpare (s.host.replies.take 1) 0x0200 ∧
    r.mem = [] ++ (0, 1) :: [(0xFFFF, 2)] ∧ (∀ x ∈ [((0xFFFF : Addr), (2 : Byte))], x.1 ≠ 0) ∧
    r.mem = [(0, 1)] ++ (0xFFFF, 2) :: [] ∧ r.vmem = [(0, 1)] ++ (0, 2) :: [] ∧
    s.cpu.pins.rw = true ∧ busSelect s.cfg 0x0200 = false ∧ busSelect s.cfg 0xD00F = true ∧ r.irq = some true ∧
    State.reset.host.replies = [] := by
  refine ⟨by unfold MemoryCanonical; decide +kernel, by decide, ?_, rfl, by simp, rfl, rfl, by decide, by decide, by decide,
    rfl, rfl⟩
  simp only [repliesSpare, List.take_succ_cons, List.mem_cons, List.take_zero, List.not_mem_nil, or_false, forall_eq]
  rintro c (rfl | rfl) <;> decide

theorem witness_BreakTest : 28 ≤ defaultConfig.pinBits ∧ 28 ≤ ({ defaultConfig with pinBits := 28 } : Config).pinBits := by
  decide

theorem witness_PinLayout : 28 ≤ defaultConfig.pinBits ∧ 28 ≤ ({ defaultConfig with pinBits := 28 } : Config).pinBits := by
  decide

/-- The addresses on both sides of each edge of the first register page. -/
theorem witness_ReadExchangeFromMemory : busSelect p1.cfg 0x0FFF = false ∧ busSelect p1.cfg 0x1100 = false := by decide

theorem witness_ReadExchangeFromVideo :
    busSelect p1.cfg 0x1000 = true ∧ busSelect p1.cfg 0x10FF = true ∧ (h6 .tickFirst).cfg.arbOrder = .tickFirst ∧
    (h6 .accessFirst).cfg.arbOrder = .accessFirst := by decide

theorem witness_ExchangeTicksVideo :
    (h6 .tickFirst).cfg.arbOrder = .tickFirst ∧ (h6 .accessFirst).cfg.arbOrder = .accessFirst := by decide

theorem witness_WriteExchangeToMemory :
    busSelect p1.cfg 0xFFFF = false ∧ MemoryCanonical p1 ∧ repliesSpare (p1.host.replies.take 1) 0xFFFF ∧
    repliesSpareVideo (p1.host.replies.take 1) 0 := by
  refine ⟨by decide, ?_, (spares (by decide) _).1, (spares (by decide) _).2⟩
  unfold MemoryCanonical
  decide +kernel

theorem witness_WriteExchangeToVideo : busSelect p1.cfg 0xD00F = true := by decide

theorem witness_ExecCountsExchanges : completes (exec (.exec 0) e4) = true := by decide +kernel

theorem witness_ExecStops : EveryByteHandled State.reset := by
  intro b
  show Entry.external ≠ .absent
  decide

/-- A burst of two instruction steps. -/
theorem witness_ExecIsLeastBoundary : completes (exec (.exec 4) e4) = true := by decide +kernel

/-- `SP` at 0x01, so that the last push wraps; and an arbiter that selects the stack page. -/
theorem witness_InterruptEntryStack :
    let c := { p2.cfg with busPattern := 0x0100 }
    MemoryCanonical p2 ∧ repliesSpare (p2.host.replies.take 6) 0x0101 ∧ repliesSpare (p2.host.replies.take 6) 0x01FF ∧
    busSelect p2.cfg (BitVec.ofNat 16 (256 + p2.cpu.sp.toNat)) = false ∧
    busSelect p2.cfg (BitVec.ofNat 16 (256 + (p2.cpu.sp - 2).toNat)) = false ∧
    busSelect c (BitVec.ofNat 16 (256 + p2.cpu.sp.toNat)) = true ∧
    busSelect c (BitVec.ofNat 16 (256 + (p2.cpu.sp - 2).toNat)) = true ∧ configWf c = true := by
  refine ⟨?_, (spares (by decide) _).1, (spares (by decide) _).1, ?_⟩
  · unfold MemoryCanonical
    decide +kernel
  · decide +kernel

theorem witness_NmiWins :
    (lines true true 0x24).cpu.pins.nmi = true ∧ (lines true true 0x24).cpu.pins.irq = true ∧
    (lines true true 0x24).host.replies.take 4 = [] := by decide

theorem witness_RowHeightFollowsItsBit : DerivedCurrent (atLine 0 1 0x19) := rfl

/-- The reference, and a `Derive` with its background in bits 3 to 0 of register 14. -/
theorem witness_ReferenceGeometry :
    p1.cfg.derive = .reference ∧
    ({ p1.cfg with derive := .other 7 0 ⟨15, 0, 3⟩ ⟨14, 0, 4⟩ } : Config).derive = .other 7 0 ⟨15, 0, 3⟩ ⟨14, 0, 4⟩ :=
  ⟨rfl, rfl⟩

theorem witness_DerivedCurrentKept :
    DerivedCurrent e4 ∧ completes (exec .vtick e4) = true ∧ completes (step e4) = true := by
  refine ⟨rfl, ?_, ?_⟩ <;> decide +kernel

theorem witness_InsideLineAdvance : ¬ LineEnds p5 := by unfold LineEnds; decide

/-- The retrace line, the last line, and another. -/
theorem witness_LineEndBeam :
    LineEnds (eol 302 0 .h8 999 998 true) ∧ LineEnds (eol 311 0 .h8 999 998 true) ∧ LineEnds (eol 50 0 .h8 999 998 true) :=
  ⟨rfl, rfl, rfl⟩

/-- P5's start is left of the display: no fetch. -/
theorem witness_FetchCondition :
    fetchesNow p5 = false ∧ ¬ LineEnds p5 ∧ fetchesNow (videoTicks 1 p5) = true := by
  refine ⟨by decide, by unfold LineEnds; decide, by decide +kernel⟩

/-- The first fetch of P5's line. -/
theorem witness_CharacterAccess :
    fetchesNow (videoTicks 1 p5) = true ∧ (counterNow (videoTicks 1 p5)).toNat % 2 = 0 := by decide +kernel

/-- The second, and one at the last counter value. -/
theorem witness_GraphicsAccess :
    fetchesNow (videoTicks 2 p5) = true ∧ (counterNow (videoTicks 2 p5)).toNat % 2 = 1 ∧
    fetchesNow { p5 with video := { p5.video with h := 2, vc := 2047, disable := ⟨false, false⟩ } } = true := by
  decide +kernel

theorem witness_CounterStep :
    (LineEnds (eol 50 7 .h8 25 209 true)) ∧ (eol 50 7 .h8 25 209 true).video.v + 1 ≠ (eol 50 7 .h8 25 209 true).derived.top :=
  ⟨rfl, by decide⟩

/-- A row's last line with either height, and a line before it. -/
theorem witness_RowEnd :
    LineEnds (eol 50 7 .h8 25 209 true) ∧ 51 ≠ (eol 50 7 .h8 25 209 true).derived.top ∧
    (eol 50 7 .h8 25 209 true).video.rc.toNat + 1 = rowLines (eol 50 7 .h8 25 209 true).derived.rowHeight ∧
    (eol 50 15 .h16 25 209 true).video.rc.toNat + 1 = rowLines (eol 50 15 .h16 25 209 true).derived.rowHeight ∧
    (eol 50 14 .h16 25 209 true).video.rc.toNat + 1 ≠ rowLines (eol 50 14 .h16 25 209 true).derived.rowHeight :=
  ⟨rfl, by decide, rfl, rfl, by decide⟩

/-- The top threshold, the bottom one, both at once, and the overflowing row counter. -/
theorem witness_VerticalThresholds :
    LineEnds (eol 24 5 .h8 25 209 true) ∧ (eol 24 5 .h8 25 209 true).video.v + 1 = (eol 24 5 .h8 25 209 true).derived.top ∧
    (eol 208 5 .h8 25 209 true).video.v + 1 = (eol 208 5 .h8 25 209 true).derived.bottom ∧
    (eol 24 5 .h8 25 25 true).derived.top = (eol 24 5 .h8 25 25 true).derived.bottom ∧
    LineEnds (eol 50 15 .h8 25 209 true) ∧ (eol 50 15 .h8 25 209 true).video.rc = 15 ∧
    (eol 50 15 .h8 25 209 true).derived.rowHeight = .h8 := ⟨rfl, rfl, rfl, rfl, rfl, rfl, rfl⟩

/-- P5's first tick, in the border. -/
theorem witness_BorderPixels :
    MemoryCanonical p5 ∧ p5.display.fb = some { base := 100, capacity := 32 } ∧ produces p5 = true ∧ p5.video.border.h = true := by
  refine ⟨?_, rfl, by decide, rfl⟩
  unfold MemoryCanonical
  decide +kernel

/-- P5 with its border off, at the window's last position. -/
theorem witness_VideoPixels :
    let s := { p5 with video := { p5.video with border := ⟨false, false⟩, crtX := 7 } }
    MemoryCanonical s ∧ s.display.fb = some { base := 100, capacity := 32 } ∧ produces s = true ∧ s.video.border.h = false ∧ s.video.border.v = false := by
  unfold MemoryCanonical
  decide +kernel

/-- No buffer, and each edge of the window. -/
theorem witness_NoPixelsOutsideWindow :
    State.reset.display.fb = none ∧ 7 < ({ x0 := 8, x1 := 9, y0 := 0, y1 := 1 } : Window).x0 ∧
    p5.display.vis.x1 ≤ 8 ∧ 0 < ({ x0 := 0, x1 := 1, y0 := 1, y1 := 2 } : Window).y0 ∧ p5.display.vis.y1 ≤ 1 ∧
    fetchesNow State.reset = false := by decide

/-- A buffer of exactly the window's size. -/
theorem witness_PixelsStayInBuffer : WindowFits p5 ∧ p5.display.fb = some { base := 100, capacity := 32 } := by
  refine ⟨fun n h => ?_, rfl⟩
  obtain rfl := Option.some.inj h
  decide

theorem witness_WindowFitsKept : WindowFits e4 ∧ completes (step e4) = true := by
  refine ⟨fun n h => (by cases h), ?_⟩
  decide +kernel

theorem witness_RasterKept : RasterInRange e4 ∧ RowBaseEven e4 ∧ completes (step e4) = true := by
  unfold RasterInRange RowBaseEven
  decide +kernel

theorem witness_MemoryCanonicalKept : MemoryCanonical e4 ∧ VectorsFit e4 ∧ completes (step e4) = true := by
  unfold MemoryCanonical VectorsFit
  decide +kernel

theorem witness_SettingsNeverWritten :
    completes (step e4) = true ∧ completes (exec .vreset e4) = true ∧ ∀ c, Instr.vreset ≠ .vinit c := by
  refine ⟨by decide +kernel, by decide +kernel, fun c h => (by cases h)⟩

theorem witness_BreakMaskOnlyByCinit : completes (exec .cinit p3a) = true ∧ completes (exec .creset p3a) = true := by
  decide +kernel

theorem witness_RefusalsOnlyWhere :
    exec (.op 0x02) e10 = .refused (.noHandler 0x02) ∧ refusal (exec (.exec 1) e10) = some (.noHandler 0x02) ∧
    exec (.vinit { goodConfig with fetch := none }) e10 = .refused .noFetchCallback := ⟨rfl, by decide +kernel, rfl⟩

theorem witness_VinitAccepts :
    (Instr.vinit goodConfig).wf = true ∧ (Instr.vinit { goodConfig with fb := none }).wf = true ∧ goodConfig.fetch = some 2 := by
  decide

/-- A buffer one pixel short, a window off by one and by three, and the switch. -/
theorem witness_VinitRefuses :
    (Instr.vinit { goodConfig with fb := some { base := 100, capacity := 63 } }).wf = false ∧
    63 < goodConfig.width * goodConfig.height ∧ goodConfig.width * goodConfig.height ≤ 64 ∧ goodConfig.fetch ≠ none ∧
    ({ goodConfig with originX := 1 } : VideoConfig).originX % 4 ≠ 0 ∧
    ({ goodConfig with fb := none, width := 19 } : VideoConfig).width % 4 ≠ 0 ∧
    goodConfig.originX % 4 = 0 ∧ goodConfig.width % 4 = 0 ∧ ({ goodConfig with debug := true } : VideoConfig).debug = true := by
  decide

theorem witness_DisplayQueries : (Instr.vinit { goodConfig with originX := 8 }).wf = true := by decide

theorem witness_CpuResetEffect : p3a.cpu.breakMask = 0x04000000 ∧ p1.cpu.breakMask = 0 := by decide

end Sys2Proof.Tests
end

/-! The derived fields stay `Derive` of the registers (R35): the two writers recompute them, and whatever else
runs leaves the parameters, the registers and the derived fields alone. -/

namespace Sys2Proof.Proofs

open Sys2Proof.Machine Sys2Proof.Safety Sys2Proof.Laws

/-- The invariant reads three fields of the state alone. -/
theorem derivedCurrent_of_kept {s t : State} (hcfg : t.cfg = s.cfg) (hregs : t.video.regs = s.video.regs)
    (hderived : t.derived = s.derived) (h : DerivedCurrent s) : DerivedCurrent t := by
  unfold DerivedCurrent at *
  rw [hcfg, hregs, hderived, h]

theorem vtick_derivedCurrent (s : State) (h : DerivedCurrent s) : DerivedCurrent (vtick s) :=
  have k := vtick_kept s
  derivedCurrent_of_kept k.cfg k.regs k.derived h

/-- A register write recomputes the derived fields from the file it leaves (R164, R176), whatever they were. -/
theorem accessWrite_derivedCurrent (r : Nibble) (d : Byte) (s : State) : DerivedCurrent (accessWrite r d s) :=
  accessWrite_derived r d s

/-- A video reset loads the derived fields with the reset registers (R301), whatever they were. -/
theorem videoReset_derivedCurrent (s : State) : DerivedCurrent (videoReset s) :=
  videoReset_derived s

/-- `VINIT` ends in a video reset (R234), so the configuration it stores does not matter. -/
theorem videoInit_derivedCurrent (c : VideoConfig) (s : State) : DerivedCurrent (videoInit c s) :=
  videoReset_derivedCurrent _

theorem exec_derivedCurrent {i : Instr} {s t : State} (h : DerivedCurrent s) (he : exec i s = .next t) :
    DerivedCurrent t :=
  exec_invariant DerivedCurrent
    (hran := fun _ _ r => r.derived)
    (hticks := fun _ _ => derivedCurrent_of_kept rfl rfl rfl)
    (htr := fun s e => derivedCurrent_of_kept (record_cfg e s) rfl (record_derived e s))
    (hread := fun s r => derivedCurrent_of_kept (accessRead_cfg r s) rfl (accessRead_derived r s))
    (hwrite := fun s r d _ => accessWrite_derivedCurrent r d s)
    (htick := vtick_derivedCurrent)
    (hinit := fun c s _ _ => videoInit_derivedCurrent c s)
    (hreset := fun s _ => videoReset_derivedCurrent s)
    (hcpu := fun s => derivedCurrent_of_kept (cpuReset_cfg s) rfl (cpuReset_derived s))
    (hclear := fun _ => derivedCurrent_of_kept rfl rfl rfl)
    h he

/-- The host's own moves reach neither the register file nor the derived fields (R230). -/
theorem step_derivedCurrent {s t : State} (h : DerivedCurrent s) (he : step s = .next t) : DerivedCurrent t :=
  step_invariant DerivedCurrent
    (hran := fun _ _ r => r.derived)
    (hex := fun _ _ _ => exec_derivedCurrent)
    (hcalls := fun _ _ => derivedCurrent_of_kept rfl rfl rfl)
    (hmask := fun _ _ => derivedCurrent_of_kept rfl rfl rfl)
    (hbus := fun s p => derivedCurrent_of_kept (setBus_cfg (fitPins s.cfg p) s) rfl (setBus_derived _ s))
    (hmem := fun _ _ _ => derivedCurrent_of_kept rfl rfl rfl)
    (hvm := fun _ _ _ => derivedCurrent_of_kept rfl rfl rfl)
    h he

/-- Settles O32: every operation is a run, a tick, a register access or a reset, each of which keeps the invariant, and a
step adds to these the host's moves alone. -/
theorem derivedCurrentKept : Obligations.DerivedCurrentKept :=
  ⟨fun _ _ _ => exec_derivedCurrent, fun _ _ => step_derivedCurrent⟩

end Sys2Proof.Proofs

/-! A register cycle the arbiter forwards to the video chip (R94, R95, R160): the vector decodes to the read or the write
of one register, the one the low four address lines name, and that operation is `access` on the vector. -/

namespace Sys2Proof.Proofs

open Sys2Proof.Machine

/-- Each row's read is of its own register (R161). -/
theorem exec_decodeRead (r : Nibble) (s : State) : exec (decodeRead r) s = .next (accessRead r s) := by
  obtain ⟨⟨n, hn⟩⟩ := r
  interval_cases n <;> rfl

/-- Each row's write is to its own register (R164). -/
theorem exec_decodeWrite (r : Nibble) (d : Byte) (s : State) :
    exec (decodeWrite r d) s = .next (accessWrite r d s) := by
  obtain ⟨⟨n, hn⟩⟩ := r
  interval_cases n <;> rfl

theorem vregPattern_direction (p : Pins) : (vregPattern p).getLsbD 4 = p.rw :=
  BitVec.getLsbD_append.trans (by simp)

theorem vregPattern_register (p : Pins) : (vregPattern p).setWidth 4 = regIndex p.addr :=
  BitVec.setWidth_append_eq_right

/-- The direction line chooses the operation and the register index its register; no other line but `data` counts. -/
theorem decodePins_eq (p : Pins) :
    decodePins p = if p.rw then decodeRead (regIndex p.addr) else decodeWrite (regIndex p.addr) p.data := by
  rw [decodePins, decodeVreg, vregPattern_direction, vregPattern_register]

theorem exec_decodePins (s : State) : exec (decodePins s.host.bus) s = .next (videoAccess s) := by
  rw [decodePins_eq, videoAccess]
  split
  · exact exec_decodeRead _ s
  · exact exec_decodeWrite _ _ s

theorem regIndex_eq_mod (a : Addr) : regIndex a = BitVec.ofNat 4 (a.toNat % 16) :=
  BitVec.eq_of_toNat_eq (by simp [regIndex])

/-- Settles O4: a forwarded vector is run as `access`, and the register index is the address modulo 16. -/
theorem registerIndexIsMasked : Obligations.RegisterIndexIsMasked := by
  refine ⟨fun s => ?_, fun p a b hab => ?_⟩
  · rw [exec_decodePins, videoAccess, regIndex_eq_mod]
  · have hindex : regIndex a = regIndex b := by rw [regIndex_eq_mod, regIndex_eq_mod, hab]
    rw [decodePins_eq, decodePins_eq]
    simp only [hindex]

end Sys2Proof.Proofs

/-! The break test (R97): two numbers have a common bit exactly when their conjunction is not 0, and no bit of a vector
stands at or above `PIN_BITS`. -/

namespace Sys2Proof.Proofs

open Sys2Proof.Machine Sys2Proof.Laws

theorem and_ne_zero_iff_common_bit (m n : Nat) : m &&& n ≠ 0 ↔ ∃ i, m.testBit i = true ∧ n.testBit i = true := by
  simp only [← Bool.and_eq_true, ← Nat.testBit_and]
  constructor
  · exact Nat.exists_testBit_of_ne_zero
  · rintro ⟨i, hi⟩ hzero
    simp [hzero] at hi

theorem breakMatches_iff_common_bit (c : Config) (p : Pins) (mask : Nat) :
    breakMatches c p mask = true ↔ ∃ i, (pack c p).testBit i = true ∧ mask.testBit i = true := by
  rw [breakMatches, decide_eq_true_eq, and_ne_zero_iff_common_bit]

/-- A bit of the vector that is high is one of its `PIN_BITS` lines (R96). -/
theorem lt_pinBits_of_pack_testBit {c : Config} {p : Pins} {i : Nat} (hc : 28 ≤ c.pinBits)
    (hi : (pack c p).testBit i = true) : i < c.pinBits :=
  (Nat.pow_lt_pow_iff_right (by decide)).1 ((Nat.ge_two_pow_of_testBit hi).trans_lt (pack_lt c p hc))

/-- Settles O19: the common bit that makes the conjunction nonzero is a high line of the vector, hence below `PIN_BITS`. -/
theorem breakTest : Obligations.BreakTest := by
  intro c p mask hc
  rw [breakMatches_iff_common_bit]
  constructor
  · rintro ⟨i, hpack, hmask⟩
    exact ⟨i, lt_pinBits_of_pack_testBit hc hpack, hmask, hpack⟩
  · rintro ⟨i, -, hmask, hpack⟩
    exact ⟨i, hpack, hmask⟩

end Sys2Proof.Proofs

/-! The video chip's register access (42_video_access.md section 1) and the row height it derives (R171): what `ReadValue`
answers for each kind of register, and what the write of one register does to the row height. -/

namespace Sys2Proof.Proofs

open Sys2Proof.Machine Sys2Proof.Safety Sys2Proof.Laws

theorem readValue_plain {r : Nibble} (h3 : r ≠ 3) (h4 : r ≠ 4) (v : Video) : readValue v r = regAt v.regs r := by
  rw [readValue, if_neg h3, if_neg h4]

/-- The two parts of R162 share no bit, so their disjunction is their sum. -/
theorem readValue_three_toNat (v : Video) :
    (readValue v 3).toNat = v.v % 2 * 128 + (regAt v.regs 3).toNat % 128 := by
  have hline : (BitVec.ofNat 8 (v.v % 2) <<< 7).toNat = (v.v % 2) <<< 7 := by
    rw [BitVec.toNat_shiftLeft, BitVec.toNat_ofNat, Nat.shiftLeft_eq, Nat.shiftLeft_eq]
    omega
  have hstored : (regAt v.regs 3 &&& 0x7F).toNat = (regAt v.regs 3).toNat % 128 :=
    Nat.and_two_pow_sub_one_eq_mod _ 7
  have hlt : (regAt v.regs 3).toNat % 128 < 2 ^ 7 := Nat.mod_lt _ (by decide)
  change (BitVec.ofNat 8 (v.v % 2) <<< 7 ||| (regAt v.regs 3 &&& 0x7F)).toNat = _
  rw [BitVec.toNat_or, hline, hstored, ← Nat.shiftLeft_add_eq_or_of_lt hlt, Nat.shiftLeft_eq]

theorem readValue_four_toNat (v : Video) : (readValue v 4).toNat = v.v / 2 % 256 :=
  BitVec.toNat_ofNat _ 8

theorem derive_rowHeight (c : Config) (regs : RegFile) :
    (derive c regs).rowHeight = rowHeightOf ((regAt regs 3).getLsbD (rowHeightBit c.derive)) := rfl

theorem accessWrite_three_rowHeight (d : Byte) (s : State) :
    (accessWrite 3 d s).derived.rowHeight = rowHeightOf (d.getLsbD (rowHeightBit s.cfg.derive)) := by
  rw [accessWrite_derived, derive_rowHeight, regSet_same]

/-- The write recomputes the row height from a register 3 it has not touched, so a current one stays. -/
theorem accessWrite_other_rowHeight {r : Nibble} (hr : r ≠ 3) (d : Byte) {s : State} (hs : DerivedCurrent s) :
    (accessWrite r d s).derived.rowHeight = s.derived.rowHeight := by
  rw [accessWrite_derived, hs, derive_rowHeight, derive_rowHeight, regSet_other hr.symm]

/-- Settles O26: each of the rows is the read of its own register, which is neither 3 nor 4. -/
theorem plainRegisterReads : Obligations.PlainRegisterReads := by
  intro p hp s
  obtain ⟨hrow, h3, h4⟩ : p.1 = decodeRead p.2 ∧ p.2 ≠ 3 ∧ p.2 ≠ 4 := by
    revert p
    decide
  rw [hrow, exec_decodeRead, ← readValue_plain h3 h4]
  rfl

/-- Settles O27: the byte read is `ReadValue(3)`. -/
theorem registerThreeRead : Obligations.RegisterThreeRead :=
  fun s => ⟨readValue s.video 3, readValue_three_toNat s.video, exec_decodeRead 3 s⟩

/-- Settles O28: the byte read is `ReadValue(4)`. -/
theorem registerFourRead : Obligations.RegisterFourRead :=
  fun s => ⟨readValue s.video 4, readValue_four_toNat s.video, exec_decodeRead 4 s⟩

/-- Settles O29: the sixteen rows are the writes of the sixteen registers, and the new file is `regSet` of the old one. -/
theorem registerWritesStore : Obligations.RegisterWritesStore := by
  change ∀ p ∈ ([0, 1, 2, 3, 4, 5, 6, 7, 8, 9, 10, 11, 12, 13, 14, 15] : List Nibble).map fun r => (decodeWrite r, r), _
  rw [List.forall_mem_map]
  intro r _ d s
  exact ⟨regSet s.video.regs r d, exec_decodeWrite r d s, regSet_same _ r d, fun q hq => regSet_other hq⟩

/-- Settles O30: the row height is read off register 3, which the write of another register leaves as it was. -/
theorem rowHeightFollowsItsBit : Obligations.RowHeightFollowsItsBit := by
  constructor
  · intro d s
    exact ⟨accessWrite 3 d s, exec_decodeWrite 3 d s, accessWrite_three_rowHeight d s⟩
  · change ∀ p ∈ ([0, 1, 2, 4, 5, 6, 7, 8, 9, 10, 11, 12, 13, 14, 15] : List Nibble).map decodeWrite, _
    rw [List.forall_mem_map]
    intro r hr d s hs
    have hr3 : r ≠ 3 := by
      rintro rfl
      exact absurd hr (by decide)
    exact ⟨accessWrite r d s, exec_decodeWrite r d s, accessWrite_other_rowHeight hr3 d hs⟩

end Sys2Proof.Proofs

/-! The fetch step and the end of a line, as one tick makes them from the state it starts from (43_video_tick.md sections 4
and 5): the beam, the c-access, the matrix counter and the row end. -/

namespace Sys2Proof.Proofs

open Sys2Proof.Machine Sys2Proof.Safety Sys2Proof.Laws

theorem exec_vtick (s : State) : exec .vtick s = .next (vtick s) := rfl

/-- The counters' advance observes nothing; the tick's result is recorded last (R222). -/
theorem vtick_trace (s : State) : (vtick s).trace = .ticked false :: (beforeAdvance s).trace := rfl

/-! ### The counters and the latches after a tick -/

/-- The beam at a line's end (R212): its old `x` does not matter. -/
theorem vtick_beam_of_lineEnds {s : State} (hend : LineEnds s) :
    (vtick s).video.crtX = 0 ∧
    (vtick s).video.crtY = if s.video.v + 1 = s.cfg.retraceLine then 0 else s.video.crtY + 1 := by
  have raster := beforeAdvance_raster s
  obtain ⟨-, hx, hy⟩ :=
    endOfLine_beam s.cfg s.derived { (beforeAdvance s).video with h := 0, crtX := (beforeAdvance s).video.crtX + 1 }
  rw [vtick_video, advance, if_pos ((lineEnds_iff s).1 hend)]
  exact ⟨hx, hy.trans (by simp only [raster.v, raster.crtY])⟩

/-- Of the four parts only the fetch step and pixel production reach the latches (R197, R204). -/
theorem vtick_latches_of_characterAccess {s : State} (hfetch : fetchesNow s = true)
    (heven : (counterNow s).getLsbD 0 = false) :
    (vtick s).video.cValue = fetchValue s (fetchAddrNow s) ∧ (vtick s).video.shift = shiftNow s ∧
    (vtick s).video.color = s.video.color := by
  obtain ⟨-, -, hcValue, hshift, hcolor⟩ := advance_fields s.cfg s.derived (beforeAdvance s).video
  obtain ⟨-, -, -, fcValue, fshift, fcolor, -⟩ := beforeAdvance_fields s
  have hgraphics : ¬(fetchesNow s = true ∧ (counterNow s).getLsbD 0 = true) :=
    fun ⟨_, hodd⟩ => Bool.false_ne_true (heven.symm.trans hodd)
  rw [vtick_video, hcValue, hshift, hcolor, fcValue, fshift, fcolor, if_pos ⟨hfetch, heven⟩, if_neg hgraphics,
    if_neg hgraphics]
  exact ⟨rfl, rfl, rfl⟩

theorem vtick_trace_of_fetchesNow {s : State} (hfetch : fetchesNow s = true) :
    (vtick s).trace = .ticked false :: .fetched (fetchAddrNow s) (fetchValue s (fetchAddrNow s)) :: s.trace := by
  obtain ⟨-, -, -, -, -, -, ftrace⟩ := beforeAdvance_fields s
  rw [vtick_trace, ftrace, if_pos hfetch]
  rfl

/-- Of the counters' advance only the top threshold writes the matrix counter (R213). -/
theorem advance_vc_of_not_top (c : Config) (d : Derived) (v : Video)
    (htop : v.h + 1 = c.totalColumns → v.v + 1 ≠ d.top) : (advance c d v).vc = v.vc := by
  by_cases hend : v.h + 1 = c.totalColumns
  · obtain ⟨-, -, hvc, -⟩ := advance_lineEnd c d v hend
    rw [hvc, if_neg (htop hend)]
  · rw [advance_inside c d v hend]

theorem vtick_vc_of_not_top {s : State} (htop : LineEnds s → s.video.v + 1 ≠ s.derived.top) :
    (vtick s).video.vc = if fetchesNow s then counterNow s + 1 else counterNow s := by
  obtain ⟨-, -, fvc, -⟩ := beforeAdvance_fields s
  rw [vtick_video, advance_vc_of_not_top, fvc]
  rwa [← lineEnds_iff, (beforeAdvance_raster s).v]

/-- The row end (R211, R215); the row base is taken from the counter that the tick leaves. -/
theorem vtick_row_of_lineEnds {s : State} (hend : LineEnds s) (htop : s.video.v + 1 ≠ s.derived.top) :
    (vtick s).video.rc =
      (if s.video.rc.toNat + 1 = rowLines s.derived.rowHeight then 0 else s.video.rc + 1) ∧
    (vtick s).video.rowCount =
      (if s.video.rc.toNat + 1 = rowLines s.derived.rowHeight then s.video.rowCount + 1 else s.video.rowCount) ∧
    (vtick s).video.vcBase =
      (if s.video.rc.toNat + 1 = rowLines s.derived.rowHeight then (vtick s).video.vc &&& 0x7FE
       else s.video.vcBase) := by
  have raster := beforeAdvance_raster s
  obtain ⟨-, -, hvc, hvcBase, hrowCount, hrc⟩ :=
    advance_lineEnd s.cfg s.derived (beforeAdvance s).video ((lineEnds_iff s).1 hend)
  simp only [raster.v, raster.rc, raster.rowCount, raster.vcBase, if_neg htop] at hvc hvcBase hrowCount hrc
  rw [vtick_video, hvc, hvcBase, hrowCount, hrc]
  exact ⟨rfl, rfl, rfl⟩

/-! ### The counter's arithmetic -/

/-- Bit 0 of the counter says which access a fetch makes (R204, R205). -/
theorem getLsbD_zero_eq_false_iff (x : VCount) : x.getLsbD 0 = false ↔ x.toNat % 2 = 0 :=
  Nat.mod_two_eq_zero_iff_testBit_zero.symm

theorem charAddr_eq_div (base : Addr) (vc : VCount) :
    charAddr base vc = base ||| BitVec.ofNat 16 (vc.toNat / 2) := by
  rw [charAddr, ← BitVec.ofNat_toNat, BitVec.toNat_ushiftRight, Nat.shiftRight_one]

/-- Dropping bit 0 of the counter (R211): its upper ten bits stay, and bit 0 is clear. -/
theorem masked_toNat (x : VCount) : (x &&& 0x7FE).toNat = x.toNat / 2 * 2 := by
  have hupper : (x &&& 0x7FE).toNat / 2 = x.toNat / 2 := by
    rw [BitVec.toNat_and, Nat.and_div_two]
    exact (Nat.and_two_pow_sub_one_eq_mod _ 10).trans (Nat.mod_eq_of_lt (by omega))
  have heven : (x &&& 0x7FE).toNat % 2 = 0 :=
    (getLsbD_zero_eq_false_iff _).1 (masked_even x)
  omega

/-! ### The statements -/

/-- Settles O35: the end of the line moves the beam, and the wraps of `h` and `v` are those of every tick. -/
theorem lineEndBeam : Obligations.LineEndBeam := by
  intro s hend
  obtain ⟨hx, hy⟩ := vtick_beam_of_lineEnds hend
  obtain ⟨hh, hv⟩ := vtick_hv s
  exact ⟨vtick s, exec_vtick s, hx, hy, hh.trans (if_pos hend), hv.trans (if_pos hend)⟩

/-- Settles O38: at an even counter the tick's fetch is the c-access, at `charBase | (vc >> 1)`. -/
theorem characterAccess : Obligations.CharacterAccess := by
  intro s hfetch hmod
  have heven := (getLsbD_zero_eq_false_iff _).2 hmod
  have haddr : fetchAddrNow s = s.derived.charBase ||| BitVec.ofNat 16 ((counterNow s).toNat / 2) := by
    rw [fetchAddrNow, heven, if_neg Bool.false_ne_true, charAddr_eq_div]
  exact ⟨vtick s, fetchAddrNow s, exec_vtick s, haddr, vtick_trace_of_fetchesNow hfetch,
    vtick_latches_of_characterAccess hfetch heven⟩

/-- Settles O40: the counter's one step is the fetch's, and it is that of an 11-bit number. -/
theorem counterStep : Obligations.CounterStep := by
  intro s htop
  refine ⟨vtick s, exec_vtick s, ?_⟩
  rw [vtick_vc_of_not_top htop]
  split
  · exact BitVec.toNat_add _ _
  · rfl

/-- Settles O41: the row ends or goes on as the row counter, before it is reduced to 4 bits, meets the row height. -/
theorem rowEnd : Obligations.RowEnd := by
  intro s hend htop
  obtain ⟨hrc, hrowCount, hvcBase⟩ := vtick_row_of_lineEnds hend htop
  refine ⟨vtick s, exec_vtick s, ?_⟩
  split
  next hrow =>
    rw [if_pos hrow] at hrc hrowCount hvcBase
    exact ⟨hrc, hrowCount, by rw [hvcBase, masked_toNat]⟩
  next hrow =>
    rw [if_neg hrow] at hrc hrowCount hvcBase
    refine ⟨fun hlt => ?_, hrowCount, hvcBase⟩
    rw [hrc, BitVec.toNat_add]
    exact Nat.mod_eq_of_lt (Nat.succ_lt_succ hlt)

end Sys2Proof.Proofs

/-! The video chip's boundary operations and its two queries (44_host_interfaces.md section 3): what `VINIT` of an accepted
configuration and `VRESET` do, and the size of the window that an aligned configuration gives. -/

namespace Sys2Proof.Proofs

open Sys2Proof.Machine Sys2Proof.Laws

theorem exec_vreset (s : State) : exec .vreset s = .next (videoReset s) := rfl

/-- An accepted configuration is stored and the chip reset (R234). -/
theorem exec_vinit_of_wf {c : VideoConfig} (hwf : c.wf = true) (s : State) :
    exec (.vinit c) s = .next (videoInit c s) := by
  change execVinit c s = .next (videoInit c s)
  obtain ⟨-, hnext⟩ | ⟨hbad, -⟩ := execVinit_cases c s
  · exact hnext
  · exact absurd (hwf.symm.trans hbad) (by decide)

@[simp] theorem videoInit_display (c : VideoConfig) (s : State) :
    (videoInit c s).display = { fb := c.fb, vis := windowOf c, fetch := fetchOf c } := rfl

/-- R235 check 3 is one of the checks an accepted configuration has passed. -/
theorem aligned_of_wf {c : VideoConfig} (hwf : c.wf = true) : c.originX % 4 = 0 ∧ c.width % 4 = 0 := by
  simp only [VideoConfig.wf, Bool.and_eq_true] at hwf
  obtain ⟨⟨-, haligned⟩, -⟩ := hwf
  exact of_decide_eq_true haligned

/-- In an aligned window nothing is lost to the division by the 4-pixel unit (R106). -/
theorem windowOf_pixelWidth {c : VideoConfig} (hx : c.originX % 4 = 0) (hw : c.width % 4 = 0) :
    4 * ((windowOf c).x1 - (windowOf c).x0) = c.width := by
  change 4 * ((c.originX + c.width) / 4 - c.originX / 4) = c.width
  omega

theorem windowOf_lineCount (c : VideoConfig) : (windowOf c).y1 - (windowOf c).y0 = c.height :=
  Nat.add_sub_cancel_left ..

theorem displayWidth_videoInit {c : VideoConfig} (hwf : c.wf = true) (s : State) :
    displayWidth (videoInit c s) = c.width := by
  obtain ⟨hx, hw⟩ := aligned_of_wf hwf
  rw [displayWidth, videoInit_display, windowOf_pixelWidth hx hw]

theorem displayHeight_videoInit (c : VideoConfig) (s : State) : displayHeight (videoInit c s) = c.height := by
  rw [displayHeight, videoInit_display, windowOf_lineCount]

/-- Settles O56: `VRESET` is `videoReset`, which loads the reset state and the fields derived from its registers. -/
theorem vresetEffect : Obligations.VresetEffect := exec_vreset

/-- Settles O57: the queries read the stored window, and an accepted configuration's window is aligned, so its width in
beam units is its width in pixels by four. -/
theorem displayQueries : Obligations.DisplayQueries :=
  ⟨fun _ => ⟨rfl, rfl⟩, fun c s hwf =>
    ⟨videoInit c s, exec_vinit_of_wf hwf s, displayWidth_videoInit hwf s, displayHeight_videoInit c s⟩⟩

end Sys2Proof.Proofs

/-! The two resets side by side (70_reset_and_hazards.md section 1): `CRESET` writes the CPU and the tick count, `VRESET`
the video chip and the fields derived from its registers. What each reset reads, the other keeps, so that the two commute. -/

namespace Sys2Proof.Proofs

open Sys2Proof.Machine Sys2Proof.Laws

theorem exec_creset (s : State) : exec .creset s = .next (cpuReset s) := rfl

/-- Neither reset writes a field that the other writes or reads (R302): `CRESET` reads the parameters, the host's memory and
`breakMask`, `VRESET` the parameters. The order of the two record updates is therefore immaterial. -/
theorem cpuReset_videoReset (s : State) : cpuReset (videoReset s) = videoReset (cpuReset s) := rfl

/-- Settles O59: the next states are those of `cpuReset` and `videoReset`, which commute, and each keeps the fields of the
other's chip. -/
theorem resetsAreIndependent : Obligations.ResetsAreIndependent := by
  intro s
  have hcommute : exec .creset (videoReset s) = .next (videoReset (cpuReset s)) := by
    rw [exec_creset, cpuReset_videoReset]
  exact ⟨cpuReset s, videoReset s, videoReset (cpuReset s), exec_creset s, exec_vreset _, exec_vreset s, hcommute,
    cpuReset_video s, cpuReset_derived s, videoReset_cpu s, videoReset_ticks s⟩

end Sys2Proof.Proofs

/-! What encodes and what decodes (30_encoding.md sections 1 and 2): every operation with an encoding is decoded back, and
every bit pattern is the encoding of what it decodes to. -/

namespace Sys2Proof.Proofs

open Sys2Proof Sys2Proof.Laws

/-! ### Decoding an encoding -/

/-- One of the model's lemmas for each row of the opcode table. -/
theorem encodingStatement : ∀ i : Instr, Encoding.Statement i
  | .op b => Encoding.op b
  | .vrd0 => Encoding.vrd0
  | .vrd1 => Encoding.vrd1
  | .vrd2 => Encoding.vrd2
  | .vrd3 => Encoding.vrd3
  | .vrd4 => Encoding.vrd4
  | .vrd5 => Encoding.vrd5
  | .vrd6 => Encoding.vrd6
  | .vrd7 => Encoding.vrd7
  | .vrd8 => Encoding.vrd8
  | .vrd9 => Encoding.vrd9
  | .vrd10 => Encoding.vrd10
  | .vrd11 => Encoding.vrd11
  | .vrd12 => Encoding.vrd12
  | .vrd13 => Encoding.vrd13
  | .vrd14 => Encoding.vrd14
  | .vrd15 => Encoding.vrd15
  | .vwr0 d => Encoding.vwr0 d
  | .vwr1 d => Encoding.vwr1 d
  | .vwr2 d => Encoding.vwr2 d
  | .vwr3 d => Encoding.vwr3 d
  | .vwr4 d => Encoding.vwr4 d
  | .vwr5 d => Encoding.vwr5 d
  | .vwr6 d => Encoding.vwr6 d
  | .vwr7 d => Encoding.vwr7 d
  | .vwr8 d => Encoding.vwr8 d
  | .vwr9 d => Encoding.vwr9 d
  | .vwr10 d => Encoding.vwr10 d
  | .vwr11 d => Encoding.vwr11 d
  | .vwr12 d => Encoding.vwr12 d
  | .vwr13 d => Encoding.vwr13 d
  | .vwr14 d => Encoding.vwr14 d
  | .vwr15 d => Encoding.vwr15 d
  | .opfetch => Encoding.opfetch
  | .intchk => Encoding.intchk
  | .intseq => Encoding.intseq
  | .exec n => Encoding.exec n
  | .xchg => Encoding.xchg
  | .rd a => Encoding.rd a
  | .wr a d => Encoding.wr a d
  | .vtick => Encoding.vtick
  | .vinit c => Encoding.vinit c
  | .vreset => Encoding.vreset
  | .cinit => Encoding.cinit
  | .creset => Encoding.creset

/-- Settles O1, row by row of the opcode table. -/
theorem decodeOfEncode : Obligations.DecodeOfEncode :=
  fun i c bs rest he => encodingStatement i c bs he rest

/-! ### Encoding what was decoded -/

theorem encode_decodeRead (r : Nibble) : encode (decodeRead r) = some (readBytes r) := by
  obtain ⟨⟨n, hn⟩⟩ := r
  interval_cases n <;> rfl

theorem encode_decodeWrite (r : Nibble) (d : Byte) : encode (decodeWrite r d) = some (writeBytes r d) := by
  obtain ⟨⟨n, hn⟩⟩ := r
  interval_cases n <;> rfl

/-- The pattern byte is the direction bit above the register index. -/
theorem pattern_append (pat : BitVec 5) :
    (if pat.getLsbD 4 then 0x1#4 else 0x0#4) ++ pat.setWidth 4 = pat.setWidth 8 := by
  revert pat
  decide

theorem encode_decodeVreg (pat : BitVec 5) (d : Byte) :
    encode (decodeVreg pat d) = some (.bus, [pat.setWidth 8, if pat.getLsbD 4 then 0 else d]) := by
  rw [← pattern_append, decodeVreg]
  split
  · exact encode_decodeRead _
  · exact encode_decodeWrite _ d

/-- A five-bit pattern, as a byte, is a register cycle's first byte. -/
theorem decode_pattern (pat : BitVec 5) (d : Byte) (rest : List Byte) :
    decode .bus (pat.setWidth 8 :: d :: rest) = .ok (decodeVreg pat d, rest) := by
  have hlt : (pat.setWidth 8).toNat < 32 := by
    rw [BitVec.toNat_setWidth_of_le (by decide)]
    exact pat.isLt
  have hpat : (pat.setWidth 8).setWidth 5 = pat := BitVec.setWidth_setWidth_of_le pat (by decide)
  rw [Encoding.decode_bus _ _ _ hlt, hpat]

/-- Settles O2: an opcode byte decodes to `OP` of it, a pattern to the row whose bytes it begins. -/
theorem encodeOfDecode : Obligations.EncodeOfDecode :=
  ⟨fun b _ => ⟨.op b, rfl, rfl⟩,
   fun pat d rest => ⟨decodeVreg pat d, decode_pattern pat d rest, encode_decodeVreg pat d⟩⟩

/-- Settles O3: five rows of the opcode table, by decoding their words. -/
theorem specWordsDecode : Obligations.SpecWordsDecode := by
  unfold Obligations.SpecWordsDecode
  decide

end Sys2Proof.Proofs

/-! The invariants of a run (10_state.md, 44_host_interfaces.md section 3): each reads a few fields of the state, which only
the named writers reach, and each writer keeps it. -/

namespace Sys2Proof.Proofs

open Sys2Proof Sys2Proof.Machine Sys2Proof.Safety Sys2Proof.Laws

/-! ### The buffer and the window (R235) -/

theorem windowFits_of_display {s t : State} (hdisplay : t.display = s.display) (h : WindowFits s) : WindowFits t := by
  unfold WindowFits at *
  rwa [hdisplay]

/-- R235 check 2 is one of the checks an accepted configuration has passed. -/
theorem bufferHolds_of_wf {c : VideoConfig} (hwf : c.wf = true) {b : FrameBuffer} (hb : c.fb = some b) :
    c.width * c.height ≤ b.capacity := by
  simp only [VideoConfig.wf, Bool.and_eq_true] at hwf
  obtain ⟨⟨⟨-, hlarge⟩, -⟩, -⟩ := hwf
  rw [VideoConfig.bufferLargeEnough, hb] at hlarge
  exact of_decide_eq_true hlarge

/-- `VINIT` makes the window it stores fit, whatever was there: the area in pixels is `width * height`. -/
theorem videoInit_windowFits {c : VideoConfig} (hwf : c.wf = true) (s : State) : WindowFits (videoInit c s) := by
  intro b hb
  obtain ⟨hx, hw⟩ := aligned_of_wf hwf
  rw [videoInit_display]
  dsimp only
  calc ((windowOf c).y1 - (windowOf c).y0) * ((windowOf c).x1 - (windowOf c).x0) * 4
      = (4 * ((windowOf c).x1 - (windowOf c).x0)) * ((windowOf c).y1 - (windowOf c).y0) := by ring
    _ = c.width * c.height := by rw [windowOf_pixelWidth hx hw, windowOf_lineCount]
    _ ≤ b.capacity := bufferHolds_of_wf hwf hb

theorem exec_windowFits {i : Instr} {s t : State} (h : WindowFits s) (he : exec i s = .next t) : WindowFits t :=
  exec_invariant WindowFits
    (hran := fun _ _ r => windowFits_of_display r.display)
    (hticks := fun _ _ => windowFits_of_display rfl)
    (htr := fun s e => windowFits_of_display (record_display e s))
    (hread := fun s r => windowFits_of_display (accessRead_display r s))
    (hwrite := fun s r d => windowFits_of_display (accessWrite_display r d s))
    (htick := fun s => windowFits_of_display (vtick_kept s).display)
    (hinit := fun _ s hwf _ => videoInit_windowFits hwf s)
    (hreset := fun s => windowFits_of_display (videoReset_display s))
    (hcpu := fun s => windowFits_of_display (cpuReset_display s))
    (hclear := fun _ => windowFits_of_display rfl)
    h he

/-- Settles O47: `VINIT` alone writes the buffer and the window, and it has checked the one against the other. -/
theorem windowFitsKept : Obligations.WindowFitsKept := fun _ _ h he =>
  step_invariant WindowFits
    (hran := fun _ _ r => windowFits_of_display r.display)
    (hex := fun _ _ _ => exec_windowFits)
    (hcalls := fun _ _ => windowFits_of_display rfl)
    (hmask := fun _ _ => windowFits_of_display rfl)
    (hbus := fun s p => windowFits_of_display (setBus_display (fitPins s.cfg p) s))
    (hmem := fun _ _ _ => windowFits_of_display rfl)
    (hvm := fun _ _ _ => windowFits_of_display rfl)
    h he

/-! ### The raster counters (R34, R211, R221) -/

/-- What holds of the parameters and the chip's counters, if runs and ticks keep it, register writes do not reach it and the
reset state has it, every step keeps. -/
theorem step_chipInvariant (P : Config → Video → Prop)
    (hran : ∀ s t, Ran s t → P s.cfg s.video → P t.cfg t.video)
    (hregs : ∀ c v r, P c v → P c { v with regs := r })
    (htick : ∀ s, P s.cfg s.video → P s.cfg (vtick s).video)
    (hreset : ∀ c v, P c v → P c c.videoReset)
    {s t : State} (h : P s.cfg s.video) (he : step s = .next t) : P t.cfg t.video :=
  step_invariant (fun u => P u.cfg u.video) (hran := hran)
    (hex := fun _ _ _ => exec_invariant (fun u => P u.cfg u.video) (hran := hran)
      (hticks := fun _ _ hu => hu)
      (htr := fun _ _ hu => hu)
      (hread := fun _ _ hu => hu)
      (hwrite := fun _ _ _ => hregs _ _ _)
      (htick := fun u hu => by rw [(vtick_kept u).cfg]; exact htick u hu)
      (hinit := fun _ u _ => hreset u.cfg u.video)
      (hreset := fun u => hreset u.cfg u.video)
      (hcpu := fun _ hu => hu)
      (hclear := fun _ hu => hu))
    (hcalls := fun _ _ hu => hu)
    (hmask := fun _ _ hu => hu)
    (hbus := fun _ _ hu => hu)
    (hmem := fun _ _ _ hu => hu)
    (hvm := fun _ _ _ hu => hu)
    h he

/-- The parameters' own conditions put the reset counters in range and the reset row base on an even value (R51). -/
theorem videoReset_raster_of_configWf {c : Config} (hc : configWf c = true) :
    c.videoReset.h < c.totalColumns ∧ c.videoReset.v < c.totalLines ∧ c.videoReset.vcBase.getLsbD 0 = false := by
  simp only [configWf, Bool.and_eq_true, decide_eq_true_eq, Bool.not_eq_true'] at hc
  obtain ⟨⟨⟨⟨⟨-, hh⟩, hv⟩, hbase⟩, -⟩, -⟩ := hc
  exact ⟨hh, hv, hbase⟩

theorem step_rasterInRange {s t : State} (h : RasterInRange s) (he : step s = .next t) : RasterInRange t :=
  step_chipInvariant (fun c v => configWf c = true ∧ v.h < c.totalColumns ∧ v.v < c.totalLines)
    (hran := fun _ _ r => r.raster)
    (hregs := fun _ _ _ hu => hu)
    (htick := fun u hu => ⟨hu.1, (vtick_rasterInRange u hu).2⟩)
    (hreset := fun _ _ ⟨hc, _⟩ =>
      have ⟨hh, hv, _⟩ := videoReset_raster_of_configWf hc
      ⟨hc, hh, hv⟩)
    h he

theorem step_rowBaseEven {s t : State} (h : RowBaseEven s) (he : step s = .next t) : RowBaseEven t :=
  step_chipInvariant (fun c v => configWf c = true ∧ v.vcBase.getLsbD 0 = false)
    (hran := fun _ _ r => r.rowBase)
    (hregs := fun _ _ _ hu => hu)
    (htick := fun u hu => ⟨hu.1, vtick_even u hu.2⟩)
    (hreset := fun _ _ ⟨hc, _⟩ =>
      have ⟨_, _, hbase⟩ := videoReset_raster_of_configWf hc
      ⟨hc, hbase⟩)
    h he

/-- Settles O48: ticks keep the ranges and the even row base by the wraps and the mask, and a reset loads values that the
parameters' conditions bound. -/
theorem rasterKept : Obligations.RasterKept :=
  ⟨fun _ _ => step_rasterInRange, fun _ _ => step_rowBaseEven⟩

/-! ### The memories' form and the vectors' width -/

theorem memoryCanonical_of_memories {s t : State} (hmem : t.host.mem = s.host.mem) (hvmem : t.host.vmem = s.host.vmem)
    (hframe : t.host.frame = s.host.frame) (h : MemoryCanonical s) : MemoryCanonical t := by
  unfold MemoryCanonical at *
  rwa [hmem, hvmem, hframe]

theorem vtick_memoryCanonical (s : State) (h : MemoryCanonical s) : MemoryCanonical (vtick s) := by
  have k := vtick_kept s
  obtain ⟨hmem, hbelow, hvmem, hframe⟩ := h
  unfold MemoryCanonical
  rw [k.mem, k.vmem]
  exact ⟨hmem, hbelow, hvmem, vtick_frame_wf s hframe⟩

theorem exec_memoryCanonical {i : Instr} {s t : State} (h : MemoryCanonical s) (he : exec i s = .next t) :
    MemoryCanonical t :=
  exec_invariant MemoryCanonical
    (hran := fun _ _ r => r.memory)
    (hticks := fun _ _ => memoryCanonical_of_memories rfl rfl rfl)
    (htr := fun _ _ => memoryCanonical_of_memories rfl rfl rfl)
    (hread := fun _ _ => memoryCanonical_of_memories rfl rfl rfl)
    (hwrite := fun _ _ _ => memoryCanonical_of_memories rfl rfl rfl)
    (htick := vtick_memoryCanonical)
    (hinit := fun _ _ _ => memoryCanonical_of_memories rfl rfl rfl)
    (hreset := fun _ => memoryCanonical_of_memories rfl rfl rfl)
    (hcpu := fun _ => memoryCanonical_of_memories rfl rfl rfl)
    (hclear := fun _ => memoryCanonical_of_memories rfl rfl rfl)
    h he

/-- The host's pokes are writes, which keep the form, and an address of the bus has 16 bits. -/
theorem step_memoryCanonical {s t : State} (h : MemoryCanonical s) (he : step s = .next t) : MemoryCanonical t :=
  step_invariant MemoryCanonical
    (hran := fun _ _ r => r.memory)
    (hex := fun _ _ _ => exec_memoryCanonical)
    (hcalls := fun _ _ => memoryCanonical_of_memories rfl rfl rfl)
    (hmask := fun _ _ => memoryCanonical_of_memories rfl rfl rfl)
    (hbus := fun _ _ => memoryCanonical_of_memories rfl rfl rfl)
    (hmem := fun _ a b ⟨hmem, hbelow, hrest⟩ => ⟨write_wf hmem a.toNat b, write_below b a.isLt hbelow, hrest⟩)
    (hvm := fun _ a w ⟨hmem, hbelow, hvmem, hframe⟩ => ⟨hmem, hbelow, write_wf hvmem a w, hframe⟩)
    h he

theorem vectorsFit_of_vectors {s t : State} (hcfg : t.cfg = s.cfg) (hcpu : t.cpu = s.cpu)
    (hbus : t.host.bus.other = s.host.bus.other) (h : VectorsFit s) : VectorsFit t := by
  unfold VectorsFit at *
  rwa [hcfg, hcpu, hbus]

/-- The reset snapshot has the width, by the parameters' conditions (R52). -/
theorem cpuReset_vectorsFit (s : State) (h : VectorsFit s) : VectorsFit (cpuReset s) := by
  obtain ⟨hc, -, hbus, hmask⟩ := h
  have hpins := hc
  simp only [configWf, Bool.and_eq_true, decide_eq_true_eq] at hpins
  exact ⟨hc, hpins.2, hbus, hmask⟩

/-- The zero mask has any width. -/
theorem clearedMask_vectorsFit (s : State) (h : VectorsFit s) :
    VectorsFit { s with cpu := { s.cpu with breakMask := 0 } } :=
  have ⟨hc, hpins, hbus, _⟩ := h
  ⟨hc, hpins, hbus, Nat.two_pow_pos _⟩

theorem exec_vectorsFit {i : Instr} {s t : State} (h : VectorsFit s) (he : exec i s = .next t) : VectorsFit t :=
  exec_invariant VectorsFit
    (hran := fun _ _ r => r.vectors)
    (hticks := fun _ _ => vectorsFit_of_vectors rfl rfl rfl)
    (htr := fun _ _ => vectorsFit_of_vectors rfl rfl rfl)
    (hread := fun _ _ => vectorsFit_of_vectors rfl rfl rfl)
    (hwrite := fun _ _ _ => vectorsFit_of_vectors rfl rfl rfl)
    (htick := fun s =>
      have k := vtick_kept s
      vectorsFit_of_vectors k.cfg k.cpu (congrArg Pins.other k.bus))
    (hinit := fun _ _ _ => vectorsFit_of_vectors rfl rfl rfl)
    (hreset := fun _ => vectorsFit_of_vectors rfl rfl rfl)
    (hcpu := cpuReset_vectorsFit)
    (hclear := clearedMask_vectorsFit)
    h he

/-- The host's vectors and masks are cut to the width (log entry 11). -/
theorem step_vectorsFit {s t : State} (h : VectorsFit s) (he : step s = .next t) : VectorsFit t :=
  step_invariant VectorsFit
    (hran := fun _ _ r => r.vectors)
    (hex := fun _ _ _ => exec_vectorsFit)
    (hcalls := fun _ _ => vectorsFit_of_vectors rfl rfl rfl)
    (hmask := fun _ _ ⟨hc, hpins, hbus, _⟩ => ⟨hc, hpins, hbus, Nat.mod_lt _ (Nat.two_pow_pos _)⟩)
    (hbus := fun _ _ ⟨hc, hpins, _, hmask⟩ => ⟨hc, hpins, fitPins_fits _ _, hmask⟩)
    (hmem := fun _ _ _ => vectorsFit_of_vectors rfl rfl rfl)
    (hvm := fun _ _ _ => vectorsFit_of_vectors rfl rfl rfl)
    h he

/-- Settles O49: every write keeps a memory's form, and every vector or mask from outside the chips is cut to `PIN_BITS`. -/
theorem memoryCanonicalKept : Obligations.MemoryCanonicalKept :=
  ⟨fun _ _ => step_memoryCanonical, fun _ _ => step_vectorsFit⟩

/-- Settles O50: the reset memories are empty, no buffer is attached, and the default parameters meet their conditions. -/
theorem invariantsAtReset : Obligations.InvariantsAtReset := by
  have hcfg : configWf State.reset.cfg = true := by decide
  refine ⟨rfl, fun _ hb => (nomatch hb), ⟨hcfg, by decide, by decide⟩, ⟨hcfg, by decide⟩, ⟨rfl, rfl, rfl, rfl⟩,
    ⟨hcfg, by decide, by decide, by decide⟩, fun b => ?_⟩
  change Entry.external ≠ .absent
  decide

/-! ### What no step writes -/

theorem exec_cfg {i : Instr} {s t : State} (he : exec i s = .next t) : t.cfg = s.cfg :=
  exec_invariant (fun u => u.cfg = s.cfg)
    (hran := fun _ _ r hu => r.cfg.trans hu)
    (hticks := fun _ _ hu => hu)
    (htr := fun _ _ hu => hu)
    (hread := fun _ _ hu => hu)
    (hwrite := fun _ _ _ hu => hu)
    (htick := fun u hu => (vtick_kept u).cfg.trans hu)
    (hinit := fun _ _ _ hu => hu)
    (hreset := fun _ hu => hu)
    (hcpu := fun _ hu => hu)
    (hclear := fun _ hu => hu)
    rfl he

theorem step_cfg {s t : State} (he : step s = .next t) : t.cfg = s.cfg :=
  step_invariant (fun u => u.cfg = s.cfg)
    (hran := fun _ _ r hu => r.cfg.trans hu)
    (hex := fun _ _ _ hu hx => (exec_cfg hx).trans hu)
    (hcalls := fun _ _ hu => hu)
    (hmask := fun _ _ hu => hu)
    (hbus := fun _ _ hu => hu)
    (hmem := fun _ _ _ hu => hu)
    (hvm := fun _ _ _ hu => hu)
    rfl he

theorem exec_display_of_not_vinit {i : Instr} {s t : State} (he : exec i s = .next t) (hi : ∀ c, i ≠ .vinit c) :
    t.display = s.display := by
  cases exec_did he with
  | ran r => exact r.display
  | burst r => exact r.display
  | read r => rfl
  | write r d => rfl
  | tick => exact (vtick_kept s).display
  | init hwf => exact absurd rfl (hi _)
  | vreset => rfl
  | cinit => rfl
  | creset => rfl

/-- Settles O51: no writer of the state names the parameters, and only `VINIT` names the video configuration. -/
theorem settingsNeverWritten : Obligations.SettingsNeverWritten :=
  ⟨fun _ _ => step_cfg, fun _ _ _ => exec_display_of_not_vinit⟩

/-- Settles O52: a run keeps the mask (R134), ticks and the video chip do not reach it, and of the resets `CINIT` alone
clears it. -/
theorem breakMaskOnlyByCinit : Obligations.BreakMaskOnlyByCinit := by
  intro i s t he
  cases exec_did he with
  | ran r => exact .inl r.breakMask
  | burst r => exact .inl r.breakMask
  | read r => exact .inl rfl
  | write r d => exact .inl rfl
  | tick => exact .inl (congrArg Cpu.breakMask (vtick_kept s).cpu)
  | init hwf => exact .inl rfl
  | vreset => exact .inl rfl
  | cinit => exact .inr ⟨rfl, rfl⟩
  | creset => exact .inl rfl

end Sys2Proof.Proofs

/-! What the interface operations do (44_host_interfaces.md, 60_exceptions.md, 70_reset_and_hazards.md): the host's queued
calls, the refusals, `VINIT` and the resets. -/

namespace Sys2Proof.Proofs

open Sys2Proof Sys2Proof.Machine Sys2Proof.Safety Sys2Proof.Laws

/-- Settles O6: a step with a call queued is that call on the state with the rest of the queue, for each kind of call. -/
theorem stepRunsHostCall : Obligations.StepRunsHostCall := fun _ _ =>
  ⟨fun _ => rfl, fun _ => rfl, fun _ => rfl, fun _ => rfl, fun _ => rfl, fun _ _ => rfl, fun _ _ => rfl⟩

/-! ### Refusals -/

/-- `OP`, `EXEC` and `VINIT` alone can refuse, each for its own reason (R93, R235, R281). -/
theorem exec_refused {i : Instr} {s : State} {r : Refusal} (he : exec i s = .refused r) :
    (∃ b, r = .noHandler b ∧ lookup s.cfg.dispatch b = .absent ∧ (i = .op b ∨ ∃ n, i = .exec n)) ∨
    (∃ c, i = .vinit c ∧ i.wf = false) := by
  cases i with
  | op b =>
    change dispatch b s = _ at he
    obtain ⟨habsent, hrefused⟩ | ⟨-, t, hnext, -⟩ := dispatch_cases b s
    · cases hrefused.symm.trans he
      exact .inl ⟨b, rfl, habsent, .inl rfl⟩
    · cases hnext.symm.trans he
  | exec n =>
    change execExec n s = _ at he
    obtain ⟨b, habsent, hrefused⟩ | ⟨t, hnext, -⟩ := execExec_cases n s
    · cases hrefused.symm.trans he
      exact .inl ⟨b, rfl, habsent, .inr ⟨n, rfl⟩⟩
    · cases hnext.symm.trans he
  | vinit c =>
    change execVinit c s = _ at he
    obtain ⟨-, hnext⟩ | ⟨hbad, -⟩ := execVinit_cases c s
    · cases hnext.symm.trans he
    · exact .inr ⟨c, rfl, hbad⟩
  | _ => cases he

/-- Settles O53: no fault exists to answer, and the refusals are those of three operations. -/
theorem refusalsOnlyWhere : Obligations.RefusalsOnlyWhere :=
  fun _ _ => ⟨fun f => (nomatch f), fun _ => exec_refused⟩

/-! ### `VINIT` (R234, R235) -/

/-- Settles O54: an accepted configuration's callback is the one it gives, and the rest is `videoInit`. -/
theorem vinitAccepts : Obligations.VinitAccepts := by
  intro c k s hwf hfetch
  have hcallback : fetchOf c = k := by rw [fetchOf, hfetch, Option.getD_some]
  rw [exec_vinit_of_wf hwf s, ← hcallback]
  rfl

theorem fetchPresent_of_ne_none {c : VideoConfig} (h : c.fetch ≠ none) : c.fetchPresent = true :=
  Option.isSome_iff_ne_none.2 h

theorem bufferLargeEnough_iff (c : VideoConfig) :
    c.bufferLargeEnough = true ↔ ∀ b, c.fb = some b → c.width * c.height ≤ b.capacity := by
  unfold VideoConfig.bufferLargeEnough
  split <;> simp_all

/-- Settles O55: the checks are made in order, and a configuration that fails one has passed those before it. -/
theorem vinitRefuses : Obligations.VinitRefuses := by
  intro c s
  refine ⟨fun hbad => ?_, fun hfetch => ?_, fun b hfetch hb hsmall => ?_, fun hfetch hlarge hoff => ?_,
    fun hfetch hlarge hx hw hdebug => ?_⟩
  · obtain ⟨hwf, -⟩ | ⟨-, hrefused⟩ := execVinit_cases c s
    · exact absurd (hwf.symm.trans hbad) (by decide)
    · exact hrefused
  · have hnone : c.fetchPresent = false := by rw [VideoConfig.fetchPresent, hfetch, Option.isSome_none]
    change execVinit c s = _
    simp [execVinit, hnone]
  · have hshort : c.bufferLargeEnough = false :=
      Bool.eq_false_iff.2 fun h => absurd ((bufferLargeEnough_iff c).1 h b hb) (by omega)
    change execVinit c s = _
    simp [execVinit, fetchPresent_of_ne_none hfetch, hshort]
  · have hmisaligned : c.windowAligned = false := decide_eq_false (by omega)
    change execVinit c s = _
    simp [execVinit, fetchPresent_of_ne_none hfetch, (bufferLargeEnough_iff c).2 hlarge, hmisaligned]
  · have haligned : c.windowAligned = true := decide_eq_true ⟨hx, hw⟩
    have hon : c.debugOff = false := by rw [VideoConfig.debugOff, hdebug, Bool.not_true]
    change execVinit c s = _
    simp [execVinit, fetchPresent_of_ne_none hfetch, (bufferLargeEnough_iff c).2 hlarge, haligned, hon]

/-! ### Resets (R300, R50) -/

/-- An append puts two digits side by side: the word of two bytes is `256 * high + low` (R64, R99). -/
theorem append_toNat {m n : Nat} (hi : BitVec m) (lo : BitVec n) : (hi ++ lo).toNat = hi.toNat * 2 ^ n + lo.toNat := by
  rw [BitVec.toNat_append, ← Nat.shiftLeft_add_eq_or_of_lt lo.isLt, Nat.shiftLeft_eq]

/-- Settles O58: `PC` is the little-endian word at the reset vector, and `CINIT` is `CRESET` with the mask cleared. -/
theorem cpuResetEffect : Obligations.CpuResetEffect := by
  intro s
  refine ⟨wordAt s.host.mem s.cfg.resetVector, append_toNat _ _, fun m => ⟨fun hm => ?_, fun hm => ?_⟩⟩
  · rw [hm]; rfl
  · rw [hm]; rfl

/-- Settles O60: `State.reset` is written with the default parameters' reset values, and empty memory reads 0. -/
theorem resetValues : Obligations.ResetValues := ⟨rfl, rfl, rfl⟩

end Sys2Proof.Proofs

/-! The layouts (30_encoding.md section 3, 42_video_access.md sections 3 and 4): the lines of a packed vector and the fields
of the registers, in arithmetic. -/

namespace Sys2Proof.Proofs

open Sys2Proof Sys2Proof.Machine Sys2Proof.Safety Sys2Proof.Laws

/-! ### The packed vector (R96) -/

/-- The lines that every vector has, as digits of one number. -/
theorem packLow_toNat (p : Pins) :
    (packLow p).toNat = ((((p.nmi.toNat * 2 + p.irq.toNat) * 2 + p.sync.toNat) * 2 + p.rw.toNat) * 2 ^ 8 +
      p.data.toNat) * 2 ^ 16 + p.addr.toNat := by
  simp only [packLow, append_toNat, BitVec.toNat_ofBool, pow_one]

theorem testBit_eq_of_digit {n i : Nat} {b : Bool} (h : n / 2 ^ i % 2 = b.toNat) : n.testBit i = b := by
  rw [Nat.testBit_eq_decide_div_mod_eq, h]
  cases b <;> rfl

/-- Settles O20: the packed vector is a number written in those digits, so each line is a quotient's remainder. -/
theorem pinLayout : Obligations.PinLayout := by
  intro c p hbits
  have hpack : pack c p = 2 ^ 28 * fitOther c p.other + (packLow p).toNat := rfl
  rw [packLow_toNat] at hpack
  have haddr : p.addr.toNat < 2 ^ 16 := p.addr.isLt
  have hdata : p.data.toNat < 2 ^ 8 := p.data.isLt
  have hrw := p.rw.toNat_lt
  have hsync := p.sync.toNat_lt
  have hirq := p.irq.toNat_lt
  have hnmi := p.nmi.toNat_lt
  refine ⟨pack_lt c p hbits, by omega, by omega, testBit_eq_of_digit (by omega), testBit_eq_of_digit (by omega),
    testBit_eq_of_digit (by omega), testBit_eq_of_digit (by omega), ?_⟩
  change _ = fitOther c p.other
  omega

/-! ### The derived fields (R170 to R181) -/

/-- A field of a byte, its bits `hi..lo`, as a remainder of a quotient. -/
theorem bits_eq (b : Byte) (hi lo : Nat) : bits b hi lo = b.toNat / 2 ^ lo % 2 ^ (hi + 1 - lo) := by
  rw [bits, Nat.shiftRight_eq_div_pow]

theorem fieldIndex_eq (f : ColorField) (regs : RegFile) :
    fieldIndex f regs = BitVec.ofNat 4 ((regAt regs f.reg).toNat / 2 ^ f.lo.val % 2 ^ f.width.val) := by
  rw [fieldIndex, Nat.shiftRight_eq_div_pow]

/-- The reference row-height bit is bit 0 of register 3 (R178). -/
theorem deriveRowHeight_reference {c : Config} (hc : c.derive = .reference) (regs : RegFile) :
    deriveRowHeight c regs = if (regAt regs 3).toNat % 2 = 1 then .h16 else .h8 := by
  have hbit : (regAt regs 3).getLsbD 0 = decide ((regAt regs 3).toNat % 2 = 1) := Nat.testBit_zero _
  rw [deriveRowHeight, hc, rowHeightBit, hbit, rowHeightOf]
  simp only [decide_eq_true_eq]

theorem rowLines_ite (p : Prop) [Decidable p] :
    rowLines (if p then .h16 else .h8) = if p then 16 else 8 := by
  split <;> rfl

theorem refBottom_eq (rh : RowHeight) (regs : RegFile) :
    refBottom rh regs = (regAt regs 1).toNat + (regAt regs 3).toNat / 2 % 64 * rowLines rh := by
  rw [refBottom, bits_eq]
  rfl

theorem refLeft_eq (regs : RegFile) : refLeft regs = (regAt regs 0).toNat % 128 := by
  rw [refLeft, bits_eq, pow_zero, Nat.div_one]
  rfl

theorem refRight_eq (regs : RegFile) :
    refRight regs = (regAt regs 0).toNat % 128 + 2 * ((regAt regs 2).toNat % 128) := by
  rw [refRight, refLeft_eq, bits_eq, pow_zero, Nat.div_one]
  rfl

/-- The two parts of `charBase` share no bit, and both fit an address (R181). -/
theorem refCharBase_toNat (regs : RegFile) :
    (refCharBase regs).toNat = (regAt regs 5).toNat / 16 * 1024 + (regAt regs 2).toNat / 128 * 512 := by
  have h5 : (regAt regs 5).toNat < 256 := (regAt regs 5).isLt
  have h2 : (regAt regs 2).toNat < 256 := (regAt regs 2).isLt
  have hlow : bits (regAt regs 2) 7 7 <<< 9 < 2 ^ 10 := by
    rw [bits_eq, Nat.shiftLeft_eq]
    omega
  rw [refCharBase, ← Nat.shiftLeft_add_eq_or_of_lt hlow, BitVec.toNat_ofNat, bits_eq, bits_eq, Nat.shiftLeft_eq,
    Nat.shiftLeft_eq]
  omega

theorem refGraphicsBase_toNat (regs : RegFile) :
    (refGraphicsBase regs).toNat = (regAt regs 5).toNat % 16 * 1024 := by
  rw [refGraphicsBase, BitVec.toNat_ofNat, bits_eq, Nat.shiftLeft_eq]
  omega

/-- The border-colour index of the reference is the low three bits of register 15 (R180). -/
theorem fieldIndex_referenceBorder (regs : RegFile) :
    fieldIndex (borderField .reference) regs = BitVec.ofNat 4 ((regAt regs 15).toNat % 8) :=
  (fieldIndex_eq _ regs).trans (congrArg (fun n => BitVec.ofNat 4 (n % 8)) (Nat.div_one _))

/-- The background index of the reference is the high four bits of register 15 (R180). -/
theorem fieldIndex_referenceBackground (regs : RegFile) :
    fieldIndex (bgField .reference) regs = BitVec.ofNat 4 ((regAt regs 15).toNat / 16) :=
  (fieldIndex_eq _ regs).trans
    (congrArg (BitVec.ofNat 4) (Nat.mod_eq_of_lt (Nat.div_lt_of_lt_mul (regAt regs 15).isLt)))

theorem derive_reference {c : Config} (hc : c.derive = .reference) (regs : RegFile) :
    derive c regs =
      { rowHeight := deriveRowHeight c regs, left := refLeft regs, right := refRight regs, top := refTop regs,
        bottom := refBottom (deriveRowHeight c regs) regs,
        borderColor := paletteColor c (fieldIndex (borderField .reference) regs)
        bgColor := paletteColor c (fieldIndex (bgField .reference) regs)
        charBase := refCharBase regs, graphicsBase := refGraphicsBase regs } := by
  rw [derive, hc]
  rfl

/-- Settles O31: each derived field is the field of the registers that `Derive` names, in arithmetic. -/
theorem referenceGeometry : Obligations.ReferenceGeometry := by
  refine ⟨fun c regs k bit fb fg hc => ?_, fun c regs hc => ?_⟩
  · rw [← fieldIndex_eq, ← fieldIndex_eq, derive, hc]
    exact ⟨rfl, rfl⟩
  · have hrow := deriveRowHeight_reference hc regs
    rw [derive_reference hc]
    refine ⟨hrow, refLeft_eq regs, refRight_eq regs, rfl, ?_, ?_, ?_, refCharBase_toNat regs, refGraphicsBase_toNat regs⟩
    · exact (refBottom_eq _ regs).trans (by rw [hrow, rowLines_ite])
    · exact congrArg (paletteColor c) (fieldIndex_referenceBorder regs)
    · exact congrArg (paletteColor c) (fieldIndex_referenceBackground regs)

end Sys2Proof.Proofs

/-! The rest of the video tick (43_video_tick.md): its frame, the transitions, the fetch condition, the g-access, the
vertical thresholds and the pixels. -/

namespace Sys2Proof.Proofs

open Sys2Proof Sys2Proof.Machine Sys2Proof.Safety Sys2Proof.Laws

/-! ### The frame and the counters -/

/-- Settles O33: `TickKept` is the frame, and the fetch, if there is one, is the one event before the result. -/
theorem vtickFrame : Obligations.VtickFrame := by
  intro s
  have k := vtick_kept s
  obtain ⟨-, -, -, -, -, -, htrace⟩ := beforeAdvance_fields s
  refine ⟨vtick s, if fetchesNow s then [.fetched (fetchAddrNow s) (fetchValue s (fetchAddrNow s))] else [],
    exec_vtick s, ?_, ?_, k.cpu, k.ticks, ⟨k.cfg, k.display⟩, ⟨fun _ => by rw [k.mem], fun _ => by rw [k.vmem]⟩,
    ⟨k.regs, k.derived⟩, k.bus, k.replies, k.calls⟩
  · rw [vtick_trace, htrace]
  · split
    · exact .inr ⟨_, _, rfl⟩
    · exact .inl rfl

/-- Inside a line the counters' part is one step of the column and of the beam (D25). -/
theorem vtick_video_of_inside {s : State} (hin : ¬ LineEnds s) :
    (vtick s).video = { (beforeAdvance s).video with
      h := (beforeAdvance s).video.h + 1, crtX := (beforeAdvance s).video.crtX + 1 } := by
  rw [vtick_video, advance_inside _ _ _ fun hend => hin ((lineEnds_iff s).2 hend)]

/-- Settles O34: the parts before the counters leave all these fields alone. -/
theorem insideLineAdvance : Obligations.InsideLineAdvance := by
  intro s hin
  have raster := beforeAdvance_raster s
  refine ⟨vtick s, exec_vtick s, ?_⟩
  rw [vtick_video_of_inside hin]
  exact ⟨congrArg (· + 1) raster.h, congrArg (· + 1) raster.crtX, raster.crtY, raster.v, raster.rc, raster.rowCount,
    raster.vcBase, raster.borderV, raster.disableV⟩

/-- Settles O36: the counters' part leaves the horizontal bits as the transitions made them. -/
theorem horizontalTransitions : Obligations.HorizontalTransitions := by
  intro s
  obtain ⟨hborder, hdisable, -⟩ := beforeAdvance_fields s
  obtain ⟨kborder, kdisable, -⟩ := advance_fields s.cfg s.derived (beforeAdvance s).video
  refine ⟨vtick s, exec_vtick s, ?_, ?_⟩
  · rw [vtick_video, kborder, hborder]
    rfl
  · rw [vtick_video, kdisable, hdisable]
    rfl

/-- Settles O42: at a line's end the thresholds are tested on the new line number, the bottom one last. -/
theorem verticalThresholds : Obligations.VerticalThresholds := by
  intro s hend
  have raster := beforeAdvance_raster s
  obtain ⟨hborder, hdisable, hvc, hvcBase, hrowCount, hrc⟩ :=
    advance_lineEnd s.cfg s.derived (beforeAdvance s).video ((lineEnds_iff s).1 hend)
  rw [← vtick_video, raster.v] at hborder hdisable hvc hvcBase hrowCount hrc
  refine ⟨vtick s, exec_vtick s, ?_, ?_, fun htop => ?_, fun htop hrc15 hheight => ?_⟩
  · rw [hborder, raster.borderV]
  · rw [hdisable, raster.disableV]
  · rw [hvc, hvcBase, hrowCount, hrc, if_pos htop, if_pos htop, if_pos htop, if_pos htop]
    exact ⟨rfl, rfl, rfl, rfl⟩
  · have hover : s.video.rc.toNat + 1 ≠ rowLines s.derived.rowHeight := by
      rw [hrc15, hheight]
      decide
    obtain ⟨hrc, hrowCount, hvcBase⟩ := vtick_row_of_lineEnds hend htop
    rw [hrc, hrowCount, hvcBase, if_neg hover, if_neg hover, if_neg hover, hrc15]
    exact ⟨rfl, rfl, rfl⟩

/-! ### The fetch -/

/-- The counters' part leaves the fetch queue alone. -/
theorem vtick_fetches (s : State) :
    (vtick s).host.fetches = if fetchesNow s = true then s.host.fetches.tail else s.host.fetches :=
  beforeAdvance_fetches s

/-- No latch but the shifter changes in a tick that does not fetch, and that one by pixel production alone. -/
theorem vtick_latches_of_not_fetchesNow {s : State} (hquiet : fetchesNow s = false) :
    (vtick s).video.cValue = s.video.cValue ∧ (vtick s).video.color = s.video.color ∧
    (vtick s).video.shift = shiftNow s := by
  obtain ⟨-, -, kcValue, kshift, kcolor⟩ := advance_fields s.cfg s.derived (beforeAdvance s).video
  obtain ⟨-, -, -, hcValue, hshift, hcolor, -⟩ := beforeAdvance_fields s
  rw [vtick_video, kcValue, kcolor, kshift, hcValue, hcolor, hshift, hquiet]
  exact ⟨if_neg (by simp), if_neg (by simp), if_neg (by simp)⟩

theorem vtick_trace_of_not_fetchesNow {s : State} (hquiet : fetchesNow s = false) :
    (vtick s).trace = .ticked false :: s.trace := by
  obtain ⟨-, -, -, -, -, -, htrace⟩ := beforeAdvance_fields s
  rw [vtick_trace, htrace, hquiet]
  rfl

/-- Settles O37: the fetch step tests the disable bits as the transitions leave them. -/
theorem fetchCondition : Obligations.FetchCondition := by
  intro s
  refine ⟨vtick s, exec_vtick s, fun hfetch => ?_, fun hquiet => ?_⟩
  · exact ⟨⟨_, _, vtick_trace_of_fetchesNow hfetch⟩, (vtick_fetches s).trans (if_pos hfetch)⟩
  · obtain ⟨hcValue, hcolor, hshift⟩ := vtick_latches_of_not_fetchesNow hquiet
    refine ⟨vtick_trace_of_not_fetchesNow hquiet, hcValue, hcolor, hshift, ?_, fun hin => ?_⟩
    · rw [vtick_fetches, hquiet]
      rfl
    · rw [vtick_vc_of_not_top fun hend => absurd hend hin, hquiet]
      rfl

/-- The g-access loads the shifter from the fetched word and the colour from the cached one (R205). -/
theorem vtick_latches_of_graphicsAccess {s : State} (hfetch : fetchesNow s = true)
    (hodd : (counterNow s).getLsbD 0 = true) :
    (vtick s).video.shift = (fetchValue s (fetchAddrNow s)).setWidth 8 ∧
    (vtick s).video.color = colorNibble s.cfg.colorShift s.video.cValue ∧
    (vtick s).video.cValue = s.video.cValue := by
  obtain ⟨-, -, kcValue, kshift, kcolor⟩ := advance_fields s.cfg s.derived (beforeAdvance s).video
  obtain ⟨-, -, -, hcValue, hshift, hcolor, -⟩ := beforeAdvance_fields s
  have hchar : ¬(fetchesNow s = true ∧ (counterNow s).getLsbD 0 = false) :=
    fun ⟨_, heven⟩ => Bool.false_ne_true (heven.symm.trans hodd)
  rw [vtick_video, kcValue, kshift, kcolor, hcValue, hshift, hcolor, if_pos ⟨hfetch, hodd⟩, if_pos ⟨hfetch, hodd⟩,
    if_neg hchar]
  exact ⟨rfl, rfl, rfl⟩

theorem getLsbD_zero_eq_true_iff (x : VCount) : x.getLsbD 0 = true ↔ x.toNat % 2 = 1 :=
  Nat.mod_two_eq_one_iff_testBit_zero.symm

theorem colorNibble_toNat (n : Nat) (w : Word16) : (colorNibble n w).toNat = w.toNat / 2 ^ n % 16 := by
  rw [colorNibble, BitVec.toNat_setWidth, BitVec.toNat_ushiftRight, Nat.shiftRight_eq_div_pow]

/-- Settles O39: at an odd counter the tick's fetch is the g-access, at the character's line of pixels. -/
theorem graphicsAccess : Obligations.GraphicsAccess := by
  intro s hfetch hmod
  have hodd := (getLsbD_zero_eq_true_iff _).2 hmod
  have haddr : fetchAddrNow s =
      graphicsAddr s.derived.graphicsBase s.video.cValue s.derived.rowHeight s.video.rc := by
    rw [fetchAddrNow, if_pos hodd]
  obtain ⟨hshift, hcolor, hcValue⟩ := vtick_latches_of_graphicsAccess hfetch hodd
  exact ⟨vtick s, fetchAddrNow s, exec_vtick s, haddr, vtick_trace_of_fetchesNow hfetch,
    hshift ▸ BitVec.toNat_setWidth 8 _, hcolor ▸ colorNibble_toNat _ _, hcValue⟩

/-! ### The pixels -/

theorem burstPlace_of_attached {s : State} {b : FrameBuffer} (hb : s.display.fb = some b) :
    burstPlace s = b.base + pixelIndex s.display.vis s.video.crtX s.video.crtY := by
  rw [burstPlace, hb]
  rfl

theorem vtick_frame_outside_burst {s : State} (hp : produces s = true) {k : Nat}
    (hk : k < burstPlace s ∨ burstPlace s + 4 ≤ k) : (vtick s).host.frame.read k = s.host.frame.read k := by
  rw [vtick_frame_produced s hp]
  exact writeList_read_other (by rwa [burst_length])

theorem vtick_frame_burst {s : State} (hm : MemoryCanonical s) (hp : produces s = true) {i : Nat} (hi : i < 4) :
    (vtick s).host.frame.read (burstPlace s + i) = (burst s)[i]'(by rwa [burst_length]) := by
  obtain ⟨-, -, -, hframe⟩ := hm
  rw [vtick_frame_produced s hp, writeList_read hframe]

theorem burst_of_border {s : State} (hborder : s.video.border.h = true ∨ s.video.border.v = true) :
    burst s = List.replicate 4 s.derived.borderColor :=
  if_pos (Bool.or_eq_true_iff.2 hborder)

theorem burst_of_video {s : State} (hh : s.video.border.h = false) (hv : s.video.border.v = false) :
    burst s = [videoPixel s 0, videoPixel s 1, videoPixel s 2, videoPixel s 3] := by
  rw [burst, hh, hv]
  rfl

/-- The palette index of the foreground is the colour latch modulo 8 (R196). -/
theorem foreground_eq (s : State) : foreground s = paletteColor s.cfg (BitVec.ofNat 4 (s.video.color.toNat % 8)) := by
  have hmask : s.video.color &&& 7 = BitVec.ofNat 4 (s.video.color.toNat % 8) := by
    generalize s.video.color = c
    revert c
    decide
  rw [foreground, hmask]

/-- Settles O43: the burst is four border colours, written at its place and nowhere else. -/
theorem borderPixels : Obligations.BorderPixels := by
  intro s b hm hb hp hborder
  refine ⟨vtick s, burstPlace s, exec_vtick s, burstPlace_of_attached hb, fun i hi => ?_,
    fun k hk => vtick_frame_outside_burst hp hk⟩
  rw [vtick_frame_burst hm hp hi]
  simp only [burst_of_border hborder, List.getElem_replicate]

/-- Settles O44: pixel `i` of the burst is chosen by bit `7 - i` of the shifter. -/
theorem videoPixels : Obligations.VideoPixels := by
  intro s b hm hb hp hh hv
  refine ⟨vtick s, burstPlace s, exec_vtick s, burstPlace_of_attached hb, fun i hi => ?_,
    fun k hk => vtick_frame_outside_burst hp hk⟩
  rw [vtick_frame_burst hm hp hi, ← foreground_eq]
  simp only [burst_of_video hh hv]
  interval_cases i <;> rfl

theorem produces_eq_false {s : State}
    (h : s.display.fb = none ∨ s.video.crtX < s.display.vis.x0 ∨ s.display.vis.x1 ≤ s.video.crtX ∨
      s.video.crtY < s.display.vis.y0 ∨ s.display.vis.y1 ≤ s.video.crtY) : produces s = false := by
  rw [Bool.eq_false_iff]
  intro hp
  simp only [produces, Bool.and_eq_true, decide_eq_true_eq] at hp
  obtain ⟨⟨⟨⟨hfb, hx0⟩, hx1⟩, hy0⟩, hy1⟩ := hp
  obtain hnone | hout := h
  · rw [hnone] at hfb
    cases hfb
  · omega

/-- Settles O45: without production the frame memory and the shifter are as before, up to a g-access. -/
theorem noPixelsOutsideWindow : Obligations.NoPixelsOutsideWindow := by
  intro s hout
  have hp := produces_eq_false hout
  have hkept : shiftNow s = s.video.shift := by
    rw [shiftNow, hp]
    rfl
  refine ⟨vtick s, exec_vtick s, fun k => by rw [vtick_frame_none s hp], fun hnot => ?_⟩
  rw [← hkept]
  by_cases hfetch : fetchesNow s = true
  · have heven : (counterNow s).getLsbD 0 = false := by
      obtain hquiet | hmod := hnot
      · exact absurd (hquiet.symm.trans hfetch) (by decide)
      · exact (getLsbD_zero_eq_false_iff _).2 hmod
    obtain ⟨-, hshift, -⟩ := vtick_latches_of_characterAccess hfetch heven
    exact hshift
  · obtain ⟨-, -, hshift⟩ := vtick_latches_of_not_fetchesNow (Bool.eq_false_iff.2 hfetch)
    exact hshift

/-- A burst inside the window ends inside the window's pixels (R193). -/
theorem pixelIndex_burst_le {s : State} (hp : produces s = true) :
    pixelIndex s.display.vis s.video.crtX s.video.crtY + 4 ≤
      (s.display.vis.y1 - s.display.vis.y0) * (s.display.vis.x1 - s.display.vis.x0) * 4 := by
  simp only [produces, Bool.and_eq_true, decide_eq_true_eq] at hp
  obtain ⟨⟨⟨⟨-, hx0⟩, hx1⟩, hy0⟩, hy1⟩ := hp
  have hcolumn : s.video.crtX - s.display.vis.x0 + 1 ≤ s.display.vis.x1 - s.display.vis.x0 := by omega
  have hline : s.video.crtY - s.display.vis.y0 + 1 ≤ s.display.vis.y1 - s.display.vis.y0 := by omega
  unfold pixelIndex
  generalize s.display.vis.x1 - s.display.vis.x0 = width at *
  generalize s.display.vis.y1 - s.display.vis.y0 = height at *
  calc ((s.video.crtY - s.display.vis.y0) * width + (s.video.crtX - s.display.vis.x0)) * 4 + 4
      = ((s.video.crtY - s.display.vis.y0) * width + (s.video.crtX - s.display.vis.x0 + 1)) * 4 := by ring
    _ ≤ ((s.video.crtY - s.display.vis.y0) * width + width) * 4 := by omega
    _ = (s.video.crtY - s.display.vis.y0 + 1) * width * 4 := by ring
    _ ≤ height * width * 4 := by gcongr

/-- Settles O46: a burst stands inside the window's pixels, which the attached buffer holds. -/
theorem pixelsStayInBuffer : Obligations.PixelsStayInBuffer := by
  intro s b hfits hb
  refine ⟨vtick s, exec_vtick s, fun k hk => ?_⟩
  cases hp : produces s with
  | false => rw [vtick_frame_none s hp]
  | true =>
    have hcapacity := hfits b hb
    have hburst := pixelIndex_burst_le hp
    refine vtick_frame_outside_burst hp ?_
    rw [burstPlace_of_attached hb]
    omega

end Sys2Proof.Proofs

/-! The exchange (40_pin_bus.md, 44_host_interfaces.md section 2): the byte a cycle brings, what it stores and where, and the
read, the write and the opcode fetch that are one exchange each. -/

namespace Sys2Proof.Proofs

open Sys2Proof Sys2Proof.Machine Sys2Proof.Safety Sys2Proof.Laws

/-! ### The byte a cycle brings -/

/-- The chip that a register read of the exchange from `s` to `t` sees (D33). -/
def readChip (s t : State) : Video :=
  match s.cfg.arbOrder with
  | .tickFirst => t.video
  | .accessFirst => s.video

/-- The data lines of an exchange before the host's own drive. -/
def servedByte (s : State) : Byte :=
  if s.cpu.pins.rw = true then readByte s.cfg (readChip s (exchange s)) s.host.mem s.cpu.pins else s.cpu.pins.data

theorem served_video_eq_readChip {s : State} (hr : s.cpu.pins.rw = true) :
    (served (sendPins s)).video = readChip s (exchange s) := by
  cases ho : s.cfg.arbOrder with
  | tickFirst => rw [readChip, ho, served_tickFirst s ho hr]
  | accessFirst => rw [readChip, served, sendPins_cfg, ho, sendPins_video]

/-- The snapshot after an exchange: the vector sent, with the served byte, under the host's drive. -/
theorem exchange_pins (s : State) :
    (exchange s).cpu.pins = replyPins s.cfg s.host.replies { s.cpu.pins with data := servedByte s } := by
  rw [(exchange_spec s).pins, servedByte]
  split
  next hr => rw [served_video_eq_readChip hr]
  next => rfl

theorem servedByte_of_write {s : State} (hw : s.cpu.pins.rw = false) : servedByte s = s.cpu.pins.data :=
  if_neg (by simp [hw])

theorem servedByte_of_memory {s : State} (hr : s.cpu.pins.rw = true) (hsel : busSelect s.cfg s.cpu.pins.addr = false) :
    servedByte s = s.host.mem.read s.cpu.pins.addr.toNat := by
  rw [servedByte, if_pos hr, readByte, hsel, if_neg Bool.false_ne_true]

theorem servedByte_of_video {s : State} (hr : s.cpu.pins.rw = true) (hsel : busSelect s.cfg s.cpu.pins.addr = true) :
    servedByte s = readValue (readChip s (exchange s)) (BitVec.ofNat 4 (s.cpu.pins.addr.toNat % 16)) := by
  rw [servedByte, if_pos hr, readByte, if_pos hsel, regIndex_eq_mod]

/-! ### What a cycle stores -/

theorem storedAt_of_read (c : Config) {p : Pins} (hr : p.rw = true) : storedAt c p = none := by
  rw [storedAt, hr]
  rfl

theorem storedAt_of_select {c : Config} {p : Pins} (hsel : busSelect c p.addr = true) : storedAt c p = none := by
  rw [storedAt, hsel, Bool.or_true]
  rfl

theorem storedAt_of_write {c : Config} {p : Pins} (hw : p.rw = false) (hsel : busSelect c p.addr = false) :
    storedAt c p = some p.addr.toNat := by
  rw [storedAt, hw, hsel]
  rfl

theorem registerAt_of_read (c : Config) {p : Pins} (hr : p.rw = true) : registerAt c p = none := by
  rw [registerAt, hr]
  rfl

theorem registerAt_of_unselected {c : Config} {p : Pins} (hsel : busSelect c p.addr = false) :
    registerAt c p = none := by
  rw [registerAt, hsel, Bool.and_false]
  rfl

theorem registerAt_of_write {c : Config} {p : Pins} (hw : p.rw = false) (hsel : busSelect c p.addr = true) :
    registerAt c p = some (regIndex p.addr) := by
  rw [registerAt, hw, hsel]
  rfl

/-- Either the vector stores to memory, or memory is the host's to change alone (R231). -/
theorem busCycle_mem_cases {s t : State} {p : Pins} (h : BusCycle s t p) :
    (storedAt s.cfg p = none ∧ t.host.mem = replyMem s.host.replies s.host.mem) ∨
    (storedAt s.cfg p = some p.addr.toNat ∧
      t.host.mem = replyMem s.host.replies (s.host.mem.write p.addr.toNat p.data)) := by
  rw [h.mem]
  cases hsel : busSelect s.cfg p.addr with
  | true => exact .inl ⟨storedAt_of_select hsel, by simp⟩
  | false =>
    cases hrw : p.rw with
    | true => exact .inl ⟨storedAt_of_read _ hrw, by simp⟩
    | false => exact .inr ⟨storedAt_of_write hrw hsel, by simp⟩

/-- A byte of memory that the host spares is the one stored there, or as before. -/
theorem busCycle_mem_read {s t : State} {p : Pins} (h : BusCycle s t p) (hm : s.host.mem.wf = true) {a : Nat}
    (hspare : repliesSpare (s.host.replies.take 1) a) :
    t.host.mem.read a = if storedAt s.cfg p = some a then p.data else s.host.mem.read a := by
  obtain ⟨hnone, hmem⟩ | ⟨hsome, hmem⟩ := busCycle_mem_cases h
  · rw [hmem, replyMem_read hspare, hnone, if_neg (by simp)]
  · rw [hmem, replyMem_read hspare, write_read hm, hsome]
    simp only [Option.some.injEq, eq_comm]

theorem busCycle_mem_wf {s t : State} {p : Pins} (h : BusCycle s t p) (hm : s.host.mem.wf = true) :
    t.host.mem.wf = true := by
  obtain ⟨-, hmem⟩ | ⟨-, hmem⟩ := busCycle_mem_cases h
  · rw [hmem]
    exact replyMem_wf hm _
  · rw [hmem]
    exact replyMem_wf (write_wf hm _ _) _

/-- A video register is the byte stored there, or as before. -/
theorem busCycle_regAt_eq {s t : State} {p : Pins} (h : BusCycle s t p) (r : Nibble) :
    regAt t.video.regs r = if registerAt s.cfg p = some r then p.data else regAt s.video.regs r := by
  rw [h.regs]
  cases hsel : busSelect s.cfg p.addr with
  | false => rw [registerAt_of_unselected hsel]; simp
  | true =>
    cases hrw : p.rw with
    | true => rw [registerAt_of_read _ hrw]; simp
    | false =>
      rw [registerAt_of_write hrw hsel, if_pos ⟨rfl, rfl⟩]
      split
      next heq => rw [← Option.some.inj heq, regSet_same]
      next hne => exact regSet_other fun e => hne (by rw [e])

/-- Vectors that store nothing leave memory to the host's replies. -/
theorem memorySpared_of_sent {s t : State} {new : List Pins} (h : Sent s t new)
    (hnone : ∀ p ∈ new, storedAt s.cfg p = none) : MemorySpared s t new.length := by
  obtain ⟨-, -, -, hmem, hvmem, -⟩ := h
  exact ⟨fun a => hmem a fun p hp => by simp [hnone p hp], hvmem⟩

theorem exchange_registerFileKept (s : State)
    (hno : ¬(busSelect s.cfg s.cpu.pins.addr = true ∧ s.cpu.pins.rw = false)) : RegisterFileKept s (exchange s) :=
  have x := exchange_spec s
  ⟨by rw [x.regs, if_neg hno], by rw [x.derived, if_neg hno]⟩

/-! ### The exchange itself -/

theorem exec_xchg (s : State) : exec .xchg s = .next (exchange s) := rfl

/-- An exchange is a bus cycle that sends the snapshot as it stands. -/
theorem exchange_busCycle (s : State) : BusCycle s (exchange s) s.cpu.pins := exchange_cycle s s.cpu.pins

/-- The host's last change of a byte is what memory then holds (R66, R230). -/
theorem replyMem_read_last {m : Memory 8} (hm : m.wf = true) {r : Reply} {rs : List Reply} {cs ds : List (Addr × Byte)}
    {a : Addr} {b : Byte} (hr : r.mem = cs ++ (a, b) :: ds) (hlast : ∀ x ∈ ds, x.1 ≠ a) :
    (replyMem (r :: rs) m).read a.toNat = b := by
  rw [replyMem, hr, List.map_append, List.map_cons]
  refine writeEach_read_last hm _ b fun d hd => ?_
  obtain ⟨x, hx, rfl⟩ := List.mem_map.1 hd
  exact fun e => hlast x hx (BitVec.eq_of_toNat_eq e)

theorem replyVmem_read_last {m : Memory 16} (hm : m.wf = true) {r : Reply} {rs : List Reply}
    {cs ds : List (Nat × Word16)} {a : Nat} {w : Word16} (hr : r.vmem = cs ++ (a, w) :: ds) (hlast : ∀ x ∈ ds, x.1 ≠ a) :
    (replyVmem (r :: rs) m).read a = w := by
  rw [replyVmem, hr]
  exact writeEach_read_last hm _ w hlast

theorem busCycle_mem_read_last {s t : State} {p : Pins} (h : BusCycle s t p) (hm : s.host.mem.wf = true) {r : Reply}
    {rs : List Reply} {cs ds : List (Addr × Byte)} {a : Addr} {b : Byte} (hreplies : s.host.replies = r :: rs)
    (hr : r.mem = cs ++ (a, b) :: ds) (hlast : ∀ x ∈ ds, x.1 ≠ a) : t.host.mem.read a.toNat = b := by
  obtain ⟨-, hmem⟩ | ⟨-, hmem⟩ := busCycle_mem_cases h
  · rw [hmem, hreplies]
    exact replyMem_read_last hm hr hlast
  · rw [hmem, hreplies]
    exact replyMem_read_last (write_wf hm _ _) hr hlast

/-- Settles O10: an exchange is one bus cycle, and `servedByte` is the byte its server brings. -/
theorem exchangeEffect : Obligations.ExchangeEffect := by
  intro s
  have x := exchange_spec s
  have cycle := exchange_busCycle s
  refine ⟨exchange s, exec_xchg s, sent_exchange s, x.returned, x.cpu, x.ticks, ⟨x.cfg, x.display⟩, x.calls,
    fun a ⟨hm, _⟩ hstored hspare => ?_, fun r rs cs a b ds ⟨hm, _⟩ hreplies hr hlast => ?_,
    fun r rs cs a w ds ⟨_, _, hvm, _⟩ hreplies hr hlast => ?_, servedByte s, servedByte_of_write, servedByte_of_memory,
    servedByte_of_video, fun hreplies => ?_, fun r rs hreplies => ?_⟩
  · rw [busCycle_mem_read cycle hm hspare, if_pos hstored]
  · exact busCycle_mem_read_last cycle hm hreplies hr hlast
  · rw [x.vmem, hreplies]
    exact replyVmem_read_last hvm hr hlast
  · rw [exchange_pins, hreplies]
    rfl
  · rw [exchange_pins, hreplies]
    rfl

/-! ### The read and the write (R116, R117) -/

theorem exec_rd (a : Addr) (s : State) :
    exec (.rd a) s = .next (exchange (setPins { s.cpu.pins with addr := a, rw := true } s)) := rfl

theorem exec_wr (a : Addr) (d : Byte) (s : State) :
    exec (.wr a d) s = .next (exchange (setPins { s.cpu.pins with addr := a, data := d, rw := false } s)) := rfl

/-- Of the CPU only the snapshot changes, to the vector sent with its served byte under the host's drive. -/
theorem exchange_setPins_cpu_eq (s : State) (p : Pins) {b : Byte} (hb : servedByte (setPins p s) = b) :
    (exchange (setPins p s)).cpu =
      { s.cpu with pins := replyPins s.cfg s.host.replies { p with data := b } } := by
  rw [exchange_setPins_cpu, exchange_pins, hb]
  rfl

theorem exchange_setPins_settingsKept (s : State) (p : Pins) : SettingsKept s (exchange (setPins p s)) :=
  have x := exchange_spec (setPins p s)
  ⟨x.cfg, x.display⟩

/-- A read changes no memory but by the host's replies, no register and no setting. -/
theorem exchange_setPins_read_frame (s : State) {p : Pins} (hr : p.rw = true) :
    Sent s (exchange (setPins p s)) [p] ∧ MemorySpared s (exchange (setPins p s)) 1 ∧
    RegisterFileKept s (exchange (setPins p s)) ∧ SettingsKept s (exchange (setPins p s)) := by
  have hsent := (exchange_cycle s p).sent
  have hspared := memorySpared_of_sent hsent fun q hq => by
    rw [List.mem_singleton.1 hq, storedAt_of_read _ hr]
  have hno : ¬(busSelect s.cfg p.addr = true ∧ p.rw = false) := fun ⟨_, hw⟩ => by simp [hr] at hw
  have hregisters := exchange_registerFileKept (setPins p s) hno
  exact ⟨hsent, hspared, hregisters, exchange_setPins_settingsKept s p⟩

/-- Settles O12: where the arbiter does not select the address, memory serves the read. -/
theorem readExchangeFromMemory : Obligations.ReadExchangeFromMemory := fun a s hsel =>
  ⟨_, exec_rd a s, exchange_setPins_cpu_eq s _ (servedByte_of_memory rfl hsel), exchange_setPins_read_frame s rfl⟩

/-- Settles O13: where the arbiter selects the address, the chip serves the read, in the order `ARB_ORDER` gives. -/
theorem readExchangeFromVideo : Obligations.ReadExchangeFromVideo := fun a s hsel =>
  ⟨_, exec_rd a s, exchange_setPins_cpu_eq s _ (servedByte_of_video rfl hsel), exchange_setPins_read_frame s rfl⟩

/-- Settles O14: the one address stored to is `a`, and no register is. -/
theorem writeExchangeToMemory : Obligations.WriteExchangeToMemory := by
  intro a d s hsel
  have cycle := exchange_cycle s { s.cpu.pins with addr := a, data := d, rw := false }
  have hstored : storedAt s.cfg { s.cpu.pins with addr := a, data := d, rw := false } = some a.toNat :=
    storedAt_of_write rfl hsel
  obtain ⟨-, -, -, hmem, hvmem, -⟩ := cycle.sent
  refine ⟨_, exec_wr a d s, exchange_setPins_cpu_eq s _ (servedByte_of_write rfl), cycle.sent, fun ⟨hm, _⟩ hspare => ?_,
    fun b hb => hmem b fun p hp => ?_, hvmem, ?_, exchange_setPins_settingsKept s _⟩
  · rw [busCycle_mem_read cycle hm hspare, if_pos hstored]
  · rw [List.mem_singleton.1 hp, hstored]
    exact fun e => hb (Option.some.inj e).symm
  · exact exchange_registerFileKept (setPins _ s) fun ⟨hyes, _⟩ => by cases hsel.symm.trans hyes

/-- Settles O15: the one register stored to is the address modulo 16, and no memory is. -/
theorem writeExchangeToVideo : Obligations.WriteExchangeToVideo := by
  intro a d s hsel
  have cycle := exchange_cycle s { s.cpu.pins with addr := a, data := d, rw := false }
  have hregister : registerAt s.cfg { s.cpu.pins with addr := a, data := d, rw := false } =
      some (BitVec.ofNat 4 (a.toNat % 16)) := by
    rw [registerAt_of_write rfl hsel, regIndex_eq_mod]
  refine ⟨_, exec_wr a d s, exchange_setPins_cpu_eq s _ (servedByte_of_write rfl), cycle.sent, ?_, fun r hr => ?_, ?_, ?_,
    exchange_setPins_settingsKept s _⟩
  · rw [busCycle_regAt_eq cycle, if_pos hregister]
  · rw [busCycle_regAt_eq cycle, hregister, if_neg fun e => hr (Option.some.inj e).symm]
  · exact (exchange_spec _).derived.trans (if_pos ⟨hsel, rfl⟩)
  · exact memorySpared_of_sent cycle.sent fun p hp => by
      rw [List.mem_singleton.1 hp, storedAt_of_select hsel]

/-! ### The opcode fetch (R131) -/

/-- The state whose exchange is the opcode fetch: the fetch vector is set and `PC` has gone up. -/
def fetchStart (s : State) : State := { s with cpu := { s.cpu with pc := s.cpu.pc + 1, pins := fetchVector s } }

theorem opcodeFetch_eq (s : State) : opcodeFetch s = syncDown (exchange (fetchStart s)) := rfl

theorem exec_opfetch (s : State) : exec .opfetch s = .next (opcodeFetch s) := rfl

/-- The vector the opcode fetch's exchange returns. -/
theorem exchange_fetchStart_pins (s : State) :
    (exchange (fetchStart s)).cpu.pins =
      replyPins s.cfg s.host.replies { fetchVector s with data := servedByte (fetchStart s) } :=
  exchange_pins (fetchStart s)

theorem opcodeFetch_data (s : State) :
    getData (opcodeFetch s).cpu.pins =
      (replyPins s.cfg s.host.replies { fetchVector s with data := servedByte (fetchStart s) }).data := by
  rw [← exchange_fetchStart_pins]
  rfl

/-- Where the host drives no data line, the served byte is returned. -/
theorem replyPins_data_of_undriven (c : Config) {rs : List Reply} (h : ∀ r ∈ rs.take 1, r.data = none) (p : Pins) :
    (replyPins c rs p).data = p.data := by
  cases rs with
  | nil => rfl
  | cons r rs =>
    change r.data.getD p.data = _
    rw [h r (List.mem_singleton.2 rfl), Option.getD_none]

theorem memoryAnswers_iff (s : State) :
    memoryAnswers s = true ↔ busSelect s.cfg s.cpu.pc = false ∧ ∀ r ∈ s.host.replies.take 1, r.data = none := by
  unfold memoryAnswers
  rw [Bool.and_eq_true, Bool.not_eq_true']
  split <;> simp_all

/-- The fetched byte is memory's where memory answers (R60). -/
theorem opcodeFetch_data_of_memory {s : State} (hm : memoryAnswers s = true) :
    getData (opcodeFetch s).cpu.pins = s.host.mem.read s.cpu.pc.toNat := by
  obtain ⟨hsel, hundriven⟩ := (memoryAnswers_iff s).1 hm
  rw [opcodeFetch_data, replyPins_data_of_undriven _ hundriven]
  exact servedByte_of_memory (s := fetchStart s) rfl hsel

/-- The fetched byte is the video register's where the arbiter selects `PC` (D32, D33). -/
theorem opcodeFetch_data_of_video {s : State} (hsel : busSelect s.cfg s.cpu.pc = true)
    (hundriven : ∀ r ∈ s.host.replies.take 1, r.data = none) :
    getData (opcodeFetch s).cpu.pins = readValue (readChip s (opcodeFetch s)) (BitVec.ofNat 4 (s.cpu.pc.toNat % 16)) := by
  rw [opcodeFetch_data, replyPins_data_of_undriven _ hundriven]
  exact servedByte_of_video (s := fetchStart s) rfl hsel

/-- The fetched byte is the host's where it drives the data lines (R118). -/
theorem opcodeFetch_data_of_driven {s : State} {r : Reply} {rs : List Reply} {b : Byte} (hreplies : s.host.replies = r :: rs)
    (hdata : r.data = some b) : getData (opcodeFetch s).cpu.pins = b := by
  rw [opcodeFetch_data, hreplies]
  change r.data.getD _ = b
  rw [hdata, Option.getD_some]

/-- Settles O8: the opcode fetch is the exchange of `fetchStart`, a read, and `Off(sync)`. -/
theorem opcodeFetchEffect : Obligations.OpcodeFetchEffect := by
  intro s
  have x := exchange_spec (fetchStart s)
  have hsent := opcodeFetch_sent s
  have hregisters := exchange_registerFileKept (fetchStart s) fun ⟨_, hw⟩ => by cases hw
  refine ⟨opcodeFetch s, (exchange (fetchStart s)).cpu.pins, exec_opfetch s, ?_, x.returned, hsent, ?_,
    hregisters, ⟨x.cfg, x.display⟩, opcodeFetch_data_of_memory⟩
  · rw [opcodeFetch_eq, syncDown_cpu, x.cpu]
    rfl
  · exact memorySpared_of_sent hsent fun p hp => by
      rw [List.mem_singleton.1 hp, storedAt_of_read _ rfl]

/-! ### The instruction step -/

/-- With no call queued a step fetches, runs `OP` of the byte, and checks for an interrupt (R130). -/
theorem step_of_no_calls {s : State} (hcalls : s.host.calls = []) :
    step s = match exec (decodeOp (getData (opcodeFetch s).cpu.pins)) (opcodeFetch s) with
      | .next t => .next (interruptCheck t)
      | .fault f => .fault f
      | .refused r => .refused r := by
  rw [step, fetchNext, hcalls]
  rfl

/-- Settles O5: the step is that of no queued call, and the byte fetched has one of three sources. -/
theorem stepRunsOpcode : Obligations.StepRunsOpcode := by
  intro s i b rest hcalls hb hdecode
  obtain ⟨hi, -⟩ := Prod.mk.inj (Except.ok.inj hdecode)
  rw [← hi, hb]
  exact ⟨step_of_no_calls hcalls, opcodeFetch_data_of_memory, opcodeFetch_data_of_video,
    fun _ _ _ => opcodeFetch_data_of_driven⟩

/-! ### Placing a word (log entry 14) -/

/-- A placed cycle's vector decodes to what its pattern and data decode to, whatever the bus pattern. -/
theorem decodePins_cyclePins (c : Config) (p : Pins) (pat : BitVec 5) (d : Byte) :
    decodePins (cyclePins c p pat d) = decodeVreg pat d := by
  have hindex : regIndex (cyclePins c p pat d).addr = pat.setWidth 4 := by
    change ((c.busPattern &&& 0xFFF0) ||| (pat.setWidth 4).setWidth 16).setWidth 4 = pat.setWidth 4
    rw [BitVec.setWidth_or, BitVec.setWidth_and, BitVec.setWidth_setWidth_of_le _ (by decide), BitVec.setWidth_eq]
    have hzero : (0xFFF0 : Addr).setWidth 4 = 0#4 := by decide
    rw [hzero, BitVec.and_zero, BitVec.zero_or]
  rw [decodePins_eq, hindex]
  rfl

/-- A placed opcode byte is what the next opcode fetch brings: memory holds it, or the host drives it. -/
theorem opcodeFetch_placeOpcode {s : State} (hm : MemoryCanonical s) (b : Byte) :
    getData (opcodeFetch (placeOpcode b s)).cpu.pins = b := by
  obtain ⟨hwf, -⟩ := hm
  unfold placeOpcode
  dsimp only
  split
  next hanswers =>
    have hwritten := (write_read hwf s.cpu.pc.toNat s.cpu.pc.toNat b).trans (if_pos rfl)
    exact (opcodeFetch_data_of_memory (s := { s with host := { s.host with
      calls := [], mem := s.host.mem.write s.cpu.pc.toNat b } }) hanswers).trans hwritten
  next =>
    cases hreplies : s.host.replies with
    | nil => exact opcodeFetch_data_of_driven (r := { quietReply with data := some b }) (rs := []) rfl rfl
    | cons r rs => exact opcodeFetch_data_of_driven (r := { r with data := some b }) (rs := rs) rfl rfl

theorem placeOpcode_calls (b : Byte) (s : State) : (placeOpcode b s).host.calls = [] := by
  unfold placeOpcode
  dsimp only
  split <;> rfl

/-- What a table word of the register format decodes to; a first byte of 32 or more decodes to nothing. -/
theorem decodeTableWord_bus {nbits w : Nat} {i : Instr} (h : decodeTableWord nbits w = some i)
    (hchannel : tableChannel nbits w = .bus) : decodeVreg (BitVec.ofNat 5 w) (BitVec.ofNat 8 (w / 256)) = i := by
  have hpat : (BitVec.ofNat 8 w).setWidth 5 = BitVec.ofNat 5 w := BitVec.setWidth_ofNat_of_le (by decide) w
  unfold decodeTableWord at h
  rw [hchannel, tableBytes, decode, hpat] at h
  by_cases hzero : nbits = 0
  · simp [hzero] at h
  · by_cases hfive : (BitVec.ofNat 8 w).toNat < 32
    · simpa only [if_neg hzero, if_pos hfive, Option.some.injEq] using h
    · simp only [if_neg hzero, if_neg hfive, reduceCtorEq] at h

theorem decodeTableWord_fetch {nbits w : Nat} {i : Instr} (h : decodeTableWord nbits w = some i)
    (hchannel : tableChannel nbits w = .fetch) : decodeOp (BitVec.ofNat 8 w) = i := by
  unfold decodeTableWord at h
  rw [hchannel, tableBytes, decode] at h
  by_cases hzero : nbits = 0
  · simp [hzero] at h
  · simpa [hzero] using h

/-- Settles O7: a cycle is placed as the next call, an opcode where the next fetch finds it. -/
theorem placedWordRuns : Obligations.PlacedWordRuns := by
  intro s nbits w i hm hdecode
  cases hchannel : tableChannel nbits w with
  | bus =>
    refine .inl ⟨rfl, ?_⟩
    rw [← decodeTableWord_bus hdecode hchannel, ← decodePins_cyclePins s.cfg s.host.bus, State.withFetchWord, placeWord,
      hchannel]
    rfl
  | fetch =>
    refine .inr ⟨rfl, ?_⟩
    rw [← decodeTableWord_fetch hdecode hchannel, State.withFetchWord, placeWord, hchannel]
    have hstep := step_of_no_calls (placeOpcode_calls (BitVec.ofNat 8 w) s)
    rw [opcodeFetch_placeOpcode hm] at hstep
    exact hstep

end Sys2Proof.Proofs

/-! A handler's program (41_cpu_engine.md section 3, 40_pin_bus.md): what each micro-operation does, and that a dispatch runs
it or refuses. -/

namespace Sys2Proof.Proofs

open Sys2Proof Sys2Proof.Machine Sys2Proof.Safety Sys2Proof.Laws

/-! ### Dispatch (R92, R93, R133) -/

theorem exec_op_of_absent {b : Byte} {s : State} (h : lookup s.cfg.dispatch b = .absent) :
    exec (.op b) s = .refused (.noHandler b) := by
  change dispatch b s = _
  rw [dispatch, h]

theorem exec_op_of_program {b : Byte} {s : State} {p : Handler} (h : lookup s.cfg.dispatch b = .program p) :
    exec (.op b) s = .next (runProgram p freshLocals s) := by
  change dispatch b s = _
  rw [dispatch, h]

theorem exec_op_ran {b : Byte} {s : State} (h : lookup s.cfg.dispatch b ≠ .absent) :
    ∃ t, exec (.op b) s = .next t ∧ Ran s t := by
  obtain ⟨habsent, -⟩ | ⟨-, hran⟩ := dispatch_cases b s
  · exact absurd habsent h
  · exact hran

/-! ### Lines, branches and moves (R111 to R115, R134) -/

theorem runProgram_branch (c : HExpr) (x y : Handler) (l : Locals) (s : State) :
    runProgram (.branch c x y) l s = if hexprValue l s.cpu c = 0 then runProgram y l s else runProgram x l s :=
  ite_not ..

theorem runMicro_on_level (ls : List Line) (s : State) (n : Line) :
    lineLevel n (linesOn (ls.filter (lineExists s.cfg)) s.cpu.pins) =
      (decide (n ∈ ls ∧ lineExists s.cfg n = true) || lineLevel n s.cpu.pins) := by
  simp only [linesOn_level, List.mem_filter]

theorem runMicro_off_level (ls : List Line) (s : State) (n : Line) :
    lineLevel n (linesOff (ls.filter (lineExists s.cfg)) s.cpu.pins) =
      (!decide (n ∈ ls ∧ lineExists s.cfg n = true) && lineLevel n s.cpu.pins) := by
  simp only [linesOff_level, List.mem_filter]

/-- A register move keeps what the program has asserted. -/
theorem hregSetLocals_syncUp (l : Locals) (v : BitVec 16) (r : HReg) : (hregSetLocals l v r).syncUp = l.syncUp := by
  cases r <;> rfl

/-- A move to an 8-bit register keeps the low 8 bits. -/
theorem setWidth_byte (v : BitVec 16) : (v.setWidth 8).setWidth 16 = v &&& 0xFF := by
  refine BitVec.eq_of_toNat_eq ?_
  rw [BitVec.toNat_setWidth_of_le (by decide), BitVec.toNat_setWidth, BitVec.toNat_and]
  exact (Nat.and_two_pow_sub_one_eq_mod _ 8).symm

/-- What a register or temporary reads as after a move to it. -/
def movedValue (v : BitVec 16) : HReg → BitVec 16
  | .pc | .tmp _ => v
  | _ => v &&& 0xFF

theorem hregGet_set_same (l : Locals) (c : Cpu) (v : BitVec 16) (r : HReg) :
    hregGet (hregSetLocals l v r) (hregSetCpu c v r) r = movedValue v r := by
  cases r with
  | pc => rfl
  | tmp i => simp [hregGet, hregSetLocals, movedValue, Vector.get_eq_getElem]
  | _ => exact setWidth_byte v

theorem hregGet_set_other {q r : HReg} (h : q ≠ r) (l : Locals) (c : Cpu) (v : BitVec 16) :
    hregGet (hregSetLocals l v r) (hregSetCpu c v r) q = hregGet l c q := by
  cases r with
  | tmp i =>
    cases q with
    | tmp j =>
      have hij : j.val ≠ i.val := fun e => h (congrArg HReg.tmp (Fin.ext e))
      simp only [hregGet, hregSetLocals, Vector.get_eq_getElem]
      exact Vector.getElem_set_ne _ _ hij.symm
    | _ => rfl
  | _ => cases q <;> simp_all [hregGet, hregSetLocals, hregSetCpu]

/-- Of the micro-operations only `On` and `Off` of `sync` change what the program has asserted. -/
theorem microLocals_tmp_of_not_set {m : Micro} (h : ∀ r e, m ≠ .set r e) (l : Locals) (c : Cpu) :
    (microLocals m l c).tmp = l.tmp := by
  cases m with
  | set r e => exact absurd rfl (h r e)
  | _ => rfl

/-- Settles O9: the dispatch is a run of the handler, and each micro-operation is a field update, an exchange or a move. -/
theorem opRunsOrRefuses : Obligations.OpRunsOrRefuses := by
  refine ⟨fun _ _ => exec_op_of_absent, fun b s hhandled => ?_, fun _ _ => rfl, fun _ _ _ _ => rfl, runProgram_branch,
    fun _ _ _ => rfl, fun _ _ _ _ => rfl, fun _ c => BitVec.toNat_setWidth_of_le (by decide),
    fun ls _ s => ⟨_, rfl, (linesOn_bus _ _).1, (linesOn_bus _ _).2, runMicro_on_level ls s⟩,
    fun ls _ s => ⟨_, rfl, (linesOff_bus _ _).1, (linesOff_bus _ _).2, runMicro_off_level ls s⟩,
    fun _ _ => rfl, rfl, fun m l c => ?_, fun _ l c h => microLocals_tmp_of_not_set h l c, fun r e l s => ?_⟩
  · obtain ⟨t, hnext, hran⟩ := exec_op_ran hhandled
    obtain ⟨new, hsent⟩ := hran.trail
    refine ⟨t, new, hnext, hsent, hran.breakMask, ⟨hran.cfg, hran.display⟩, hran.calls, fun h hprogram => ?_⟩
    exact Host.Outcome.next.inj (hnext.symm.trans (exec_op_of_program hprogram))
  · cases m with
    | set r e => exact hregSetLocals_syncUp l _ r
    | _ => rfl
  · refine ⟨hregSetCpu s.cpu (hexprValue l s.cpu e) r, rfl, hregSetCpu_pins _ _ _, hregSetCpu_breakMask _ _ _, fun q => ?_⟩
    change hregGet (hregSetLocals l (hexprValue l s.cpu e) r) _ q = _
    split
    next heq =>
      rw [heq, hregGet_set_same]
      cases r <;> rfl
    next hne => exact hregGet_set_other hne l s.cpu _

end Sys2Proof.Proofs

/-! The burst (41_cpu_engine.md section 4): its count, that it stops, and that it stops at the first boundary its loop test
accepts. -/

namespace Sys2Proof.Proofs

open Sys2Proof Sys2Proof.Machine Sys2Proof.Safety Sys2Proof.Laws

/-! ### The loop test (R136) -/

theorem continues_iff (n : Nat) (s : State) :
    continues n s = true ↔ s.ticks < n ∧ pack s.cfg s.cpu.pins &&& s.cpu.breakMask = 0 := by
  simp [continues, breakMatches]

theorem continues_eq_false_iff (n : Nat) (s : State) :
    continues n s = false ↔ n ≤ s.ticks ∨ pack s.cfg s.cpu.pins &&& s.cpu.breakMask ≠ 0 := by
  rw [← Bool.not_eq_true, continues_iff, not_and_or, Nat.not_lt]

/-! ### The count and the end of a burst -/

/-- Recording the count sends nothing. -/
theorem sent_record_executed {s t : State} {new : List Pins} (n : Nat) (h : Sent s t new) :
    Sent s (record (.executed n) t) new := h

/-- Settles O16: a burst is a run from `ticks` 0 that begins with an opcode fetch, its ticks recorded. -/
theorem execCountsExchanges : Obligations.ExecCountsExchanges := by
  intro n s t he
  change execExec n s = _ at he
  obtain ⟨b, -, hrefused⟩ | ⟨u, hnext, hran, -, -, -, new, hsent⟩ := execExec_cases n s
  · cases hrefused.symm.trans he
  · cases hnext.symm.trans he
    refine ⟨⟨new, sent_record_executed _ hsent, ?_⟩, rfl, hran.breakMask, hran.cfg, hran.display⟩
    obtain ⟨-, hticks, -⟩ := hsent
    exact hticks.trans (Nat.zero_add _)

/-- Settles O17: with a handler for every byte no step refuses, and a burst's fuel is enough. -/
theorem execStops : Obligations.ExecStops := by
  intro n s hhandled
  obtain ⟨b, habsent, -⟩ | ⟨u, hnext, -, hticks, hstop, -⟩ := execExec_cases n s
  · exact absurd habsent (hhandled b)
  · exact ⟨_, hnext, hticks, (continues_eq_false_iff n u).1 hstop⟩

/-! ### The first boundary (R138) -/

/-- A burst with fuel for steps of one tick each ends at a boundary, and the loop test accepted every earlier one. -/
theorem runBurst_boundary {n fuel : Nat} {s t : State} (hfuel : n < s.ticks + fuel) (hpos : 0 < fuel)
    (h : runBurst n fuel s = .next t) :
    ∃ k, afterSteps (k + 1) s = some t ∧
      ∀ j, j < k → ∃ w, afterSteps (j + 1) s = some w ∧ continues n w = true := by
  induction fuel generalizing s with
  | zero => exact absurd hpos (Nat.lt_irrefl 0)
  | succ fuel ih =>
    obtain ⟨b, -, hrefused⟩ | ⟨v, hstep, -, hticks, -⟩ := instructionStep_cases s
    · rw [runBurst, hrefused] at h
      cases h
    · have hafter (j : Nat) : afterSteps (j + 1) s = afterSteps j (syncDown v) := by rw [afterSteps, hstep]
      rw [runBurst, hstep] at h
      dsimp only at h
      have hticks : s.ticks + 1 ≤ (syncDown v).ticks := hticks
      cases hgo : continues n (syncDown v) with
      | false =>
        rw [hgo] at h
        cases h
        exact ⟨0, hafter 0, fun _ hj => absurd hj (Nat.not_lt_zero _)⟩
      | true =>
        rw [hgo, if_pos rfl] at h
        have hbudget := ((continues_iff n (syncDown v)).1 hgo).1
        obtain ⟨k, hk, hbefore⟩ := ih (by omega) (by omega) h
        refine ⟨k + 1, (hafter _).trans hk, fun j hj => ?_⟩
        rw [hafter]
        cases j with
        | zero => exact ⟨_, rfl, hgo⟩
        | succ j => exact hbefore j (Nat.lt_of_succ_lt_succ hj)

/-- A burst that answers a next state is the loop's, with its ticks recorded. -/
theorem execExec_next {n : Nat} {s t : State} (h : execExec n s = .next t) :
    ∃ u, runBurst n (n + 1) { s with ticks := 0 } = .next u ∧ t = record (.executed u.ticks) u := by
  unfold execExec at h
  cases hburst : runBurst n (n + 1) { s with ticks := 0 } with
  | next u => rw [hburst] at h; cases h; exact ⟨u, rfl, rfl⟩
  | fault f => rw [hburst] at h; cases h
  | refused r => rw [hburst] at h; cases h

/-- Settles O18: by induction on the loop's fuel, which is never used up. -/
theorem execIsLeastBoundary : Obligations.ExecIsLeastBoundary := by
  refine ⟨fun s => ⟨opcodeFetch s, rfl, rfl⟩, fun _ => rfl, fun _ _ => rfl, fun n s t he => ?_⟩
  obtain ⟨u, hburst, rfl⟩ := execExec_next he
  have hfuel : n < ({ s with ticks := 0 } : State).ticks + (n + 1) := by simp
  obtain ⟨k, hk, hbefore⟩ := runBurst_boundary hfuel (Nat.succ_pos n) hburst
  obtain ⟨b, -, hrefused⟩ | ⟨w, hnext, -, -, hstop, hsync, -⟩ := runBurst_cases n (n + 1) _ hfuel (Nat.succ_pos n)
  · cases hrefused.symm.trans hburst
  · cases hnext.symm.trans hburst
    refine ⟨k + 1, u, Nat.succ_pos k, hk, hsync, rfl, (continues_eq_false_iff n u).1 hstop, fun j hj hlt => ?_⟩
    obtain ⟨i, rfl⟩ := Nat.exists_eq_add_of_le' hj
    obtain ⟨w, hw, hgo⟩ := hbefore i (Nat.lt_of_succ_lt_succ hlt)
    obtain ⟨hticks, hmask⟩ := (continues_iff n w).1 hgo
    exact ⟨w, hw, hticks, hmask⟩

end Sys2Proof.Proofs

/-! Runs of bus cycles, and the interrupt entry's six (60_exceptions.md): what they send and get, and what of it memory and
the video registers hold after them. -/

namespace Sys2Proof.Proofs

open Sys2Proof Sys2Proof.Machine Sys2Proof.Safety Sys2Proof.Laws

/-! ### Runs of bus cycles -/

/-- From `s` to `t` the engine made one bus cycle after another, sent these vectors and got these back, oldest first. -/
inductive BusCycles : State → State → List Pins → List Pins → Prop where
  | nil {s} : BusCycles s s [] []
  | cons {s t u p ps qs} (first : BusCycle s t p) (rest : BusCycles t u ps qs) :
      BusCycles s u (p :: ps) (t.cpu.pins :: qs)

/-- The last of the vectors that store at `k` decides what stands there, else it is `b`. -/
def lastStored {κ : Type} [DecidableEq κ] (target : Pins → Option κ) (k : κ) (b : Byte) (ps : List Pins) : Byte :=
  ps.foldl (fun x p => if target p = some k then p.data else x) b

section LastStored

variable {κ : Type} [DecidableEq κ] {target : Pins → Option κ} {k : κ}

theorem lastStored_of_none {ps : List Pins} (b : Byte) (h : ∀ p ∈ ps, target p ≠ some k) :
    lastStored target k b ps = b := by
  induction ps generalizing b with
  | nil => rfl
  | cons p ps ih =>
    rw [lastStored, List.foldl_cons, if_neg (h p List.mem_cons_self)]
    exact ih b fun q hq => h q (List.mem_cons_of_mem p hq)

/-- Where all vectors that store at `k` store one byte, it does not matter which of them is the last. -/
theorem lastStored_of_agree {ps : List Pins} {d : Byte} (b : Byte) (hsome : ∃ p ∈ ps, target p = some k)
    (hagree : ∀ p ∈ ps, target p = some k → p.data = d) : lastStored target k b ps = d := by
  induction ps generalizing b with
  | nil =>
    obtain ⟨p, hp, -⟩ := hsome
    cases hp
  | cons p ps ih =>
    have hrest (q : Pins) (hq : q ∈ ps) := hagree q (List.mem_cons_of_mem p hq)
    rw [lastStored, List.foldl_cons]
    by_cases hlater : ∃ q ∈ ps, target q = some k
    · exact ih _ hlater hrest
    · have hp : target p = some k := by
        obtain ⟨q, hq, hk⟩ := hsome
        obtain rfl | hq := List.mem_cons.1 hq
        · exact hk
        · exact absurd ⟨q, hq, hk⟩ hlater
      rw [if_pos hp, hagree p List.mem_cons_self hp]
      exact lastStored_of_none d fun q hq hk => hlater ⟨q, hq, hk⟩

end LastStored

theorem busCycles_cfg {s t : State} {ps qs : List Pins} (h : BusCycles s t ps qs) : t.cfg = s.cfg := by
  induction h with
  | nil => rfl
  | cons first _ ih => exact ih.trans first.cfg

theorem busCycles_sent {s t : State} {ps qs : List Pins} (h : BusCycles s t ps qs) : Sent s t ps := by
  induction h with
  | nil => exact sent_refl _
  | cons first _ ih => exact sent_trans first.sent first.cfg ih

theorem busCycles_returned {s t : State} {ps qs : List Pins} (h : BusCycles s t ps qs) :
    returnedVectors t.trace = returnedVectors s.trace ++ qs := by
  induction h with
  | nil => rw [List.append_nil]
  | cons first _ ih => rw [ih, first.returned, List.append_assoc, List.singleton_append]

/-- What holds of the first replies of a queue holds of the first, and of those after it. -/
theorem forall_take_succ {α : Type} {P : α → Prop} {xs : List α} {n : Nat} (h : ∀ x ∈ xs.take (n + 1), P x) :
    (∀ x ∈ xs.take 1, P x) ∧ ∀ x ∈ xs.tail.take n, P x := by
  cases xs <;> simp_all

/-- A byte of memory that the host spares holds what the last vector that stores there carries. -/
theorem busCycles_mem_read {s t : State} {ps qs : List Pins} (h : BusCycles s t ps qs) (hm : s.host.mem.wf = true)
    {a : Nat} (hspare : repliesSpare (s.host.replies.take ps.length) a) :
    t.host.mem.read a = lastStored (storedAt s.cfg) a (s.host.mem.read a) ps := by
  induction h with
  | nil => rfl
  | cons first _ ih =>
    obtain ⟨hnow, hlater⟩ := forall_take_succ hspare
    rw [ih (busCycle_mem_wf first hm) (by rw [first.replies]; exact hlater), first.cfg, busCycle_mem_read first hm hnow]
    rfl

theorem busCycles_regAt {s t : State} {ps qs : List Pins} (h : BusCycles s t ps qs) (r : Nibble) :
    regAt t.video.regs r = lastStored (registerAt s.cfg) r (regAt s.video.regs r) ps := by
  induction h with
  | nil => rfl
  | cons first _ ih =>
    rw [ih, first.cfg, busCycle_regAt_eq first]
    rfl

/-! ### The interrupt check (R262) -/

theorem exec_intseq (s : State) : exec .intseq s = .next (interruptEntry s) := rfl

theorem exec_intchk (s : State) : exec .intchk s = .next (if takeInterrupt s then interruptEntry s else s) := rfl

theorem takeInterrupt_iff (s : State) :
    takeInterrupt s = true ↔ s.cpu.pins.nmi = true ∨ (s.cpu.pins.irq = true ∧ s.cpu.p &&& s.cfg.iMask = 0) := by
  simp [takeInterrupt, irqMasked]

/-- Settles O21: the check is the entry's test. -/
theorem interruptCheckDecides : Obligations.InterruptCheckDecides := by
  intro s
  rw [exec_intchk, exec_intseq]
  by_cases h : takeInterrupt s = true
  · rw [if_pos h, if_pos ((takeInterrupt_iff s).1 h)]
  · rw [if_neg h, if_neg fun hcond => h ((takeInterrupt_iff s).2 hcond)]

/-! ### The six cycles of an entry (R265 to R272) -/

/-- The vectors an entry sends, from what the host returns: the throwaway read, the three pushes and the two reads. -/
def entryVectors (s : State) (r1 r2 r3 r4 r5 : Pins) (v : Addr) : List Pins :=
  [{ s.cpu.pins with rw := true, sync := false },
   { r1 with addr := 0x01#8 ++ s.cpu.sp, data := s.cpu.pc.extractLsb' 8 8, rw := false, sync := false },
   { r2 with addr := 0x01#8 ++ (s.cpu.sp - 1), data := s.cpu.pc.extractLsb' 0 8, rw := false, sync := false },
   { r3 with addr := 0x01#8 ++ (s.cpu.sp - 2), data := s.cpu.p &&& ~~~s.cfg.bMask, rw := false, sync := false },
   { r4 with addr := v, rw := true, sync := false },
   { r5 with addr := v + 1, rw := true, sync := false }]

/-- A host that does not drive `nmi` returns it as it was sent. -/
theorem busCycle_nmi {s t : State} {p : Pins} (h : BusCycle s t p) (hundriven : ∀ r ∈ s.host.replies.take 1, r.nmi = none) :
    t.cpu.pins.nmi = p.nmi := by
  obtain ⟨d, hpins⟩ := h.pins
  rw [hpins]
  cases hreplies : s.host.replies with
  | nil => rfl
  | cons r rs =>
    rw [hreplies] at hundriven
    change r.nmi.getD p.nmi = p.nmi
    rw [hundriven r (List.mem_singleton.2 rfl), Option.getD_none]

/-- All that an entry does: its six cycles, the vector by `nmi` of the fourth return, and the CPU it leaves. -/
theorem interruptEntry_run (s : State) : ∃ (u : State) (r1 r2 r3 r4 r5 r6 : Pins) (v : Addr),
    BusCycles s u (entryVectors s r1 r2 r3 r4 r5 v) [r1, r2, r3, r4, r5, r6] ∧
    v = (if r4.nmi then s.cfg.nmiVector else s.cfg.irqVector) ∧
    interruptEntry s = entryFinish r5.data r6.data u ∧
    u.cpu = { s.cpu with sp := s.cpu.sp - 3, pins := r6 } ∧
    ((∀ r ∈ s.host.replies.take 4, r.nmi = none) → r4.nmi = s.cpu.pins.nmi) := by
  obtain ⟨t1, t2, t3, t4, t5, t6, v, c1, -, c2, -, c3, -, c4, -, hv, c5, -, c6, k6, e⟩ := interruptEntry_cycles s
  refine ⟨t6, t1.cpu.pins, t2.cpu.pins, t3.cpu.pins, t4.cpu.pins, t5.cpu.pins, t6.cpu.pins, v,
    .cons c1 (.cons c2 (.cons c3 (.cons c4 (.cons c5 (.cons c6 .nil))))), hv, e, k6, fun h => ?_⟩
  obtain ⟨h1, h⟩ := forall_take_succ h
  rw [← c1.replies] at h
  obtain ⟨h2, h⟩ := forall_take_succ h
  rw [← c2.replies] at h
  obtain ⟨h3, h⟩ := forall_take_succ h
  rw [← c3.replies] at h
  obtain ⟨h4, -⟩ := forall_take_succ h
  rw [busCycle_nmi c4 h4, busCycle_nmi c3 h3, busCycle_nmi c2 h2, busCycle_nmi c1 h1]

/-- The load and the clearing of the lines send nothing. -/
theorem entryFinish_sent {s u : State} {ps qs : List Pins} (lo hi : Byte) (h : BusCycles s u ps qs) :
    Sent s (entryFinish lo hi u) ps := by
  have hfinish : Sent u (entryFinish lo hi u) [] := sent_quiet rfl rfl rfl rfl rfl rfl
  simpa using sent_trans (busCycles_sent h) (busCycles_cfg h) hfinish

/-- Settles O22: the six cycles and the load, as the entry makes them. -/
theorem interruptEntryCycles : Obligations.InterruptEntryCycles := by
  intro s
  obtain ⟨u, r1, r2, r3, r4, r5, r6, v, cycles, hv, hentry, hcpu, -⟩ := interruptEntry_run s
  have ran := ran_interruptEntry s
  refine ⟨interruptEntry s, r1, r2, r3, r4, r5, r6, v, exec_intseq s, ?_, hv, ?_, ?_, ⟨ran.cfg, ran.display⟩, ran.calls⟩
  · rw [hentry, entryFinish_trace, busCycles_returned cycles]
  · rw [hentry]
    exact entryFinish_sent _ _ cycles
  · rw [hentry, entryFinish_cpu, hcpu, busCycles_cfg cycles]
    rfl

/-- The low byte of `PC` in arithmetic (R268). -/
theorem pcLow_toNat (pc : Addr) : (pc.extractLsb' 0 8).toNat = pc.toNat % 256 := by
  rw [BitVec.extractLsb'_toNat, Nat.shiftRight_zero]

/-- The high byte of `PC` in arithmetic (R267). -/
theorem pcHigh_toNat (pc : Addr) : (pc.extractLsb' 8 8).toNat = pc.toNat / 256 := by
  rw [BitVec.extractLsb'_toNat, Nat.shiftRight_eq_div_pow]
  exact Nat.mod_eq_of_lt (Nat.div_lt_of_lt_mul pc.isLt)

/-- Settles O23: read off the six cycles, the bytes in arithmetic. -/
theorem interruptEntrySavesAndLoads : Obligations.InterruptEntrySavesAndLoads := by
  intro s
  obtain ⟨t, r1, r2, r3, r4, r5, r6, v, hnext, hreturned, -, ⟨hsent, -⟩, hcpu, -⟩ := interruptEntryCycles s
  refine ⟨t, _, _, _, _, _, _, r1, r2, r3, r4, r5, r6, hnext, hsent, hreturned, rfl, pcLow_toNat _, rfl, rfl, rfl, rfl, ?_, ?_⟩
  · rw [hcpu]
    exact append_toNat _ _
  · rw [hcpu]

/-- Settles O25: an asserted `nmi` takes the entry, and the vector is chosen by what the fourth exchange returns. -/
theorem nmiWins : Obligations.NmiWins := by
  intro s hnmi _
  obtain ⟨u, r1, r2, r3, r4, r5, r6, v, cycles, hv, hentry, -, hkept⟩ := interruptEntry_run s
  have hcheck : exec .intchk s = .next (interruptEntry s) := by
    rw [exec_intchk, if_pos ((takeInterrupt_iff s).2 (.inl hnmi))]
  have hsent : Sent s (interruptEntry s) (entryVectors s r1 r2 r3 r4 r5 v) := hentry ▸ entryFinish_sent _ _ cycles
  refine ⟨interruptEntry s, _, _, _, _, _, _, r1, r2, r3, r4, r5, r6, hcheck, hsent, ?_, hv, rfl, rfl, rfl, ?_, ?_,
    fun hundriven => hv.trans (if_pos ((hkept hundriven).trans hnmi))⟩
  · rw [hentry, entryFinish_trace, busCycles_returned cycles]
  · rw [hentry, entryFinish_cpu]
  · rw [hentry, entryFinish_cpu]

end Sys2Proof.Proofs

/-! The interrupt entry's stack (60_exceptions.md section 3): the three bytes pushed, each where the arbiter sends its address,
and nothing else stored. -/

namespace Sys2Proof.Proofs

open Sys2Proof Sys2Proof.Machine Sys2Proof.Safety Sys2Proof.Laws

/-! ### Where a vector stores -/

theorem storedAt_iff {c : Config} {p : Pins} {a : Nat} :
    storedAt c p = some a ↔ p.rw = false ∧ busSelect c p.addr = false ∧ p.addr.toNat = a := by
  cases hrw : p.rw <;> cases hsel : busSelect c p.addr <;> simp [storedAt, hrw, hsel]

theorem registerAt_iff {c : Config} {p : Pins} {r : Nibble} :
    registerAt c p = some r ↔ p.rw = false ∧ busSelect c p.addr = true ∧ regIndex p.addr = r := by
  cases hrw : p.rw <;> cases hsel : busSelect c p.addr <;> simp [registerAt, hrw, hsel]

/-! ### The stack page (R24, D6) -/

theorem stackAddr_toNat (sp : Byte) : (stackAddr sp).toNat = 256 + sp.toNat := append_toNat 0x01#8 sp

theorem ofNat_stackAddr (sp : Byte) : BitVec.ofNat 16 (256 + sp.toNat) = stackAddr sp := by
  rw [← stackAddr_toNat, BitVec.ofNat_toNat, BitVec.setWidth_eq]

/-- The page does not reach the four lines that name a register. -/
theorem regIndex_stackAddr (sp : Byte) : regIndex (stackAddr sp) = BitVec.ofNat 4 (sp.toNat % 16) := by
  rw [regIndex_eq_mod, stackAddr_toNat, Nat.add_mod]
  simp

/-! ### What an entry pushes -/

/-- The stack pointers and the bytes of an entry's three pushes (R267 to R269). -/
def entryPushes (s : State) : List (Byte × Byte) :=
  [(s.cpu.sp, s.cpu.pc.extractLsb' 8 8), (s.cpu.sp - 1, s.cpu.pc.extractLsb' 0 8),
   (s.cpu.sp - 2, s.cpu.p &&& ~~~s.cfg.bMask)]

/-- The three stack pointers differ modulo 16, so no two pushes share an address or a register. -/
theorem entryPushes_agree {s : State} {x y : Byte × Byte} (hx : x ∈ entryPushes s) (hy : y ∈ entryPushes s)
    (hmod : x.1.toNat % 16 = y.1.toNat % 16) : x = y := by
  have h1 : (s.cpu.sp - 1).toNat % 16 = (s.cpu.sp.toNat + 15) % 16 := by bv_omega
  have h2 : (s.cpu.sp - 2).toNat % 16 = (s.cpu.sp.toNat + 14) % 16 := by bv_omega
  have hnodup : ((entryPushes s).map fun e => e.1.toNat % 16).Nodup := by
    simp only [entryPushes, List.map_cons, List.map_nil, h1, h2, List.nodup_cons, List.mem_cons, List.not_mem_nil,
      or_false, List.nodup_nil, and_true, not_false_eq_true]
    omega
  exact List.inj_on_of_nodup_map hnodup hx hy hmod

/-- The vector of a push. -/
def Pushes (p : Pins) (e : Byte × Byte) : Prop := p.rw = false ∧ p.addr = stackAddr e.1 ∧ p.data = e.2

section

variable {s : State} {r1 r2 r3 r4 r5 : Pins} {v : Addr}

/-- Of an entry's vectors those that write are the pushes. -/
theorem pushes_of_mem_entryVectors {p : Pins} (hp : p ∈ entryVectors s r1 r2 r3 r4 r5 v) (hw : p.rw = false) :
    ∃ e ∈ entryPushes s, Pushes p e := by
  simp only [entryVectors, List.mem_cons, List.not_mem_nil, or_false] at hp
  obtain rfl | rfl | rfl | rfl | rfl | rfl := hp
  · cases hw
  · exact ⟨_, List.mem_cons_self, rfl, rfl, rfl⟩
  · exact ⟨_, List.mem_cons_of_mem _ List.mem_cons_self, rfl, rfl, rfl⟩
  · exact ⟨_, List.mem_cons_of_mem _ (List.mem_cons_of_mem _ List.mem_cons_self), rfl, rfl, rfl⟩
  · cases hw
  · cases hw

theorem exists_entryVector_of_push {e : Byte × Byte} (he : e ∈ entryPushes s) :
    ∃ p ∈ entryVectors s r1 r2 r3 r4 r5 v, Pushes p e := by
  simp only [entryPushes, List.mem_cons, List.not_mem_nil, or_false] at he
  obtain rfl | rfl | rfl := he
  · exact ⟨_, List.mem_cons_of_mem _ List.mem_cons_self, rfl, rfl, rfl⟩
  · exact ⟨_, List.mem_cons_of_mem _ (List.mem_cons_of_mem _ List.mem_cons_self), rfl, rfl, rfl⟩
  · exact ⟨_, List.mem_cons_of_mem _ (List.mem_cons_of_mem _ (List.mem_cons_of_mem _ List.mem_cons_self)), rfl, rfl, rfl⟩

/-- A push that memory serves is the one vector that stores at its address. -/
theorem lastStored_entry_memory {e : Byte × Byte} (he : e ∈ entryPushes s)
    (hsel : busSelect s.cfg (stackAddr e.1) = false) (b : Byte) :
    lastStored (storedAt s.cfg) (256 + e.1.toNat) b (entryVectors s r1 r2 r3 r4 r5 v) = e.2 := by
  obtain ⟨p, hp, hw, haddr, -⟩ := exists_entryVector_of_push (r1 := r1) (r2 := r2) (r3 := r3) (r4 := r4) (r5 := r5)
    (v := v) he
  refine lastStored_of_agree b ⟨p, hp, storedAt_iff.2 ⟨hw, haddr ▸ hsel, haddr ▸ stackAddr_toNat _⟩⟩ fun q hq hk => ?_
  obtain ⟨hw, -, hqaddr⟩ := storedAt_iff.1 hk
  obtain ⟨f, hf, -, hfaddr, hdata⟩ := pushes_of_mem_entryVectors hq hw
  rw [hfaddr, stackAddr_toNat] at hqaddr
  rw [hdata, entryPushes_agree hf he (by omega)]

/-- A push that the arbiter gives to the chip is the one vector that stores in its register. -/
theorem lastStored_entry_register {e : Byte × Byte} (he : e ∈ entryPushes s)
    (hsel : busSelect s.cfg (stackAddr e.1) = true) (b : Byte) :
    lastStored (registerAt s.cfg) (regIndex (stackAddr e.1)) b (entryVectors s r1 r2 r3 r4 r5 v) = e.2 := by
  obtain ⟨p, hp, hw, haddr, -⟩ := exists_entryVector_of_push (r1 := r1) (r2 := r2) (r3 := r3) (r4 := r4) (r5 := r5)
    (v := v) he
  refine lastStored_of_agree b ⟨p, hp, registerAt_iff.2 ⟨hw, haddr ▸ hsel, haddr ▸ rfl⟩⟩ fun q hq hk => ?_
  obtain ⟨hw, -, hindex⟩ := registerAt_iff.1 hk
  obtain ⟨f, hf, -, hfaddr, hdata⟩ := pushes_of_mem_entryVectors hq hw
  rw [hfaddr, regIndex_stackAddr, regIndex_stackAddr] at hindex
  have hmod := congrArg BitVec.toNat hindex
  simp only [BitVec.toNat_ofNat] at hmod
  rw [hdata, entryPushes_agree hf he (by omega)]

/-- No vector stores at an address of memory that no push served by memory has. -/
theorem lastStored_entry_memory_other {a : Nat} (b : Byte)
    (hother : ∀ e ∈ entryPushes s, busSelect s.cfg (stackAddr e.1) = false → a ≠ 256 + e.1.toNat) :
    lastStored (storedAt s.cfg) a b (entryVectors s r1 r2 r3 r4 r5 v) = b := by
  refine lastStored_of_none b fun p hp hk => ?_
  obtain ⟨hw, hsel, haddr⟩ := storedAt_iff.1 hk
  obtain ⟨e, he, -, headdr, -⟩ := pushes_of_mem_entryVectors hp hw
  rw [headdr] at hsel haddr
  exact hother e he hsel (haddr.symm.trans (stackAddr_toNat _))

/-- No vector stores in a register that no push given to the chip names. -/
theorem lastStored_entry_register_other {r : Nibble} (b : Byte)
    (hother : ∀ e ∈ entryPushes s, busSelect s.cfg (stackAddr e.1) = true → r ≠ regIndex (stackAddr e.1)) :
    lastStored (registerAt s.cfg) r b (entryVectors s r1 r2 r3 r4 r5 v) = b := by
  refine lastStored_of_none b fun p hp hk => ?_
  obtain ⟨hw, hsel, hindex⟩ := registerAt_iff.1 hk
  obtain ⟨e, he, -, headdr, -⟩ := pushes_of_mem_entryVectors hp hw
  rw [headdr] at hsel hindex
  exact hother e he hsel hindex.symm

end

/-- Settles O24: the entry's pushes are the only vectors that store, each alone at its address and in its register. -/
theorem interruptEntryStack : Obligations.InterruptEntryStack := by
  intro s ⟨hm, _⟩
  obtain ⟨u, r1, r2, r3, r4, r5, r6, v, cycles, -, hentry, -⟩ := interruptEntry_run s
  have hmem {a : Nat} (hspare : repliesSpare (s.host.replies.take 6) a) :
      (interruptEntry s).host.mem.read a =
        lastStored (storedAt s.cfg) a (s.host.mem.read a) (entryVectors s r1 r2 r3 r4 r5 v) := by
    rw [hentry, entryFinish_host]
    exact busCycles_mem_read cycles hm hspare
  have hregs (r : Nibble) : regAt (interruptEntry s).video.regs r =
      lastStored (registerAt s.cfg) r (regAt s.video.regs r) (entryVectors s r1 r2 r3 r4 r5 v) := by
    rw [hentry, entryFinish_video]
    exact busCycles_regAt cycles r
  refine ⟨interruptEntry s, exec_intseq s, ?_, fun a h0 h1 h2 hspare => ?_, fun r hr => ?_⟩
  · have hlist : [(256 + s.cpu.sp.toNat, s.cpu.pc.toNat / 256), (256 + (s.cpu.sp - 1).toNat, s.cpu.pc.toNat % 256),
        (256 + (s.cpu.sp - 2).toNat, (s.cpu.p &&& ~~~s.cfg.bMask).toNat)] =
        (entryPushes s).map fun e => (256 + e.1.toNat, e.2.toNat) := by
      simp only [entryPushes, List.map_cons, List.map_nil, pcHigh_toNat, pcLow_toNat]
    rw [hlist, List.forall_mem_map]
    intro e he
    dsimp only
    rw [ofNat_stackAddr, ← stackAddr_toNat, ← regIndex_eq_mod, stackAddr_toNat]
    refine ⟨fun hsel hspare => ?_, fun hsel => ⟨?_, fun hspare => ?_⟩⟩
    · rw [hmem hspare, lastStored_entry_memory he hsel]
    · rw [hregs, lastStored_entry_register he hsel]
    · rw [hmem hspare]
      refine lastStored_entry_memory_other _ fun f hf hno heq => ?_
      rw [entryPushes_agree he hf (by omega), hno] at hsel
      cases hsel
  · rw [hmem hspare]
    refine lastStored_entry_memory_other _ fun e he _ => ?_
    simp only [entryPushes, List.mem_cons, List.not_mem_nil, or_false] at he
    obtain rfl | rfl | rfl := he
    · exact h0
    · exact h1
    · exact h2
  · rw [hregs]
    refine lastStored_entry_register_other _ fun e he hsel => ?_
    rw [regIndex_stackAddr]
    refine hr e.1.toNat ?_ (by rwa [ofNat_stackAddr])
    simp only [entryPushes, List.mem_cons, List.not_mem_nil, or_false] at he
    obtain rfl | rfl | rfl := he <;> simp

end Sys2Proof.Proofs

/-! The clock of an exchange (44_host_interfaces.md section 2): the owed video ticks do not depend on the vector in the host's
hand or on its memory, so the ticks of an exchange are those of the state it starts from, with the cycle's access on the side
that `ARB_ORDER` says. -/

namespace Sys2Proof.Proofs

open Sys2Proof Sys2Proof.Machine Sys2Proof.Safety Sys2Proof.Laws

/-! ### Ticks read neither the host's vector nor its memory -/

/-- Another memory and another vector in the host's hand. -/
def withMemBus (m : Memory 8) (p : Pins) (s : State) : State := { s with host := { s.host with mem := m, bus := p } }

theorem pixelProduction_withMemBus (m : Memory 8) (p : Pins) (s : State) :
    pixelProduction (withMemBus m p s) = withMemBus m p (pixelProduction s) := by
  have hsame : produces (withMemBus m p s) = produces s := rfl
  rw [pixelProduction, pixelProduction, hsame]
  split <;> rfl

theorem fetchStep_withMemBus (m : Memory 8) (p : Pins) (s : State) :
    fetchStep (withMemBus m p s) = withMemBus m p (fetchStep s) := by
  have hsame : (withMemBus m p s).video = s.video := rfl
  rw [fetchStep, fetchStep, hsame]
  split <;> rfl

theorem vtick_withMemBus (m : Memory 8) (p : Pins) (s : State) : vtick (withMemBus m p s) = withMemBus m p (vtick s) := by
  have hborder (u : State) : borderTransitions (withMemBus m p u) = withMemBus m p (borderTransitions u) := rfl
  have hcounters (u : State) : record (.ticked false) (advanceCounters (withMemBus m p u)) =
      withMemBus m p (record (.ticked false) (advanceCounters u)) := rfl
  rw [vtick, vtick, pixelProduction_withMemBus, hborder, fetchStep_withMemBus, hcounters]

theorem videoTicks_withMemBus (n : Nat) (m : Memory 8) (p : Pins) (s : State) :
    videoTicks n (withMemBus m p s) = withMemBus m p (videoTicks n s) := by
  induction n generalizing s with
  | zero => rfl
  | succ n ih => rw [videoTicks, videoTicks, vtick_withMemBus, ih]

/-! ### The cycle's own part of the record -/

/-- The register read that a cycle with the snapshot's vector makes, the chip standing as `v` (R231, log entry 26). -/
def registerReads (s : State) (v : Video) : List Event :=
  if s.cpu.pins.rw = true ∧ busSelect s.cfg s.cpu.pins.addr = true then
    [.regRead (BitVec.ofNat 4 (s.cpu.pins.addr.toNat % 16))
      (readValue v (BitVec.ofNat 4 (s.cpu.pins.addr.toNat % 16)))]
  else []

/-- The state with its snapshot observed as sent. -/
def observeSent (s : State) : State := { s with trace := .sent s.cpu.pins :: s.trace }

/-- That state after the register write that a cycle with the snapshot's vector makes, if it makes one. -/
def registerWritten (s : State) : State :=
  match registerAt s.cfg s.cpu.pins with
  | some r => accessWrite r s.cpu.pins.data (observeSent s)
  | none => observeSent s

theorem sendPins_eq_withMemBus (s : State) : sendPins s = withMemBus s.host.mem s.cpu.pins (observeSent s) := rfl

theorem serveCycle_fetches (s : State) : (serveCycle s).host.fetches = s.host.fetches := by
  unfold serveCycle videoAccess memoryCycle
  split <;> split <;> rfl

/-- Of the record a served cycle adds a register read alone. -/
theorem serveCycle_trace_eq {s u : State} (hcfg : u.cfg = s.cfg) (hbus : u.host.bus = s.cpu.pins) :
    (serveCycle u).trace = registerReads s u.video ++ u.trace := by
  unfold serveCycle registerReads
  rw [hcfg, hbus, ← regIndex_eq_mod]
  cases hsel : busSelect s.cfg s.cpu.pins.addr with
  | false =>
    rw [if_neg Bool.false_ne_true, if_neg (by simp)]
    unfold memoryCycle
    split <;> rfl
  | true =>
    unfold videoAccess
    rw [if_pos rfl, hbus]
    cases hrw : s.cpu.pins.rw <;> simp

/-- With the access first, the ticks start from the register write or the register read that the cycle makes. -/
theorem serveCycle_sendPins (s : State) : ∃ m p, serveCycle (sendPins s) =
    withMemBus m p { registerWritten s with trace := registerReads s s.video ++ (registerWritten s).trace } := by
  unfold serveCycle registerWritten registerReads
  rw [sendPins_cfg, sendPins_host, ← regIndex_eq_mod]
  cases hsel : busSelect s.cfg s.cpu.pins.addr with
  | false =>
    rw [registerAt_of_unselected hsel, if_neg Bool.false_ne_true, if_neg (by simp)]
    unfold memoryCycle
    split
    · exact ⟨s.host.mem, _, rfl⟩
    · exact ⟨_, s.cpu.pins, rfl⟩
  | true =>
    unfold videoAccess
    rw [if_pos rfl, sendPins_host]
    cases hrw : s.cpu.pins.rw with
    | false =>
      rw [registerAt_of_write hrw hsel, if_neg Bool.false_ne_true, if_neg (by simp)]
      exact ⟨s.host.mem, s.cpu.pins, rfl⟩
    | true =>
      rw [registerAt_of_read _ hrw, if_pos rfl, if_pos ⟨rfl, rfl⟩]
      exact ⟨s.host.mem, _, rfl⟩

/-! ### The two orders (R232, D33) -/

theorem exchange_of_tickFirst {s : State} (ho : s.cfg.arbOrder = .tickFirst) :
    exchange s = takePins (applyReply (serveCycle (owedTicks (sendPins s)))) := by
  rw [exchange, hostTick, sendPins_cfg, ho]

theorem exchange_of_accessFirst {s : State} (ho : s.cfg.arbOrder = .accessFirst) :
    exchange s = takePins (applyReply (owedTicks (serveCycle (sendPins s)))) := by
  rw [exchange, hostTick, sendPins_cfg, ho]

/-- With `TickFirst` the chip, the pixels, the fetch queue and the record are those of the owed ticks, but for the access. -/
theorem exchange_ticks_of_tickFirst {s : State} (ho : s.cfg.arbOrder = .tickFirst) :
    let u := videoTicks s.cfg.ticksPerCpuTick (observeSent s)
    (exchange s).video = { u.video with regs := (exchange s).video.regs } ∧
    (exchange s).host.frame = u.host.frame ∧ (exchange s).host.fetches = u.host.fetches ∧
    (exchange s).trace = .returned (exchange s).cpu.pins :: (registerReads s u.video ++ u.trace) := by
  intro u
  have hticks : owedTicks (sendPins s) = withMemBus s.host.mem s.cpu.pins u := by
    rw [sendPins_eq_withMemBus]
    exact videoTicks_withMemBus _ _ _ _
  have hcfg : u.cfg = s.cfg := (videoTicks_kept _ _).cfg
  rw [exchange_of_tickFirst ho, hticks]
  obtain ⟨-, -, -, -, -, hframe, -, -, -, -, hvideo⟩ := serveCycle_kept (withMemBus s.host.mem s.cpu.pins u)
  refine ⟨hvideo, hframe, serveCycle_fetches _, congrArg (List.cons _) ?_⟩
  exact serveCycle_trace_eq (u := withMemBus s.host.mem s.cpu.pins u) hcfg rfl

/-- With `AccessFirst` they are those of the owed ticks run after the access. -/
theorem exchange_ticks_of_accessFirst {s : State} (ho : s.cfg.arbOrder = .accessFirst) :
    let u := videoTicks s.cfg.ticksPerCpuTick
      { registerWritten s with trace := registerReads s s.video ++ (registerWritten s).trace }
    (exchange s).video = u.video ∧ (exchange s).host.frame = u.host.frame ∧
    (exchange s).host.fetches = u.host.fetches ∧ (exchange s).trace = .returned (exchange s).cpu.pins :: u.trace := by
  intro u
  obtain ⟨m, p, hserved⟩ := serveCycle_sendPins s
  have hcfg : (serveCycle (sendPins s)).cfg = s.cfg := (serveCycle_kept (sendPins s)).1
  have hticks : owedTicks (serveCycle (sendPins s)) = withMemBus m p u := by
    rw [owedTicks, hcfg, hserved]
    exact videoTicks_withMemBus _ _ _ _
  rw [exchange_of_accessFirst ho, hticks]
  exact ⟨rfl, rfl, rfl, rfl⟩

/-! ### The interrupt entry as exchanges (R265) -/

/-- Another stack pointer. -/
def withSp (sp : Byte) (s : State) : State := { s with cpu := { s.cpu with sp := sp } }

@[simp] theorem withSp_cfg (sp : Byte) (s : State) : (withSp sp s).cfg = s.cfg := rfl
@[simp] theorem withSp_cpu (sp : Byte) (s : State) : (withSp sp s).cpu = { s.cpu with sp := sp } := rfl

/-- An exchange with its lines set changes of the CPU the snapshot alone. -/
theorem readExchangeHere_cpu (s : State) :
    (readExchangeHere s).cpu = { s.cpu with pins := (readExchangeHere s).cpu.pins } := exchange_setPins_cpu s _

theorem readExchange_cpu (a : Addr) (s : State) :
    (readExchange a s).cpu = { s.cpu with pins := (readExchange a s).cpu.pins } := exchange_setPins_cpu s _

theorem writeExchange_cpu (a : Addr) (b : Byte) (s : State) :
    (writeExchange a b s).cpu = { s.cpu with pins := (writeExchange a b s).cpu.pins } := exchange_setPins_cpu s _

/-- A push of an entry is a write at the stack address of the old `SP`, then the new `SP` (R267). -/
theorem push_syncDown_eq (b sp : Byte) {t : State} (hsp : t.cpu.sp = sp) :
    push b (syncDown t) = withSp (sp - 1) (writeExchange (stackAddr sp) b (syncDown t)) := by
  subst hsp
  have hkept : (writeExchange (stackAddr t.cpu.sp) b (syncDown t)).cpu.sp = t.cpu.sp := by
    rw [writeExchange_cpu, syncDown_cpu]
  exact congrArg (fun n => withSp (n - 1) (writeExchange (stackAddr t.cpu.sp) b (syncDown t))) hkept

/-- The entry's first four exchanges, with the registers as the entry began (R266 to R269). -/
theorem entrySave_exchanges (s : State) : ∃ t1 t2 t3 t4 : State,
    t1 = readExchangeHere (syncDown s) ∧
    t2 = writeExchange (stackAddr s.cpu.sp) (pcHigh s.cpu.pc) (syncDown t1) ∧
    t3 = writeExchange (stackAddr (s.cpu.sp - 1)) (pcLow s.cpu.pc) (syncDown (withSp (s.cpu.sp - 1) t2)) ∧
    t4 = writeExchange (stackAddr (s.cpu.sp - 2)) (pushedStatus s.cfg s.cpu.p) (syncDown (withSp (s.cpu.sp - 2) t3)) ∧
    entrySave s = withSp (s.cpu.sp - 3) t4 ∧ t4.cpu.p = s.cpu.p := by
  obtain ⟨t1, e1⟩ : ∃ t1, t1 = readExchangeHere (syncDown s) := ⟨_, rfl⟩
  obtain ⟨t2, e2⟩ : ∃ t2, t2 = writeExchange (stackAddr s.cpu.sp) (pcHigh s.cpu.pc) (syncDown t1) := ⟨_, rfl⟩
  obtain ⟨t3, e3⟩ : ∃ t3, t3 =
    writeExchange (stackAddr (s.cpu.sp - 1)) (pcLow s.cpu.pc) (syncDown (withSp (s.cpu.sp - 1) t2)) := ⟨_, rfl⟩
  obtain ⟨t4, e4⟩ : ∃ t4, t4 = writeExchange (stackAddr (s.cpu.sp - 2)) (pushedStatus s.cfg s.cpu.p)
    (syncDown (withSp (s.cpu.sp - 2) t3)) := ⟨_, rfl⟩
  have k1 : t1.cpu = { s.cpu with pins := t1.cpu.pins } := by rw [e1, readExchangeHere_cpu, syncDown_cpu]
  have k2 : t2.cpu = { s.cpu with pins := t2.cpu.pins } := by rw [e2, writeExchange_cpu, syncDown_cpu, k1]
  have k3 : t3.cpu = { s.cpu with sp := s.cpu.sp - 1, pins := t3.cpu.pins } := by
    rw [e3, writeExchange_cpu, syncDown_cpu, withSp_cpu, k2]
  have k4 : t4.cpu = { s.cpu with sp := s.cpu.sp - 2, pins := t4.cpu.pins } := by
    rw [e4, writeExchange_cpu, syncDown_cpu, withSp_cpu, k3]
  have f3 : t3.cfg = s.cfg := by
    rw [e3, (ran_writeExchange _ _ _).cfg, syncDown_cfg, withSp_cfg, e2, (ran_writeExchange _ _ _).cfg, syncDown_cfg, e1,
      (ran_readExchangeHere _).cfg, syncDown_cfg]
  have p2 : push (pcHigh t1.cpu.pc) (syncDown t1) = withSp (s.cpu.sp - 1) t2 := by
    rw [push_syncDown_eq _ s.cpu.sp (by rw [k1]), e2, k1]
  have p3 : push (pcLow (withSp (s.cpu.sp - 1) t2).cpu.pc) (syncDown (withSp (s.cpu.sp - 1) t2)) =
      withSp (s.cpu.sp - 2) t3 := by
    rw [push_syncDown_eq _ (s.cpu.sp - 1) rfl, e3, withSp_cpu, k2]
    congr 1
    bv_omega
  have p4 : push (pushedStatus (withSp (s.cpu.sp - 2) t3).cfg (withSp (s.cpu.sp - 2) t3).cpu.p)
      (syncDown (withSp (s.cpu.sp - 2) t3)) = withSp (s.cpu.sp - 3) t4 := by
    rw [push_syncDown_eq _ (s.cpu.sp - 2) rfl, e4, withSp_cfg, withSp_cpu, f3, k3]
    congr 1
    bv_omega
  refine ⟨t1, t2, t3, t4, e1, e2, e3, e4, ?_, by rw [k4]⟩
  rw [entrySave, ← e1, p2, p3, p4]

/-- The whole entry as its six exchanges and the load (R265). -/
theorem interruptEntry_exchanges (s : State) : ∃ (t1 t2 t3 t4 t5 t6 : State) (v : Addr),
    t1 = readExchangeHere (syncDown s) ∧
    t2 = writeExchange (stackAddr s.cpu.sp) (pcHigh s.cpu.pc) (syncDown t1) ∧
    t3 = writeExchange (stackAddr (s.cpu.sp - 1)) (pcLow s.cpu.pc) (syncDown (withSp (s.cpu.sp - 1) t2)) ∧
    t4 = writeExchange (stackAddr (s.cpu.sp - 2)) (pushedStatus s.cfg s.cpu.p) (syncDown (withSp (s.cpu.sp - 2) t3)) ∧
    v = (if t4.cpu.pins.nmi then s.cfg.nmiVector else s.cfg.irqVector) ∧
    t5 = readExchange v (syncDown (withSp (s.cpu.sp - 3) t4)) ∧ t6 = readExchange (v + 1) (syncDown t5) ∧
    interruptEntry s = { t6 with cpu := { t6.cpu with
      pc := t6.cpu.pins.data ++ t5.cpu.pins.data
      p := s.cpu.p ||| s.cfg.iMask
      pins := { t6.cpu.pins with irq := false, nmi := false } } } := by
  obtain ⟨t1, t2, t3, t4, e1, e2, e3, e4, hsave, hp⟩ := entrySave_exchanges s
  obtain ⟨v, hv⟩ : ∃ v, v = vectorLocation (withSp (s.cpu.sp - 3) t4) := ⟨_, rfl⟩
  obtain ⟨t5, e5⟩ : ∃ t5, t5 = readExchange v (syncDown (withSp (s.cpu.sp - 3) t4)) := ⟨_, rfl⟩
  obtain ⟨t6, e6⟩ : ∃ t6, t6 = readExchange (v + 1) (syncDown t5) := ⟨_, rfl⟩
  have hcfg : t4.cfg = s.cfg := by
    have hkept := (ran_entrySave s).cfg
    rwa [hsave] at hkept
  have hcfg6 : t6.cfg = s.cfg := by
    rw [e6, (ran_readExchange _ _).cfg, syncDown_cfg, e5, (ran_readExchange _ _).cfg, syncDown_cfg, withSp_cfg, hcfg]
  have hp6 : t6.cpu.p = s.cpu.p := by
    rw [e6, readExchange_cpu, syncDown_cpu, e5, readExchange_cpu, syncDown_cpu, withSp_cpu]
    exact hp
  refine ⟨t1, t2, t3, t4, t5, t6, v, e1, e2, e3, e4, ?_, e5, e6, ?_⟩
  · rw [hv, vectorLocation, withSp_cfg, hcfg]
    rfl
  · rw [interruptEntry, hsave, entryVector]
    dsimp only
    rw [← hv, ← e5, ← e6, entryFinish, setI, hcfg6, hp6]
    rfl

/-- Settles O11: the owed ticks by their commuting with the host's vector and memory, the other cycles by unfolding them. -/
theorem exchangeTicksVideo : Obligations.ExchangeTicksVideo := by
  refine ⟨fun _ => rfl, fun n s => ⟨vtick s, rfl, rfl⟩, fun s => ?_, fun _ _ => rfl, fun _ _ _ => rfl,
    fun s => ⟨exchange (fetchStart s), rfl, rfl⟩, fun s => ?_⟩
  · exact ⟨exchange s, exec_xchg s, exchange_ticks_of_tickFirst, exchange_ticks_of_accessFirst⟩
  · obtain ⟨t1, t2, t3, t4, t5, t6, v, e1, e2, e3, e4, hv, e5, e6, hentry⟩ := interruptEntry_exchanges s
    exact ⟨t1, t2, t3, t4, t5, t6, v, congrArg _ e1.symm, congrArg _ e2.symm, congrArg _ e3.symm, congrArg _ e4.symm, hv,
      congrArg _ e5.symm, congrArg _ e6.symm, (exec_intseq s).trans (congrArg _ hentry)⟩

end Sys2Proof.Proofs
